-- ==== Sys2Proof/Word.lean ====
section
/-! DEFINITION. The widths of the hardware's values (00_scope.md R7) and the plainest operations on
them. Every value is an unsigned natural of a stated width; nothing is signed (42_timing_generator.md R164). -/

namespace Sys2Proof

/-- A level on a pin: one bit, `false` low and `true` high (00_scope.md R7). -/
abbrev Level := Bool

/-- A byte, `u8`. -/
abbrev Byte := BitVec 8

/-- An operation word (30_encoding.md R60); also the width `CW` of a timing count (00_scope.md R6). -/
abbrev Word := BitVec 16

/-- A 24-bit colour `{R[7:0], G[7:0], B[7:0]}` (10_state.md R23, R26). -/
abbrev Colour := BitVec 24

/-- A level as the number 0 or 1. -/
def Level.toNat (l : Level) : Nat := if l then 1 else 0

end Sys2Proof
end

