-- ==== Sys2Proof/Config.lean ====
section
/-! DEFINITION. What is fixed for the hardware: the parameter values of 00_scope.md R6, the types of the
OPEN parameters, and the free values. A free value is an `opaque` constant with no body: nothing can be
proved of it, so a claim about it holds for every value (the assumption log's entries 2 to 8). -/

namespace Sys2Proof

/-! ### Parameters with a value (00_scope.md R6) -/

/-- Panel width in pixels (R6). -/
def Config.panelW : Nat := 240

/-- Panel height in pixels (R6). -/
def Config.panelH : Nat := 320

/-- Level of DC for a command byte (R6; the spec's decision D3). -/
def Config.dcCmdLevel : Level := false

/-- Level of DC for a data byte: the complement of the command level (R6). -/
def Config.dcDataLevel : Level := !Config.dcCmdLevel

/-- Level of CS while asserted (R6, 90_conflicts.md C8). -/
def Config.csAssertLevel : Level := false

/-- The order of the eight bits of a byte on MOSI: most significant first (R6; the spec's decision D5). -/
def Config.bitOrder : List Nat := [7, 6, 5, 4, 3, 2, 1, 0]

/-- Least duration of settle delay 1 in milliseconds (R6). -/
def Config.settle1Min : Nat := 5

/-- Least duration of settle delay 2 in milliseconds (R6). -/
def Config.settle2Min : Nat := 120

/-- Payload bytes of the positive-gamma table (R6). -/
def Config.pgammaLen : Nat := 15

/-- One more than the largest timing count: `CW` = 16 bits (R6). -/
def Config.countBound : Nat := 2 ^ 16

/-- Number of layer slots (R6). -/
def Config.nLayers : Nat := 2

/-- Size in bytes of the framebuffer space: `ADDR_W` = 32 (R6, 20_memory.md R41). -/
def Config.fbBytes : Nat := 2 ^ 32

/-- Code of the only pixel format (R6). -/
def Config.pfRgb565 : BitVec 4 := 2

/-! ### Register selectors (30_encoding.md R71) -/

/-- The names of the register selectors. -/
inductive Sel where
  | unlock | gram | softReset | sleepIn | sleepOut | gamma | displayOff | displayOn | columnAddr
  | pageAddr | mac | pixelFormat | rgbInterface | frmctr1 | dfc | power1 | power2 | vcom1 | vcom2
  | powera | powerb | pgamma | ngamma | dtca | dtcb | powerSeq | gammaEn3 | interfaceCtl | prc
deriving DecidableEq, Repr, Inhabited

/-- Every selector name, in the order of R71's table. -/
def Sel.all : List Sel :=
  [.unlock, .gram, .softReset, .sleepIn, .sleepOut, .gamma, .displayOff, .displayOn, .columnAddr,
   .pageAddr, .mac, .pixelFormat, .rgbInterface, .frmctr1, .dfc, .power1, .power2, .vcom1, .vcom2,
   .powera, .powerb, .pgamma, .ngamma, .dtca, .dtcb, .powerSeq, .gammaEn3, .interfaceCtl, .prc]

/-- The selector values the source does not print: OPEN parameters (R71; the spec's decision D15). -/
structure Selectors where
  softReset : Byte
  sleepIn : Byte
  sleepOut : Byte
  gamma : Byte
  displayOff : Byte
  displayOn : Byte
  columnAddr : Byte
  pageAddr : Byte
  mac : Byte
  pixelFormat : Byte
  rgbInterface : Byte
  frmctr1 : Byte
  dfc : Byte
  power1 : Byte
  power2 : Byte
  vcom1 : Byte
  vcom2 : Byte
  powera : Byte
  powerb : Byte
  pgamma : Byte
  ngamma : Byte
  dtca : Byte
  dtcb : Byte
  powerSeq : Byte
  gammaEn3 : Byte
  interfaceCtl : Byte
  prc : Byte
deriving DecidableEq, Repr, Inhabited

/-- The byte of a selector: `SEL_UNLOCK` and `SEL_GRAM` are the source's, the others the parameter's (R71). -/
def Selectors.byte (t : Selectors) : Sel → Byte
  | .unlock => 0xCA
  | .gram => 0x2C
  | .softReset => t.softReset
  | .sleepIn => t.sleepIn
  | .sleepOut => t.sleepOut
  | .gamma => t.gamma
  | .displayOff => t.displayOff
  | .displayOn => t.displayOn
  | .columnAddr => t.columnAddr
  | .pageAddr => t.pageAddr
  | .mac => t.mac
  | .pixelFormat => t.pixelFormat
  | .rgbInterface => t.rgbInterface
  | .frmctr1 => t.frmctr1
  | .dfc => t.dfc
  | .power1 => t.power1
  | .power2 => t.power2
  | .vcom1 => t.vcom1
  | .vcom2 => t.vcom2
  | .powera => t.powera
  | .powerb => t.powerb
  | .pgamma => t.pgamma
  | .ngamma => t.ngamma
  | .dtca => t.dtca
  | .dtcb => t.dtcb
  | .powerSeq => t.powerSeq
  | .gammaEn3 => t.gammaEn3
  | .interfaceCtl => t.interfaceCtl
  | .prc => t.prc

/-! ### The initialization program's entries (41_sequencer_ops.md R112) -/

/-- Which of the two settle delays an entry asks for. -/
inductive SettleId where
  | first
  | second
deriving DecidableEq, Repr, Inhabited

/-- What one entry of the program does: a register selector with its payload, or a settle delay. -/
inductive InitOp where
  | reg (sel : Byte) (payload : List Byte)
  | settle (which : SettleId)
deriving DecidableEq, Repr, Inhabited

/-- One entry with the number, 1 to 12, of the stage it belongs to (R113). -/
structure RomEntry where
  stage : Nat
  op : InitOp
deriving DecidableEq, Repr, Inhabited

/-- The OPEN parameters of 00_scope.md R6, before any check. `xferTimeout = none` is the value `inf`. -/
structure RawParams where
  brDiv : Nat
  xferTimeout : Option Nat
  settle1 : Nat
  settle2 : Nat
  ngammaLen : Nat
  sel : Selectors
  program : List RomEntry
deriving DecidableEq, Repr, Inhabited

/-! ### What the outside world answers -/

/-- An answer of the transport oracle (40_framer_ops.md R89): done, or failed or stalled after `n` complete
clock pulses. -/
inductive XferAnswer where
  | done
  | fault (n : Fin 9)
  | stall (n : Fin 9)
deriving DecidableEq, Repr, Inhabited

/-- The two agents that take steps (10_state.md R10). -/
inductive Agent where
  | host
  | scanner
deriving DecidableEq, Repr, Inhabited

/-- FREE VALUE. The OPEN parameters as some implementation fixes them (log 2). -/
opaque Config.rawParams : RawParams

/-- FREE VALUE. The transport oracle's answer to the n-th transfer that no listed answer covers (R89, log 4). -/
opaque Config.transport : Nat → XferAnswer

/-- FREE VALUE. The level of MISO at the n-th sample (40_framer_ops.md R90, log 5). -/
opaque Config.misoLevel : Nat → Level

/-- FREE VALUE. The memory oracle: the byte at an address at a scan step (20_memory.md R52, log 6). -/
opaque Config.fbByte : Nat → Nat → Byte

/-- FREE VALUE. `PIX` while data enable is inactive, at a scan step (42_timing_generator.md R157, log 7). -/
opaque Config.idlePix : Nat → Colour

/-- FREE VALUE. How many free choices between the two agents go to the scanner before the n-th that goes to the host:
any number, but a finite one, which is the weak fairness of 70_reset_and_hazards.md R220 (93 U16, log 8). -/
opaque Config.patience : Nat → Nat

/-- FREE VALUE. `RXSR` after the n-th reset (10_state.md R13, 93 U14, log 3). -/
opaque Config.rxsrAtReset : Nat → Byte

/-- FREE VALUE. Bit 7 of `SPICFG`, which 10_state.md R15 does not name (log 27). -/
opaque Config.spicfgBit7 : Bool

/-- FREE VALUE. What the 8-bit field `BR` of `SPICFG` shows for a `BR_DIV` that does not fit it (10_state.md R15, log 19). -/
opaque Config.wideBrField : Nat → Byte

/-- FREE VALUE. `PIX` after the n-th reset (10_state.md R26, 93 U14, log 3). -/
opaque Config.pixAtReset : Nat → Colour

end Sys2Proof
end

