-- ==== Sys2Proof/Syntax.lean ====
section
/-! DEFINITION. The nine operations (00_scope.md R5), one constructor per row of spec/opcode_table.json. -/

namespace Sys2Proof

/-- The Timing Parameters as an operand of `TGCFG` (42_timing_generator.md R141): eight counts, "each a
natural that must fit `CW` = 16 bits", and four polarity flags. -/
structure TimingParams where
  hs : Nat
  hbp : Nat
  hfp : Nat
  aw : Nat
  vs : Nat
  vbp : Nat
  vfp : Nat
  ah : Nat
  hspol : Bool
  vspol : Bool
  depol : Bool
  pcpol : Bool
deriving DecidableEq, Repr, Inhabited

/-- The Layer Descriptor as an operand of `TGBIND` (R143). -/
structure LayerDesc where
  x : Word
  y : Word
  w : Word
  h : Word
  pf : BitVec 4
  dcol : BitVec 32
  fbaddr : BitVec 32
deriving DecidableEq, Repr, Inhabited

/-- The operations of the host. -/
inductive Instr where
  /-- `WRCMD sel` (40_framer_ops.md R82). -/
  | wrcmd (sel : Byte)
  /-- `WRDAT byte` (40_framer_ops.md R83). -/
  | wrdat (byte : Byte)
  /-- `DELAY ms` (41_sequencer_ops.md R110). -/
  | delay (ms : BitVec 12)
  /-- `INIT` (41_sequencer_ops.md R111). -/
  | init
  /-- `ON` (41_sequencer_ops.md R117). -/
  | on
  /-- `OFF` (41_sequencer_ops.md R119). -/
  | off
  /-- `TGCFG p, bg` (42_timing_generator.md R141). -/
  | tgcfg (p : TimingParams) (bg : Colour)
  /-- `TGBIND i, d` (42_timing_generator.md R143). -/
  | tgbind (i : BitVec 4) (d : LayerDesc)
  /-- `TGEN e` (42_timing_generator.md R145). -/
  | tgen (e : Bool)
deriving DecidableEq, Repr, Inhabited

end Sys2Proof
end

