-- ==== Sys2Proof/WellFormed.lean ====
section
/-! DEFINITION. Which terms are operations an operation word can spell. Every operand but the eight counts
has the width of its field by its type; a count is a natural and must fit `CW` = 16 bits
(42_timing_generator.md R141). -/

namespace Sys2Proof

/-- A count that fits its 16-bit field (00_scope.md R6, `CW`). -/
abbrev CountFits (n : Nat) : Prop := n < Config.countBound

/-- The eight counts in the source's order (10_state.md R21). -/
def TimingParams.counts (p : TimingParams) : List Nat :=
  [p.hs, p.hbp, p.hfp, p.aw, p.vs, p.vbp, p.vfp, p.ah]

/-- An operation that operation words can spell (30_encoding.md R61 to R66). -/
abbrev Instr.WellFormed (i : Instr) : Prop :=
  match i with
  | .wrcmd _ => True
  | .wrdat _ => True
  | .delay _ => True
  | .init => True
  | .on => True
  | .off => True
  | .tgcfg p _ => ∀ n ∈ p.counts, CountFits n
  | .tgbind _ _ => True
  | .tgen _ => True

end Sys2Proof
end

