-- ==== Sys2Proof/Decode.lean ====
section
/-! DEFINITION. Operation words (30_encoding.md R60 to R68): the decoder, total on any list of words and
rejecting by name, and the encoder, both written from the spec's format tables. -/

namespace Sys2Proof

/-- Why a word list is no operation (R68). `empty` is no error of the spec's: there is no head word. -/
inductive DecodeError where
  | empty
  | reservedMajor
  | truncated
  | zeroField
  | reservedFn
deriving DecidableEq, Repr

/-- What the decoder answers: an operation with its length in words, or a rejection. -/
inductive Decoded where
  | ok (i : Instr) (len : Nat)
  | illegal (e : DecodeError)
deriving DecidableEq, Repr

/-! ### Fields -/

/-- The field `w[hi:lo]` as the `n` bits from `lo` up (00_scope.md R7). -/
def Word.field (w : Word) (lo n : Nat) : BitVec n := w.extractLsb' lo n

/-- Bits 15:12, the major opcode (R60). -/
def Word.major (w : Word) : Nat := (w.field 12 4).toNat

/-- The length in words a major opcode gives (R60); a reserved one counts as 1. -/
def opLength : Nat → Nat
  | 4 => 11
  | 5 => 9
  | _ => 1

/-! ### The decoder, one format at a time -/

/-- Format B (R61): `zero` in 11:8, `imm8` in 7:0. -/
def decodeB (mk : Byte → Instr) (w0 : Word) : Decoded :=
  if w0.field 8 4 = 0 then .ok (mk (w0.field 0 8)) 1 else .illegal .zeroField

/-- Format T (R62): `ms12` in 11:0. -/
def decodeT (w0 : Word) : Decoded := .ok (.delay (w0.field 0 12)) 1

/-- Format S (R63): `zero` in 11:2, `fn` in 1:0. -/
def decodeS (w0 : Word) : Decoded :=
  if w0.field 2 10 = 0 then
    match (w0.field 0 2).toNat with
    | 0 => .ok .init 1
    | 1 => .ok .on 1
    | 2 => .ok .off 1
    | _ => .illegal .reservedFn
  else .illegal .zeroField

/-- Format C (R64): `zero` in word 0 bits 11:4 and word 9 bits 15:8; the operands as R67 assembles them. -/
def decodeC (w0 : Word) : List Word → Decoded
  | w1 :: w2 :: w3 :: w4 :: w5 :: w6 :: w7 :: w8 :: w9 :: w10 :: _ =>
    if w0.field 4 8 = 0 ∧ w9.field 8 8 = 0 then
      .ok (.tgcfg
        { hs := w1.toNat, hbp := w2.toNat, hfp := w3.toNat, aw := w4.toNat,
          vs := w5.toNat, vbp := w6.toNat, vfp := w7.toNat, ah := w8.toNat,
          hspol := w0.getLsbD 0, vspol := w0.getLsbD 1, depol := w0.getLsbD 2, pcpol := w0.getLsbD 3 }
        (w9.field 0 8 ++ w10)) 11
    else .illegal .zeroField
  | _ => .illegal .truncated

/-- Format L (R65): `pf` in 11:8, `zero` in 7:4, `idx` in 3:0; two-word operands more significant half first. -/
def decodeL (w0 : Word) : List Word → Decoded
  | w1 :: w2 :: w3 :: w4 :: w5 :: w6 :: w7 :: w8 :: _ =>
    if w0.field 4 4 = 0 then
      .ok (.tgbind (w0.field 0 4)
        { x := w1, y := w2, w := w3, h := w4, pf := w0.field 8 4,
          dcol := w5 ++ w6, fbaddr := w7 ++ w8 }) 9
    else .illegal .zeroField
  | _ => .illegal .truncated

/-- Format E (R66): `zero` in 11:1, `e` in bit 0. -/
def decodeE (w0 : Word) : Decoded :=
  if w0.field 1 11 = 0 then .ok (.tgen (w0.getLsbD 0)) 1 else .illegal .zeroField

/-- The decoder (R67): the head word's major opcode selects the format. -/
def decode : List Word → Decoded
  | [] => .illegal .empty
  | w0 :: rest =>
    match w0.major with
    | 0 => decodeB .wrcmd w0
    | 1 => decodeB .wrdat w0
    | 2 => decodeT w0
    | 3 => decodeS w0
    | 4 => decodeC w0 rest
    | 5 => decodeL w0 rest
    | 6 => decodeE w0
    | _ => .illegal .reservedMajor

/-! ### The encoder -/

/-- Bit 0 of a head word's flag field. -/
def flagBit (b : Bool) : BitVec 1 := if b then 1 else 0

/-- A count as its 16-bit word (R64); the identity on a count that fits. -/
def countWord (n : Nat) : Word := BitVec.ofNat 16 n

/-- The words of an operation (R61 to R66). -/
def encode : Instr → List Word
  | .wrcmd sel => [0x00#8 ++ sel]
  | .wrdat byte => [0x10#8 ++ byte]
  | .delay ms => [0x2#4 ++ ms]
  | .init => [0x3000]
  | .on => [0x3001]
  | .off => [0x3002]
  | .tgcfg p bg =>
    [0x400#12 ++ flagBit p.pcpol ++ flagBit p.depol ++ flagBit p.vspol ++ flagBit p.hspol,
     countWord p.hs, countWord p.hbp, countWord p.hfp, countWord p.aw,
     countWord p.vs, countWord p.vbp, countWord p.vfp, countWord p.ah,
     0x00#8 ++ bg.extractLsb' 16 8, bg.extractLsb' 0 16]
  | .tgbind i d =>
    [0x5#4 ++ d.pf ++ 0x0#4 ++ i, d.x, d.y, d.w, d.h,
     d.dcol.extractLsb' 16 16, d.dcol.extractLsb' 0 16,
     d.fbaddr.extractLsb' 16 16, d.fbaddr.extractLsb' 0 16]
  | .tgen e => [0x3000#15 ++ flagBit e]

/-- The length of an operation in words (R60, 10_state.md R16). -/
def Instr.words : Instr → Nat
  | .wrcmd _ => 1
  | .wrdat _ => 1
  | .delay _ => 1
  | .init => 1
  | .on => 1
  | .off => 1
  | .tgcfg _ _ => 11
  | .tgbind _ _ => 9
  | .tgen _ => 1

/-! ### The host's numbering of an instruction's bits -/

/-- The number of words of the longest operation. -/
def maxWords : Nat := 11

/-- `k` words of a number, the first from its least significant 16 bits. -/
def wordsOfNat : Nat → Nat → List Word
  | 0, _ => []
  | k + 1, w => BitVec.ofNat 16 w :: wordsOfNat k (w / 2 ^ 16)

/-- The longest operation's words of the instruction whose lowest `nbits` bits are `w`, bits above zero. -/
def tableWords (nbits w : Nat) : List Word := wordsOfNat maxWords (w % 2 ^ nbits)

/-- The instruction the decoder reads from an instruction whose bits are `w`, numbered as
spec/opcode_table.json numbers them (log 16). -/
def decodeTableWord (nbits w : Nat) : Option Instr :=
  match decode (tableWords nbits w) with
  | .ok i _ => some i
  | .illegal _ => none

end Sys2Proof
end

