-- ==== Sys2Proof/Machine/InitProgram.lean ====
section
/-! DEFINITION. Which values the OPEN parameters may take: the constraints on `INIT_PROGRAM`
(41_sequencer_ops.md R112 to R116), on the selectors (30_encoding.md R71) and on the durations
(00_scope.md R6). A program that breaks the stage order is ill-formed and no value of `Params`
holds it: that is the refusal R115 asks for. -/

namespace Sys2Proof.Machine

/-! ### The addressing window (30_encoding.md R70) -/

/-- A 16-bit coordinate as two Data Bytes, high byte first. -/
def coordBytes (n : Word) : List Byte := [n.extractLsb' 8 8, n.extractLsb' 0 8]

/-- The four Data Bytes of a window register: start 0, end `size - 1`. -/
def windowBytes (size : Nat) : List Byte := coordBytes 0 ++ coordBytes (BitVec.ofNat 16 (size - 1))

/-! ### The stages (41_sequencer_ops.md R113) -/

/-- The data bytes of the vendor-unlock entry (R114). -/
def unlockBytes : List Byte := [0xC3, 0x08, 0x50]

/-- The selectors each stage lists, in the order of the source's wording. -/
def stageSels : Nat → List Sel
  | 1 => [.unlock, .powerb, .powerSeq, .dtca, .dtcb, .powera, .prc]
  | 2 => [.frmctr1, .dfc]
  | 3 => [.power1, .power2, .vcom1, .vcom2]
  | 4 => [.mac, .gammaEn3]
  | 5 => [.rgbInterface, .dfc]
  | 6 => [.columnAddr, .pageAddr]
  | 7 => [.interfaceCtl]
  | 8 => [.gram]
  | 9 => [.gamma, .pgamma, .ngamma]
  | 10 => [.sleepOut]
  | 11 => [.displayOn]
  | 12 => [.gram]
  | _ => []

/-- The stage numbers of R113. -/
def stageNumbers : List Nat := [1, 2, 3, 4, 5, 6, 7, 8, 9, 10, 11, 12]

/-- What the entries of stage `k` do, in order. -/
def stageOps (program : List RomEntry) (k : Nat) : List InitOp :=
  (program.filter (fun e => e.stage == k)).map RomEntry.op

/-- The selectors of register entries; a settle entry has none. -/
def regSels : List InitOp → List Byte
  | [] => []
  | .reg sel _ :: rest => sel :: regSels rest
  | .settle _ :: rest => regSels rest

/-- Every entry selects a register. -/
def allRegs : List InitOp → Bool
  | [] => true
  | .reg _ _ :: rest => allRegs rest
  | .settle _ :: _ => false

/-- The registers R113's table names. -/
def listedSels : List Sel := stageNumbers.flatMap stageSels

/-- Stage `k` may hold this entry beside those R113 says it must hold: a register of any `u8` selector (R112; 93 U18)
that R113's table does not name. Two are held back: `SEL_RESET`, which the sequence "never sends"
(70_reset_and_hazards.md R210, R212), and `SEL_PIXEL_FORMAT` from stage 8 on, since "it would belong before stage 8"
(91_not_in_source.md N24). A settle entry is none, since "there are exactly two" (R116). Log 15. -/
def isExtra (t : Selectors) (k : Nat) : InitOp → Bool
  | .reg sel _ =>
    !(listedSels.map t.byte).contains sel && sel != t.byte .softReset &&
      (sel != t.byte .pixelFormat || decide (k < 8))
  | .settle _ => false

/-- The entries of stage `k` without the extra ones. -/
def listedOps (t : Selectors) (k : Nat) (ops : List InitOp) : List InitOp :=
  ops.filter fun op => !isExtra t k op

/-- Stages 1 to 5: one entry for each listed register, in any order (R112, 93 U18). -/
def stageInAnyOrder (t : Selectors) (program : List RomEntry) (k : Nat) : Bool :=
  allRegs (stageOps program k) &&
    (regSels (listedOps t k (stageOps program k))).isPerm ((stageSels k).map t.byte)

/-- Stage 6: the addressing window, exactly the panel's extent (R114). -/
def stage6Ok (t : Selectors) (program : List RomEntry) : Bool :=
  listedOps t 6 (stageOps program 6) ==
    [.reg (t.byte .columnAddr) (windowBytes Config.panelW), .reg (t.byte .pageAddr) (windowBytes Config.panelH)]

/-- Stage 7: the interface control register. -/
def stage7Ok (t : Selectors) (program : List RomEntry) : Bool :=
  allRegs (stageOps program 7) &&
    regSels (listedOps t 7 (stageOps program 7)) == (stageSels 7).map t.byte

/-- Stages 8 and 10: a select with no payload and its settle entry "directly after" it (R116). -/
def selectThenSettle (t : Selectors) (program : List RomEntry) (k : Nat) (sel : Sel) (w : SettleId) : Bool :=
  match (stageOps program k).dropWhile (isExtra t k) with
  | select :: settle :: rest =>
    select == .reg (t.byte sel) [] && settle == .settle w && rest.all (isExtra t k)
  | _ => false

/-- Stage 9: gamma selection, the positive table and the negative table with their lengths. -/
def stage9Ok (t : Selectors) (ngammaLen : Nat) (program : List RomEntry) : Bool :=
  match listedOps t 9 (stageOps program 9) with
  | [.reg a _, .reg b p, .reg c n] =>
    a == t.byte .gamma && b == t.byte .pgamma && c == t.byte .ngamma &&
      p.length == Config.pgammaLen && n.length == ngammaLen
  | _ => false

/-- Stages 11 and 12: one select with no payload. -/
def stageSelectOnly (t : Selectors) (program : List RomEntry) (k : Nat) (sel : Sel) : Bool :=
  listedOps t k (stageOps program k) == [.reg (t.byte sel) []]

/-- The program's last entry is the GRAM select with no payload (R114). -/
def lastIsGram (t : Selectors) (program : List RomEntry) : Bool :=
  program.getLast? == some ⟨12, .reg (t.byte .gram) []⟩

/-- The stages occur in fixed order (R113, R115). -/
def stagesInOrder (program : List RomEntry) : Bool :=
  program.all (fun e => stageNumbers.contains e.stage) &&
    decide ((program.map RomEntry.stage).Pairwise (· ≤ ·))

/-- The program's first entry is the vendor unlock (R114). -/
def firstIsUnlock (t : Selectors) (program : List RomEntry) : Bool :=
  program.head? == some ⟨1, .reg (t.byte .unlock) unlockBytes⟩

/-- The constraints R112 to R116 put on `INIT_PROGRAM`. -/
def programOk (t : Selectors) (ngammaLen : Nat) (program : List RomEntry) : Bool :=
  stagesInOrder program && firstIsUnlock t program &&
    [1, 2, 3, 4, 5].all (stageInAnyOrder t program) &&
    stage6Ok t program && stage7Ok t program && selectThenSettle t program 8 .gram .first &&
    stage9Ok t ngammaLen program && selectThenSettle t program 10 .sleepOut .second &&
    stageSelectOnly t program 11 .displayOn && stageSelectOnly t program 12 .gram && lastIsGram t program

/-- Distinct selectors have distinct values: "one-to-one" (30_encoding.md R71). -/
def selectorsOk (t : Selectors) : Bool := decide (Sel.all.map t.byte).Nodup

/-- `BR_DIV` is an even natural of at least 2 (00_scope.md R6). -/
def brDivOk (d : Nat) : Bool := decide (2 ≤ d) && d % 2 == 0

/-- The values R6 admits for the OPEN parameters. DESIGN CHOICE: the settle durations have R6's minimum and no upper
bound, though R116 executes them "as `DELAY`", whose operand has 12 bits (60_exceptions.md R198; log 28). -/
def paramsOk (r : RawParams) : Bool :=
  brDivOk r.brDiv && decide (Config.settle1Min ≤ r.settle1) && decide (Config.settle2Min ≤ r.settle2) &&
    selectorsOk r.sel && programOk r.sel r.ngammaLen r.program

/-- Parameters that R6, R71 and R112 to R116 admit. -/
structure Params where
  raw : RawParams
  ok : paramsOk raw = true
deriving DecidableEq, Repr

/-! ### One admissible value (41_sequencer_ops.md R118, log 20) -/

/-- The usual selector values (30_encoding.md R71, last column). PRESUMED: general knowledge, not the source's. -/
def usualSelectors : Selectors where
  softReset := 0x01
  sleepIn := 0x10
  sleepOut := 0x11
  gamma := 0x26
  displayOff := 0x28
  displayOn := 0x29
  columnAddr := 0x2A
  pageAddr := 0x2B
  mac := 0x36
  pixelFormat := 0x3A
  rgbInterface := 0xB0
  frmctr1 := 0xB1
  dfc := 0xB6
  power1 := 0xC0
  power2 := 0xC1
  vcom1 := 0xC5
  vcom2 := 0xC7
  powera := 0xCB
  powerb := 0xCF
  pgamma := 0xE0
  ngamma := 0xE1
  dtca := 0xE8
  dtcb := 0xEA
  powerSeq := 0xED
  gammaEn3 := 0xF2
  interfaceCtl := 0xF6
  prc := 0xF7

/-- Stages 1 to 7 of the candidate table. -/
def candidateSetup : List RomEntry :=
  [⟨1, .reg 0xCA [0xC3, 0x08, 0x50]⟩, ⟨1, .reg 0xCF [0x00, 0xC1, 0x30]⟩,
   ⟨1, .reg 0xED [0x64, 0x03, 0x12, 0x81]⟩, ⟨1, .reg 0xE8 [0x85, 0x00, 0x78]⟩,
   ⟨1, .reg 0xCB [0x39, 0x2C, 0x00, 0x34, 0x02]⟩, ⟨1, .reg 0xF7 [0x20]⟩, ⟨1, .reg 0xEA [0x00, 0x00]⟩,
   ⟨2, .reg 0xB1 [0x00, 0x1B]⟩, ⟨2, .reg 0xB6 [0x0A, 0xA2]⟩,
   ⟨3, .reg 0xC0 [0x10]⟩, ⟨3, .reg 0xC1 [0x10]⟩, ⟨3, .reg 0xC5 [0x45, 0x15]⟩, ⟨3, .reg 0xC7 [0x90]⟩,
   ⟨4, .reg 0x36 [0xC8]⟩, ⟨4, .reg 0xF2 [0x00]⟩,
   ⟨5, .reg 0xB0 [0xC2]⟩, ⟨5, .reg 0xB6 [0x0A, 0xA7, 0x27, 0x04]⟩,
   ⟨6, .reg 0x2A [0x00, 0x00, 0x00, 0xEF]⟩, ⟨6, .reg 0x2B [0x00, 0x00, 0x01, 0x3F]⟩,
   ⟨7, .reg 0xF6 [0x01, 0x00, 0x06]⟩]

/-- Stages 8 to 12 of the candidate table. -/
def candidateStart : List RomEntry :=
  [⟨8, .reg 0x2C []⟩, ⟨8, .settle .first⟩,
   ⟨9, .reg 0x26 [0x01]⟩,
   ⟨9, .reg 0xE0 [0x0F, 0x29, 0x24, 0x0C, 0x0E, 0x09, 0x4E, 0x78, 0x3C, 0x09, 0x13, 0x05, 0x17, 0x11, 0x00]⟩,
   ⟨9, .reg 0xE1 [0x00, 0x16, 0x1B, 0x04, 0x11, 0x07, 0x31, 0x33, 0x42, 0x05, 0x0C, 0x0A, 0x28, 0x2F, 0x0F]⟩,
   ⟨10, .reg 0x11 []⟩, ⟨10, .settle .second⟩,
   ⟨11, .reg 0x29 []⟩, ⟨12, .reg 0x2C []⟩]

/-- The candidate of R118 as a parameter value. PRESUMED, and never the source's: it shows that an admissible
value exists and serves the model's tests. -/
def candidateRaw : RawParams where
  brDiv := 16
  xferTimeout := none
  settle1 := Config.settle1Min
  settle2 := Config.settle2Min
  ngammaLen := 15
  sel := usualSelectors
  program := candidateSetup ++ candidateStart

theorem candidateRaw_ok : paramsOk candidateRaw = true := by decide +kernel

/-- The candidate of R118. -/
def candidate : Params := ⟨candidateRaw, candidateRaw_ok⟩

/-- The hardware's OPEN parameters: the free value where R6 admits it, so that nothing is known of them
except that they are admissible (log 2). -/
def hardwareParams : Params :=
  if h : paramsOk Config.rawParams = true then ⟨Config.rawParams, h⟩ else candidate

end Sys2Proof.Machine
end

