-- ==== Sys2Proof/Machine/State.lean ====
section
/-! DEFINITION. The state of the machine as plain data: the four records of 10_state.md R10 (`fr`, `sq`,
`tg`, `gh`), the three traces (00_scope.md R9), the immutable operation stream and parameters (10_state.md
R28), the framebuffer space (20_memory.md R40) and the draws of the outside world (the model's own). -/

namespace Sys2Proof.Machine

/-! ### The framer (10_state.md R12 to R14) -/

/-- Position in the micro-step sequence of 40_framer_ops.md R84 (R14). -/
inductive Phase where
  | idle
  | dcSet
  | csLow
  | bitSetup
  | bitSample
  | csHigh
deriving DecidableEq, Repr

/-- Tag of a transaction: command or data (R14). -/
inductive Kind where
  | cmd
  | dat
deriving DecidableEq, Repr

/-- Record FR: the SPI pins, the shift datapath and the framer's control. -/
structure Framer where
  dc : Level
  cs : Level
  sck : Level
  mosi : Level
  txsr : Byte
  rxsr : Byte
  bitcnt : BitVec 4
  phase : Phase
  kind : Kind
deriving DecidableEq, Repr

/-! ### The sequencer and the host (10_state.md R16 to R18) -/

/-- Record SQ: the host's operation pointer, the sequencer's state and the fault registers. -/
structure Sequencer where
  pc : Nat
  inited : Bool
  idx : Nat
  flt : BitVec 4
  finfo : BitVec 32
deriving DecidableEq, Repr

/-! ### The timing generator (10_state.md R20 to R26) -/

/-- One layer slot (R24). -/
structure Layer where
  bound : Bool
  x : Word
  y : Word
  w : Word
  h : Word
  pf : BitVec 4
  dcol : BitVec 32
  fbaddr : BitVec 32
deriving DecidableEq, Repr

/-- The configuration part of record TG: written by the host, read by the scanner (R20 to R24). -/
structure TgConf where
  configured : Bool
  en : Bool
  hs : Word
  hbp : Word
  hfp : Word
  aw : Word
  vs : Word
  vbp : Word
  vfp : Word
  ah : Word
  hspol : Bool
  vspol : Bool
  depol : Bool
  pcpol : Bool
  bgc : Colour
  layer0 : Layer
  layer1 : Layer
deriving DecidableEq, Repr

/-- The scan counters and the video pins (R25, R26). -/
structure TgScan where
  hcnt : BitVec 18
  vcnt : BitVec 18
  hsync : Level
  vsync : Level
  de : Level
  pclk : Level
  pix : Colour
deriving DecidableEq, Repr

/-- Record TG. -/
structure TimingGen where
  conf : TgConf
  scan : TgScan
deriving DecidableEq, Repr

/-! ### The ghost state (10_state.md R29) -/

/-- The Panel State: no hardware of this block holds it and no operation reads it. -/
inductive PanelState where
  | reset
  | extendedRegisterUnlocked
  | powerBiasConfigured
  | addressingConfigured
  | gammaConfigured
  | sleepOut
  | displayOn
  | gramWriteArmed
deriving DecidableEq, Repr

/-! ### The traces (00_scope.md R8, R9) -/

/-- An entry of `txn`: a complete transaction or a settle period. -/
inductive TxnEntry where
  | txn (kind : Kind) (byte : Byte)
  | settle (ms : Nat)
deriving DecidableEq, Repr

/-- An entry of `wire`: the levels of the four output pins after one pin write. -/
structure WireTuple where
  dc : Level
  cs : Level
  sck : Level
  mosi : Level
deriving DecidableEq, Repr

/-- An entry of `video`: one sample per pixel clock. -/
structure Vid where
  hsync : Level
  vsync : Level
  de : Level
  pclkPol : Bool
  pix : Colour
deriving DecidableEq, Repr

/-- The three traces, oldest entry first. Observations: no rule reads them (log 13). -/
structure Traces where
  txn : List TxnEntry
  wire : List WireTuple
  video : List Vid
deriving DecidableEq, Repr

/-! ### The framebuffer space (20_memory.md R40, R41, R52) -/

/-- Bytes of `FB` known to the platform: (address, byte) pairs in strictly rising order of address. A byte
that is not listed has no value here and the memory oracle answers for it (log 6). -/
abbrev Memory := List Host.Cell

/-! ### The outside world (the model's own, logs 4 to 9) -/

/-- What may come next: a turn of an agent, a reset pulse, or an outside write of the pixel with halfword
index `n`, that is of byte addresses `2 * n` and `2 * n + 1`. -/
inductive SchedEntry where
  | agent (a : Agent)
  | reset
  | fbWrite (n : BitVec 31) (pixel : Word)
deriving DecidableEq, Repr

/-- The outside world's draws still to come, and the arguments of the free values. `scansSince` counts the free choices
the scanner has had since the host's last one (log 8). -/
structure Env where
  sched : List SchedEntry
  answers : List XferAnswer
  turnDraws : Nat
  scansSince : Nat
  xferDraws : Nat
  misoDraws : Nat
  scanDraws : Nat
  resets : Nat
deriving DecidableEq, Repr

/-! ### The whole state -/

/-- The state of the machine. -/
structure State where
  fr : Framer
  sq : Sequencer
  tg : TimingGen
  gh : PanelState
  obs : Traces
  ops : List Word
  par : Params
  fb : Memory
  env : Env
deriving DecidableEq, Repr

/-! ### How a step can stop -/

/-- Why no step exists. The hardware's own faults are states (`FLT`), not these (log 10). -/
inductive Fault where
  /-- Raised by `step` and by every meaning: `FLT` is set, so the host has no step (60_exceptions.md R193,
  R194), and the scanner is off. Safe: the machine stops where the hardware stops. -/
  | hostFaulted
  /-- Raised by `step` and by every meaning: the host is inside a stalled transaction for ever
  (60_exceptions.md R201). Safe: stuck, never stepped past. -/
  | hostHung
  /-- Raised by `step`: every operation has completed and the scanner is off, the end of the run
  (70_reset_and_hazards.md R221). Safe: the final state has no step. -/
  | streamEnded
  /-- Raised by the scan step: a pixel read at an address outside `FB` (20_memory.md R41). No state that
  keeps the bind checks does it. Safe: the machine stops where the spec has no such byte. -/
  | fbOutsideSpace
deriving DecidableEq, Repr

/-- Why an instruction has no meaning. -/
inductive Refusal where
  /-- Raised by `exec` for an instruction that has no meaning yet; no arm does. Safe: nothing is claimed. -/
  | notModelled (mnemonic : String)
deriving DecidableEq, Repr

/-! ### Reset (70_reset_and_hazards.md R211, 10_state.md R12 to R26) -/

/-- `FR` after the `n`-th reset. -/
def Framer.afterReset (n : Nat) : Framer where
  dc := Config.dcDataLevel
  cs := !Config.csAssertLevel
  sck := false
  mosi := false
  txsr := 0
  rxsr := Config.rxsrAtReset n
  bitcnt := 0
  phase := .idle
  kind := .dat

/-- `SQ` after a reset. -/
def Sequencer.afterReset : Sequencer where
  pc := 0
  inited := false
  idx := 0
  flt := 0
  finfo := 0

/-- A layer slot after a reset. -/
def Layer.afterReset : Layer where
  bound := false
  x := 0
  y := 0
  w := 0
  h := 0
  pf := 0
  dcol := 0
  fbaddr := 0

/-- The configuration part of `TG` after a reset. -/
def TgConf.afterReset : TgConf where
  configured := false
  en := false
  hs := 0
  hbp := 0
  hfp := 0
  aw := 0
  vs := 0
  vbp := 0
  vfp := 0
  ah := 0
  hspol := false
  vspol := false
  depol := false
  pcpol := false
  bgc := 0
  layer0 := Layer.afterReset
  layer1 := Layer.afterReset

/-- The scan part of `TG` after the `n`-th reset. -/
def TgScan.afterReset (n : Nat) : TgScan where
  hcnt := 0
  vcnt := 0
  hsync := true
  vsync := true
  de := true
  pclk := false
  pix := Config.pixAtReset n

/-- The state a reset leaves. The immutable stream and parameters, the framebuffer's contents and the outside
world's draws are not the hardware's and stay (logs 1, 2, 6, 9). -/
def State.afterReset (ops : List Word) (par : Params) (fb : Memory) (env : Env) : State where
  fr := Framer.afterReset env.resets
  sq := Sequencer.afterReset
  tg := { conf := TgConf.afterReset, scan := TgScan.afterReset env.resets }
  gh := .reset
  obs := { txn := [], wire := [], video := [] }
  ops := ops
  par := par
  fb := fb
  env := env

/-- The outside world before anything is known of it. DESIGN CHOICE: nothing listed (logs 4 to 9). -/
def Env.start : Env where
  sched := []
  answers := []
  turnDraws := 0
  scansSince := 0
  xferDraws := 0
  misoDraws := 0
  scanDraws := 0
  resets := 0

/-- The machine right after reset: no operation stream loaded (log 1), the hardware's parameters (log 2). -/
def State.reset : State := State.afterReset [] hardwareParams [] Env.start

end Sys2Proof.Machine
end

