-- ==== Sys2Proof/Machine/Flags.lean ====
section
/-! DEFINITION. Status flags (10_state.md R19), the fault codes (60_exceptions.md R181), pin levels from
polarity flags (42_timing_generator.md R147) and the quantities derived from the registers (10_state.md
R15, R27). The hardware has no arithmetic condition codes. -/

namespace Sys2Proof.Machine

/-! ### Fault codes (60_exceptions.md R181) -/

/-- The hardware's faults. -/
inductive HwFault where
  | transportFault
  | transportTimeout
  | illegalOp
  | panelNotInitialised
  | panelAlreadyInitialised
  | tgNotConfigured
  | tgAlreadyConfigured
  | tgBadParam
  | tgLayerBusy
deriving DecidableEq, Repr

/-- The code `FLT` takes. -/
def HwFault.code : HwFault → BitVec 4
  | .transportFault => 1
  | .transportTimeout => 2
  | .illegalOp => 3
  | .panelNotInitialised => 4
  | .panelAlreadyInitialised => 5
  | .tgNotConfigured => 6
  | .tgAlreadyConfigured => 7
  | .tgBadParam => 8
  | .tgLayerBusy => 9

/-! ### Status (10_state.md R19) -/

/-- `FAULTED = (FLT != 0)`. -/
def State.faulted (s : State) : Bool := s.sq.flt != 0

/-- The framer is between transactions (40_framer_ops.md R88). -/
def State.idle (s : State) : Bool := s.fr.phase == .idle

/-- The host may begin an operation: no fault, no open transaction. -/
def State.canRun (s : State) : Bool := !s.faulted && s.idle

/-- The host has a further step: it may begin an operation and the stream has not ended (R16). -/
def State.hostReady (s : State) : Bool := s.canRun && decide (s.sq.pc < s.ops.length)

/-- The scanner has a step exactly when `EN` = 1 (42_timing_generator.md R150). -/
def State.scannerReady (s : State) : Bool := s.tg.conf.en

/-- Why the host has no step. -/
def State.stopReason (s : State) : Fault :=
  if s.faulted then .hostFaulted else if s.idle then .streamEnded else .hostHung

/-! ### The bound layer (10_state.md R24) -/

/-- The index of the bound slot; the lower one if both were bound, which no reachable state has (log 17). -/
def TgConf.boundSlot (c : TgConf) : Option Nat :=
  if c.layer0.bound then some 0 else if c.layer1.bound then some 1 else none

/-- The bound layer. -/
def TgConf.boundLayer (c : TgConf) : Option Layer :=
  if c.layer0.bound then some c.layer0 else if c.layer1.bound then some c.layer1 else none

/-! ### Pin levels (42_timing_generator.md R147) -/

/-- `level(act, pol)`: the polarity flag while active, its complement otherwise. -/
def pinLevel (act : Bool) (pol : Bool) : Level := if act then pol else !pol

/-! ### Derived quantities (10_state.md R27), in unbounded naturals -/

/-- `HTOTAL`. -/
def TgConf.htotal (c : TgConf) : Nat := c.hs.toNat + c.hbp.toNat + c.aw.toNat + c.hfp.toNat

/-- `VTOTAL`. -/
def TgConf.vtotal (c : TgConf) : Nat := c.vs.toNat + c.vbp.toNat + c.ah.toNat + c.vfp.toNat

/-- `HSTART`. -/
def TgConf.hstart (c : TgConf) : Nat := c.hs.toNat + c.hbp.toNat

/-- `VSTART`. -/
def TgConf.vstart (c : TgConf) : Nat := c.vs.toNat + c.vbp.toNat

/-! ### The bus configuration (10_state.md R15) -/

/-- The field `BR`: `BR_DIV` where it fits the field's 8 bits. R15 states no field for a larger one: a free value
(log 19). -/
def brField (d : Nat) : Byte := if d < 2 ^ 8 then BitVec.ofNat 8 d else Config.wideBrField d

/-- Bit 7 of `SPICFG`. DESIGN CHOICE: R15 names no field there, so it is a free value (log 27). -/
def spicfgBit7 : BitVec 1 := BitVec.ofBool Config.spicfgBit7

/-- `SPICFG`: `BR` in 15:8, the bit R15 does not name (log 27), then LSBFIRST 0, SSM 1, CPHA 0, CPOL 0, DFF 0, DUPLEX 1,
MSTR 1. -/
def State.spicfg (s : State) : BitVec 16 := brField s.par.raw.brDiv ++ spicfgBit7 ++ 0b0100011#7

/-! ### The registers by index (10_state.md R15 to R24) -/

/-- Field `k` of a layer slot as a number. -/
def Layer.field (l : Layer) : Nat → Option Nat
  | 0 => some (Level.toNat l.bound)
  | 1 => some l.x.toNat
  | 2 => some l.y.toNat
  | 3 => some l.w.toNat
  | 4 => some l.h.toNat
  | 5 => some l.pf.toNat
  | 6 => some l.dcol.toNat
  | 7 => some l.fbaddr.toNat
  | _ => none

/-- The register an index names, as a number; for an observer, since no operation reads one (R202). -/
def State.register (s : State) : Nat → Option Nat
  | 0 => some s.spicfg.toNat
  | 1 => some s.sq.pc
  | 2 => some (Level.toNat s.sq.inited)
  | 3 => some s.sq.idx
  | 4 => some s.sq.flt.toNat
  | 5 => some s.sq.finfo.toNat
  | 6 => some (Level.toNat s.tg.conf.configured)
  | 7 => some (Level.toNat s.tg.conf.en)
  | 8 => some s.tg.conf.hs.toNat
  | 9 => some s.tg.conf.hbp.toNat
  | 10 => some s.tg.conf.hfp.toNat
  | 11 => some s.tg.conf.aw.toNat
  | 12 => some s.tg.conf.vs.toNat
  | 13 => some s.tg.conf.vbp.toNat
  | 14 => some s.tg.conf.vfp.toNat
  | 15 => some s.tg.conf.ah.toNat
  | 16 => some (Level.toNat s.tg.conf.hspol)
  | 17 => some (Level.toNat s.tg.conf.vspol)
  | 18 => some (Level.toNat s.tg.conf.depol)
  | 19 => some (Level.toNat s.tg.conf.pcpol)
  | 20 => some s.tg.conf.bgc.toNat
  | n => if 32 ≤ n ∧ n < 40 then s.tg.conf.layer0.field (n - 32)
         else if 40 ≤ n ∧ n < 48 then s.tg.conf.layer1.field (n - 40) else none

end Sys2Proof.Machine
end

