-- ==== Sys2Proof/Machine/Operands.lean ====
section
/-! DEFINITION. Operand checks and operand forms: the checks of `TGCFG` (42_timing_generator.md R142) and
`TGBIND` (R144), the registers they fill (R141, R143), the information words of faults (60_exceptions.md
R181), and the pixel formats (42_timing_generator.md R154, R156). All sums and products are over naturals. -/

namespace Sys2Proof.Machine

/-! ### TGCFG (42_timing_generator.md R141, R142) -/

/-- The index of the first number of a list that does not fit 16 bits, the list's first having index `k`. -/
def firstTooLarge : Nat → List Nat → Option Nat
  | _, [] => none
  | k, n :: rest => if n < Config.countBound then firstTooLarge (k + 1) rest else some k

/-- The register index of the first count that R142 rejects. -/
def timingError (p : TimingParams) : Option Nat :=
  match firstTooLarge 8 p.counts with
  | some k => some k
  | none =>
    if p.hs = 0 then some 8
    else if p.aw = 0 then some 11
    else if p.vs = 0 then some 12
    else if p.ah = 0 then some 15
    else none

/-- The configuration registers after an accepted `TGCFG` (R141). -/
def TgConf.withTiming (c : TgConf) (p : TimingParams) (bg : Colour) : TgConf :=
  { c with
    hs := BitVec.ofNat 16 p.hs, hbp := BitVec.ofNat 16 p.hbp, hfp := BitVec.ofNat 16 p.hfp
    aw := BitVec.ofNat 16 p.aw, vs := BitVec.ofNat 16 p.vs, vbp := BitVec.ofNat 16 p.vbp
    vfp := BitVec.ofNat 16 p.vfp, ah := BitVec.ofNat 16 p.ah
    hspol := p.hspol, vspol := p.vspol, depol := p.depol, pcpol := p.pcpol
    bgc := bg, configured := true }

/-- The timing tuple this panel requires, `PANEL_TIMING` (00_scope.md R6, 42_timing_generator.md R159). -/
def panelTiming : TimingParams where
  hs := 10
  hbp := 20
  hfp := 10
  aw := 240
  vs := 2
  vbp := 2
  vfp := 4
  ah := 320
  hspol := false
  vspol := false
  depol := false
  pcpol := false

/-! ### TGBIND (42_timing_generator.md R143, R144) -/

/-- The register index of field `k` of slot `i` (10_state.md R24). -/
def layerIndex (i : Nat) (k : Nat) : Nat := 32 + 8 * i + k

/-- Checks 3 to 10 of R144: the field of the descriptor that is at fault. -/
def descriptorError (c : TgConf) (d : LayerDesc) : Option Nat :=
  if d.pf ≠ Config.pfRgb565 then some 5
  else if d.w.toNat = 0 then some 3
  else if d.h.toNat = 0 then some 4
  else if ¬ (d.x.toNat + d.w.toNat ≤ c.aw.toNat) then some 1
  else if ¬ (d.y.toNat + d.h.toNat ≤ c.ah.toNat) then some 2
  else if ¬ (d.dcol.extractLsb' 24 8 = 0x00 ∨ d.dcol.extractLsb' 24 8 = 0xFF) then some 6
  else if d.fbaddr.getLsbD 0 then some 7
  else if ¬ (d.fbaddr.toNat + 2 * d.w.toNat * d.h.toNat ≤ Config.fbBytes) then some 7
  else none

/-- The checks of R144 in order: the fault and its information word. -/
def bindError (c : TgConf) (i : BitVec 4) (d : LayerDesc) : Option (HwFault × Nat) :=
  if ¬ (i.toNat < Config.nLayers) then some (.tgBadParam, 0x100 + i.toNat)
  else
    match c.boundSlot with
    | some j => some (.tgLayerBusy, j)
    | none =>
      match descriptorError c d with
      | some k => some (.tgBadParam, layerIndex i.toNat k)
      | none => none

/-- A descriptor as the contents of a bound slot. -/
def layerOf (d : LayerDesc) : Layer where
  bound := true
  x := d.x
  y := d.y
  w := d.w
  h := d.h
  pf := d.pf
  dcol := d.dcol
  fbaddr := d.fbaddr

/-- The configuration registers after an accepted `TGBIND` of slot `i` (R143). -/
def TgConf.withLayer (c : TgConf) (i : BitVec 4) (l : Layer) : TgConf :=
  if i = 0 then { c with layer0 := l } else { c with layer1 := l }

/-! ### Information words (60_exceptions.md R181) -/

/-- Bit 12 of a transport fault's information word: 0 for a command, 1 for data. -/
def Kind.bit : Kind → BitVec 1
  | .cmd => 0
  | .dat => 1

/-- `{kind, n[3:0], byte[7:0]}`, zero-extended. -/
def xferInfo (k : Kind) (n : Fin 9) (b : Byte) : BitVec 32 :=
  (k.bit ++ BitVec.ofNat 4 n.val ++ b).setWidth 32

/-- `0x200 + e`, the information word of `TGEN` (42_timing_generator.md R145). -/
def tgenInfo (e : Bool) : Nat := 0x200 + Level.toNat e

/-! ### Transactions (40_framer_ops.md R81, 30_encoding.md R69) -/

/-- The level of DC for a kind. -/
def Kind.dcLevel : Kind → Level
  | .cmd => Config.dcCmdLevel
  | .dat => Config.dcDataLevel

/-! ### Pixels (20_memory.md R42, 42_timing_generator.md R154, R156) -/

/-- A 16-bit pixel from its two bytes, the byte at the lower address less significant (R42). -/
def pixelOfBytes (lo hi : Byte) : Word := hi ++ lo

/-- A 5-bit channel widened to 8 bits by repeating its most significant bits. -/
def expand5 (c : BitVec 5) : Byte := c ++ c.extractLsb' 2 3

/-- A 6-bit channel widened to 8 bits by repeating its most significant bits. -/
def expand6 (c : BitVec 6) : Byte := c ++ c.extractLsb' 4 2

/-- `EXPAND565` (R156): red in bits 15:11, green in 10:5, blue in 4:0 (R154). -/
def expand565 (p : Word) : Colour :=
  expand5 (p.extractLsb' 11 5) ++ expand6 (p.extractLsb' 5 6) ++ expand5 (p.extractLsb' 0 5)

end Sys2Proof.Machine
end

