-- ==== Sys2Proof/Machine/Ops.lean ====
section
/-! DEFINITION. The named operations every meaning is made of: pin writes and traces (00_scope.md R8), the
answers of the outside world, taking a fault (60_exceptions.md R193), one transaction (40_framer_ops.md R84),
a settle period (41_sequencer_ops.md R110), and the bytes of the framebuffer (20_memory.md R42, R52). -/

namespace Sys2Proof.Machine

/-- What a step answers. -/
abbrev StepOutcome := Host.Outcome State Fault Refusal

/-! ### Pin writes and traces (00_scope.md R8) -/

/-- `emit_wire()`: append the levels of the four output pins. -/
def State.emitWire (s : State) : State :=
  { s with obs.wire := s.obs.wire ++ [⟨s.fr.dc, s.fr.cs, s.fr.sck, s.fr.mosi⟩] }

/-- `emit_txn(e)`. -/
def State.emitTxn (e : TxnEntry) (s : State) : State := { s with obs.txn := s.obs.txn ++ [e] }

/-- `emit_video(e)`. -/
def State.emitVideo (e : Vid) (s : State) : State := { s with obs.video := s.obs.video ++ [e] }

/-- `pin.DC <- l`. -/
def State.writeDc (l : Level) (s : State) : State := { s with fr.dc := l }.emitWire

/-- `pin.CS <- l`. -/
def State.writeCs (l : Level) (s : State) : State := { s with fr.cs := l }.emitWire

/-- `pin.SCK <- l`. -/
def State.writeSck (l : Level) (s : State) : State := { s with fr.sck := l }.emitWire

/-- `pin.MOSI <- l`. -/
def State.writeMosi (l : Level) (s : State) : State := { s with fr.mosi := l }.emitWire

/-- `st.PHASE <- p`. -/
def State.setPhase (p : Phase) (s : State) : State := { s with fr.phase := p }

/-! ### The operation pointer (10_state.md R16) -/

/-- `pc <- pc + n`. -/
def State.advance (n : Nat) (s : State) : State := { s with sq.pc := s.sq.pc + n }

/-! ### Taking a fault (60_exceptions.md R193) -/

/-- `raise F(info)`: `FLT` and `FINFO` are written and nothing else changes. There is no return from it (R194). -/
def State.raise (f : HwFault) (info : BitVec 32) (s : State) : State :=
  { s with sq.flt := f.code, sq.finfo := info }

/-! ### The host's guard -/

/-- The first line of every operation, "if st.FLT != 0: no step", and the entry condition of
40_framer_ops.md R84: a host inside a stalled transaction has no step either (60_exceptions.md R201). -/
def whenHostRuns (s : State) (k : State → State) : StepOutcome :=
  if s.faulted then .fault .hostFaulted
  else if s.idle then .next (k s)
  else .fault .hostHung

/-! ### The answers of the outside world -/

/-- The answer to the next transfer: the first listed one, else a free value (40_framer_ops.md R89, log 4). -/
def Env.nextAnswer (e : Env) : XferAnswer :=
  match e.answers with
  | a :: _ => a
  | [] => Config.transport e.xferDraws

/-- The outside world once the next transfer's answer has been taken. -/
def Env.takeAnswer (e : Env) : Env :=
  match e.answers with
  | _ :: rest => { e with answers := rest }
  | [] => { e with xferDraws := e.xferDraws + 1 }

/-- `transport(b)`: the answer is `s.env.nextAnswer`; the draw is used up. -/
def State.takeAnswer (s : State) : State := { s with env := s.env.takeAnswer }

/-- `v[i] <- l` on a byte. -/
def setBit (v : Byte) (i : Nat) (l : Level) : Byte :=
  if l then v ||| (1#8 <<< i) else v &&& ~~~(1#8 <<< i)

/-- `st.RXSR[i] <- pin.MISO` (40_framer_ops.md R90): MISO has any level (log 5). -/
def State.sampleMiso (i : Nat) (s : State) : State :=
  { s with
    fr.rxsr := setBit s.fr.rxsr i (Config.misoLevel s.env.misoDraws)
    env.misoDraws := s.env.misoDraws + 1 }

/-! ### One transaction (40_framer_ops.md R84) -/

/-- A sequence of micro-steps either ran to its end or stopped the host where it stands. -/
inductive Progress where
  | completed (s : State)
  | stopped (s : State)
deriving DecidableEq, Repr

/-- Go on from a completed part; a stopped one stays as it is. -/
def Progress.andThen (p : Progress) (k : State → Progress) : Progress :=
  match p with
  | .completed s => k s
  | .stopped s => .stopped s

/-- The end of an operation: a completed one changes the state once more, a stopped one not at all. -/
def Progress.finish (p : Progress) (k : State → State) : State :=
  match p with
  | .completed s => k s
  | .stopped s => s

/-- Load the datapath, set DC, assert CS. -/
def beginFrame (k : Kind) (b : Byte) (s : State) : State :=
  (({ s with fr.kind := k, fr.txsr := b, fr.bitcnt := 8 }.setPhase .dcSet).writeDc k.dcLevel
    |>.setPhase .csLow).writeCs Config.csAssertLevel

/-- Bit `i`: MOSI while SCK is low, SCK up with the MISO sample, SCK down. -/
def pulse (b : Byte) (s : State) (i : Nat) : State :=
  let up := ((s.setPhase .bitSetup).writeMosi (b.getLsbD i)).setPhase .bitSample
  let down := ({ up with fr.sck := true }.sampleMiso i).emitWire.writeSck false
  { down with fr.bitcnt := BitVec.ofNat 4 i }

/-- The first `n` bits of the byte, in the bit order of the bus. -/
def sendBits (b : Byte) (n : Nat) (s : State) : State := (Config.bitOrder.take n).foldl (pulse b) s

/-- Deassert CS and record the transaction. -/
def endFrame (k : Kind) (b : Byte) (s : State) : State :=
  (((s.setPhase .csHigh).writeCs (!Config.csAssertLevel)).setPhase .idle).emitTxn (.txn k b)

/-- A stall after `n` pulses: a hang where `XFER_TIMEOUT` is `inf`, else `TransportTimeout`
(60_exceptions.md R183, R201). -/
def stallAt (k : Kind) (n : Fin 9) (b : Byte) (s : State) : State :=
  match s.par.raw.xferTimeout with
  | none => s
  | some _ => s.raise .transportTimeout (xferInfo k n b)

/-- `transaction(k, b)`. -/
def transaction (k : Kind) (b : Byte) (s : State) : Progress :=
  let t := (beginFrame k b s).takeAnswer
  match s.env.nextAnswer with
  | .done => .completed (endFrame k b (sendBits b 8 t))
  | .fault n => .stopped ((sendBits b n.val t).raise .transportFault (xferInfo k n b))
  | .stall n => .stopped (stallAt k n b (sendBits b n.val t))

/-- The transactions of a payload, one per byte: no batching (40_framer_ops.md R87). -/
def sendPayload : List Byte → State → Progress
  | [], s => .completed s
  | b :: bs, s => (transaction .dat b s).andThen (sendPayload bs)

/-- `wait_at_least(ms)`: no clock, only the entry in `txn` (41_sequencer_ops.md R110). -/
def waitAtLeast (ms : Nat) (s : State) : State := s.emitTxn (.settle ms)

/-! ### The framebuffer space (20_memory.md R40 to R44, R52) -/

/-- The byte the platform lists at an address; `none` for an unlisted one. -/
def Memory.byte? : Memory → Nat → Option Byte
  | [], _ => none
  | (k, v) :: rest, a => if a = k then some v else Memory.byte? rest a

/-- Write one byte, keeping the addresses in rising order. -/
def Memory.write : Memory → Nat → Byte → Memory
  | [], a, v => [(a, v)]
  | (k, w) :: rest, a, v =>
    if a < k then (a, v) :: (k, w) :: rest
    else if a = k then (a, v) :: rest
    else (k, w) :: Memory.write rest a v

/-- Every address is above `lo`, and they rise strictly from there. -/
def Memory.risesFrom : Nat → Memory → Bool
  | _, [] => true
  | lo, (k, _) :: rest => decide (lo ≤ k) && Memory.risesFrom (k + 1) rest

/-- The canonical form: addresses strictly rising and inside `FB`. An unlisted address has no value, so no
entry can equal what it reads as. -/
def Memory.wf (m : Memory) : Bool :=
  Memory.risesFrom 0 m && m.all (fun c => decide (c.1 < Config.fbBytes))

/-- A byte of `FB` at a scan step: the listed one, or the memory oracle's (R52). -/
def fbRead (m : Memory) (step : Nat) (a : Nat) : Byte :=
  match m.byte? a with
  | some v => v
  | none => Config.fbByte a step

/-- `MemRead(addr, 2)`: one 16-bit little-endian read, both bytes at one instant (R42, R44); `none` where the
space has no such bytes (R41). -/
def memRead16 (m : Memory) (step : Nat) (a : Nat) : Option Word :=
  if a + 1 < Config.fbBytes then some (pixelOfBytes (fbRead m step a) (fbRead m step (a + 1))) else none

/-- An outside write of the pixel with halfword index `n` (R52): both bytes in one event. -/
def Memory.writePixel (m : Memory) (n : BitVec 31) (v : Word) : Memory :=
  (m.write (2 * n.toNat) (v.extractLsb' 0 8)).write (2 * n.toNat + 1) (v.extractLsb' 8 8)

/-! ### Fetch (30_encoding.md R67) -/

/-- The words of the stream from `pc` on. -/
def State.fetch (s : State) : List Word := s.ops.drop s.sq.pc

end Sys2Proof.Machine
end

