-- ==== Sys2Proof/Machine/Framer.lean ====
section
/-! DEFINITION. The framer's operations `WRCMD` and `WRDAT` (40_framer_ops.md R82, R83). -/

namespace Sys2Proof.Machine

/-- `WRCMD sel` (R82): one command transaction. -/
def execWrcmd (sel : Byte) (s : State) : StepOutcome :=
  whenHostRuns s fun s => (transaction .cmd sel s).finish (State.advance 1)

/-- `WRDAT byte` (R83): one data transaction. -/
def execWrdat (byte : Byte) (s : State) : StepOutcome :=
  whenHostRuns s fun s => (transaction .dat byte s).finish (State.advance 1)

end Sys2Proof.Machine
end

