-- ==== Sys2Proof/Machine/Sequencer.lean ====
section
/-! DEFINITION. The sequencer's operations `DELAY`, `INIT`, `ON` and `OFF` (41_sequencer_ops.md). -/

namespace Sys2Proof.Machine

/-- `DELAY ms` (R110). -/
def execDelay (ms : BitVec 12) (s : State) : StepOutcome :=
  whenHostRuns s fun s => (waitAtLeast ms.toNat s).advance 1

/-! ### INIT (R111) -/

/-- The duration an entry's settle delay asks for (R116). -/
def settleMs (r : RawParams) : SettleId → Nat
  | .first => r.settle1
  | .second => r.settle2

/-- One entry of the program: a register select with its payload, or a settle delay (R111). -/
def runInitOp (op : InitOp) (s : State) : Progress :=
  match op with
  | .reg sel payload => (transaction .cmd sel s).andThen (sendPayload payload)
  | .settle w => .completed (waitAtLeast (settleMs s.par.raw w) s)

/-- The Panel State once the last entry of a stage has been executed (R120). -/
def panelAfterStage (gh : PanelState) : Nat → PanelState
  | 1 => .extendedRegisterUnlocked
  | 5 => .powerBiasConfigured
  | 8 => .addressingConfigured
  | 9 => .gammaConfigured
  | 10 => .sleepOut
  | 11 => .displayOn
  | 12 => .gramWriteArmed
  | _ => gh

/-- `advance GH.PANEL`, when the entry just executed is the last of its stage. -/
def advancePanel (e : RomEntry) (rest : List RomEntry) (s : State) : State :=
  if rest.head?.map RomEntry.stage = some e.stage then s else { s with gh := panelAfterStage s.gh e.stage }

/-- `st.IDX <- st.IDX + 1`. -/
def nextEntry (s : State) : State := { s with sq.idx := s.sq.idx + 1 }

/-- The loop of R111 over the entries still to come. -/
def runProgram : List RomEntry → State → Progress
  | [], s => .completed s
  | e :: rest, s =>
    (runInitOp e.op s).andThen fun t => runProgram rest (nextEntry (advancePanel e rest t))

/-- `st.IDX <- 0 ; st.INITED <- 1`. -/
def endInit (s : State) : State := { s with sq.idx := 0, sq.inited := true }

/-- `INIT` (R111). -/
def execInit (s : State) : StepOutcome :=
  whenHostRuns s fun s =>
    if s.sq.inited then s.raise .panelAlreadyInitialised 0
    else (runProgram s.par.raw.program { s with sq.idx := 0 }).finish (fun t => (endInit t).advance 1)

/-! ### ON and OFF (R117, R119) -/

/-- One payload-less select that needs a completed `INIT`. -/
def displaySelect (sel : Sel) (info : BitVec 32) (s : State) : State :=
  if s.sq.inited then (transaction .cmd (s.par.raw.sel.byte sel) s).finish (State.advance 1)
  else s.raise .panelNotInitialised info

/-- `ON` (R117). -/
def execOn (s : State) : StepOutcome := whenHostRuns s (displaySelect .displayOn 1)

/-- `OFF` (R119). -/
def execOff (s : State) : StepOutcome := whenHostRuns s (displaySelect .displayOff 2)

end Sys2Proof.Machine
end

