-- ==== Sys2Proof/Machine/TimingGen.lean ====
section
/-! DEFINITION. The timing generator's operations `TGCFG`, `TGBIND` and `TGEN` (42_timing_generator.md). -/

namespace Sys2Proof.Machine

/-- The sync and enable pins at their inactive levels (R141, R145). -/
def TgScan.inactive (p : TgScan) (hspol vspol depol : Bool) : TgScan :=
  { p with hsync := !hspol, vsync := !vspol, de := !depol }

/-- An accepted `TGCFG`: the registers as given, the pins inactive, `CONFIGURED` set (R141). -/
def configure (p : TimingParams) (bg : Colour) (s : State) : State :=
  { s with
    tg.conf := s.tg.conf.withTiming p bg
    tg.scan := s.tg.scan.inactive p.hspol p.vspol p.depol }

/-- `TGCFG p, bg` (R141, checks R142). -/
def execTgcfg (p : TimingParams) (bg : Colour) (s : State) : StepOutcome :=
  whenHostRuns s fun s =>
    if s.tg.conf.configured then s.raise .tgAlreadyConfigured 0
    else
      match timingError p with
      | some k => s.raise .tgBadParam (BitVec.ofNat 32 k)
      | none => (configure p bg s).advance 11

/-- `TGBIND i, d` (R143, checks R144). -/
def execTgbind (i : BitVec 4) (d : LayerDesc) (s : State) : StepOutcome :=
  whenHostRuns s fun s =>
    if s.tg.conf.configured then
      match bindError s.tg.conf i d with
      | some (f, k) => s.raise f (BitVec.ofNat 32 k)
      | none => { s with tg.conf := s.tg.conf.withLayer i (layerOf d) }.advance 9
    else s.raise .tgNotConfigured (BitVec.ofNat 32 i.toNat)

/-- `EN <- 1` from 0: a new frame at (0, 0) (R145). -/
def startScan (s : State) : State :=
  { s with tg.conf.en := true, tg.scan.hcnt := 0, tg.scan.vcnt := 0 }

/-- `EN <- 0` from 1: the counters cleared, the pins inactive (R145). -/
def stopScan (s : State) : State :=
  { s with
    tg.conf.en := false
    tg.scan := { s.tg.scan.inactive s.tg.conf.hspol s.tg.conf.vspol s.tg.conf.depol with hcnt := 0, vcnt := 0 } }

/-- The effect of `TGEN e` on an enabled or disabled output: none where nothing changes (R145). -/
def setEnable (e : Bool) (s : State) : State :=
  match e, s.tg.conf.en with
  | true, false => startScan s
  | false, true => stopScan s
  | true, true => s
  | false, false => s

/-- `TGEN e` (R145). -/
def execTgen (e : Bool) (s : State) : StepOutcome :=
  whenHostRuns s fun s =>
    if s.tg.conf.configured then (setEnable e s).advance 1
    else s.raise .tgNotConfigured (BitVec.ofNat 32 (tgenInfo e))

end Sys2Proof.Machine
end

