-- ==== Sys2Proof/Machine/Dispatch.lean ====
section
/-! DEFINITION. The meaning of each operation, one arm per row of spec/opcode_table.json. -/

namespace Sys2Proof.Machine

def exec (i : Instr) (s : State) : Host.Outcome State Fault Refusal :=
  match i with
  | .wrcmd sel => Sys2Proof.Machine.execWrcmd sel s
  | .wrdat byte => Sys2Proof.Machine.execWrdat byte s
  | .delay ms => Sys2Proof.Machine.execDelay ms s
  | .init => Sys2Proof.Machine.execInit s
  | .on => Sys2Proof.Machine.execOn s
  | .off => Sys2Proof.Machine.execOff s
  | .tgcfg p bg => Sys2Proof.Machine.execTgcfg p bg s
  | .tgbind k d => Sys2Proof.Machine.execTgbind k d s
  | .tgen e => Sys2Proof.Machine.execTgen e s

end Sys2Proof.Machine
end

