-- ==== Sys2Proof/Machine/Scan.lean ====
section
/-! DEFINITION. The scanner: one step per pixel clock (42_timing_generator.md R146 to R157). -/

namespace Sys2Proof.Machine

/-! ### Regions (R146) -/

/-- `hs_act`. -/
def TgConf.hsAct (c : TgConf) (h : Nat) : Bool := decide (h < c.hs.toNat)

/-- `vs_act`. -/
def TgConf.vsAct (c : TgConf) (v : Nat) : Bool := decide (v < c.vs.toNat)

/-- `de_act` (R148). -/
def TgConf.deAct (c : TgConf) (h v : Nat) : Bool :=
  decide (c.hstart ≤ h ∧ h < c.hstart + c.aw.toNat ∧ c.vstart ≤ v ∧ v < c.vstart + c.ah.toNat)

/-! ### Pixels (R152, R153) -/

/-- The active coordinates (x, y) lie inside the layer's window. -/
def Layer.covers (l : Layer) (x y : Nat) : Bool :=
  decide (l.x.toNat ≤ x ∧ x < l.x.toNat + l.w.toNat ∧ l.y.toNat ≤ y ∧ y < l.y.toNat + l.h.toNat)

/-- The byte address of pixel (cx, cy) of the layer's region: packed lines, top-left first (R153). -/
def Layer.pixelAddr (l : Layer) (cx cy : Nat) : Nat := l.fbaddr.toNat + 2 * (cy * l.w.toNat + cx)

/-- The colour outside the layer's window: an opaque layer colour, else the background (R152, R155). -/
def borderColour (c : TgConf) : Colour :=
  match c.boundLayer with
  | some l => if l.dcol.extractLsb' 24 8 = 0xFF then l.dcol.extractLsb' 0 24 else c.bgc
  | none => c.bgc

/-- `pixel(x, y)` (R152); `none` where the fetch's address does not exist. -/
def activePixel (s : State) (x y : Nat) : Option Colour :=
  match s.tg.conf.boundLayer with
  | some l =>
    if l.covers x y then
      (memRead16 s.fb s.env.scanDraws (l.pixelAddr (x - l.x.toNat) (y - l.y.toNat))).map expand565
    else some (borderColour s.tg.conf)
  | none => some (borderColour s.tg.conf)

/-- `PIX` of this step: the pixel in the active region, any value outside it (R157). -/
def scanPixel (s : State) (h v : Nat) : Option Colour :=
  if s.tg.conf.deAct h v then activePixel s (h - s.tg.conf.hstart) (v - s.tg.conf.vstart)
  else some (Config.idlePix s.env.scanDraws)

/-! ### The step (R150) -/

/-- Drive the pins and record the sample. -/
def drivePins (h v : Nat) (pix : Colour) (s : State) : State :=
  let c := s.tg.conf
  let hsync := pinLevel (c.hsAct h) c.hspol
  let vsync := pinLevel (c.vsAct v) c.vspol
  let de := pinLevel (c.deAct h v) c.depol
  { s with tg.scan := { s.tg.scan with hsync := hsync, vsync := vsync, de := de, pix := pix } }.emitVideo
    ⟨hsync, vsync, de, c.pcpol, pix⟩

/-- Counter advance (R151). -/
def nextPosition (c : TgConf) (h v : Nat) : Nat × Nat :=
  if h + 1 < c.htotal then (h + 1, v)
  else (0, if v + 1 < c.vtotal then v + 1 else 0)

/-- Set the counters to a position. -/
def State.setPosition (p : Nat × Nat) (s : State) : State :=
  { s with tg.scan.hcnt := BitVec.ofNat 18 p.1, tg.scan.vcnt := BitVec.ofNat 18 p.2 }

/-- The next scan step takes fresh draws. -/
def State.countScan (s : State) : State := { s with env.scanDraws := s.env.scanDraws + 1 }

/-- One pixel clock (R150). It does not depend on `FLT` (60_exceptions.md R200). -/
def scanStep (s : State) : StepOutcome :=
  let h := s.tg.scan.hcnt.toNat
  let v := s.tg.scan.vcnt.toNat
  match scanPixel s h v with
  | some pix => .next ((drivePins h v pix s).setPosition (nextPosition s.tg.conf h v)).countScan
  | none => .fault .fbOutsideSpace

end Sys2Proof.Machine
end

