-- ==== Sys2Proof/Machine/Agents.lean ====
section
/-! DEFINITION. Who moves: the host's step, the scanner's step, and the events from outside (10_state.md
R10, 70_reset_and_hazards.md R210). -/

namespace Sys2Proof.Machine

/-- The information word of `IllegalOp`: the head word, zero-extended (30_encoding.md R68). -/
def headInfo : List Word → BitVec 32
  | [] => 0
  | w0 :: _ => w0.setWidth 32

/-- A host step: fetch and decode at `pc`, then the operation; an illegal word takes `IllegalOp` before any
other state changes (30_encoding.md R67, R68). -/
def hostStep (s : State) : StepOutcome :=
  match decode s.fetch with
  | .ok i _ => exec i s
  | .illegal _ => whenHostRuns s (State.raise .illegalOp (headInfo s.fetch))

/-- An agent has a step. -/
def State.ready (s : State) : Agent → Bool
  | .host => s.hostReady
  | .scanner => s.scannerReady

/-- The other agent. -/
def otherAgent : Agent → Agent
  | .host => .scanner
  | .scanner => .host

/-- The agent that moves when the turn is `a`'s: `a`, or the other where `a` has no step (log 8). -/
def State.mover (s : State) (a : Agent) : Option Agent :=
  if s.ready a then some a else if s.ready (otherAgent a) then some (otherAgent a) else none

/-- One step when the turn is `a`'s. -/
def agentStep (a : Agent) (s : State) : StepOutcome :=
  match s.mover a with
  | some .host => hostStep s
  | some .scanner => scanStep s
  | none => .fault s.stopReason

/-- The schedule without its first entry. -/
def State.dropSched (s : State) : State := { s with env.sched := s.env.sched.tail }

/-- A free choice goes to the scanner. -/
def State.scannerChosen (s : State) : State := { s with env.scansSince := s.env.scansSince + 1 }

/-- A free choice goes to the host. -/
def State.hostChosen (s : State) : State :=
  { s with env := { s.env with turnDraws := s.env.turnDraws + 1, scansSince := 0 } }

/-- A step with nothing scheduled: the one agent that has a step, or a free choice between the two. Any finite number
of choices goes to the scanner between two that go to the host, and the host has finitely many operations, so each
eventually steps (70_reset_and_hazards.md R220, log 8). -/
def freeStep (s : State) : StepOutcome :=
  if s.hostReady && s.scannerReady then
    if s.env.scansSince < Config.patience s.env.turnDraws then agentStep .scanner s.scannerChosen
    else agentStep .host s.hostChosen
  else agentStep .host s

/-- A reset pulse (70_reset_and_hazards.md R210, R211): a new run begins with empty traces (log 9). -/
def resetPulse (s : State) : State :=
  State.afterReset s.ops s.par s.fb { s.env with resets := s.env.resets + 1 }

/-- An outside write of a pixel (20_memory.md R52). -/
def outsideWrite (n : BitVec 31) (v : Word) (s : State) : State := { s with fb := s.fb.writePixel n v }

/-- One step of the machine. -/
def machineStep (s : State) : StepOutcome :=
  match s.env.sched with
  | [] => freeStep s
  | .agent a :: _ => agentStep a s.dropSched
  | .reset :: _ => .next (resetPulse s.dropSched)
  | .fbWrite n v :: _ => .next (outsideWrite n v s.dropSched)

/-! ### Placing an instruction where the next step fetches it -/

/-- A stream with `ws` from index `pc` on, padded with zero words below it where it is shorter. -/
def placeWords (ops : List Word) (pc : Nat) (ws : List Word) : List Word :=
  ops.take pc ++ List.replicate (pc - ops.length) 0 ++ ws ++ ops.drop (pc + ws.length)

/-- The turn given to the host where something else could come first. -/
def State.giveTurn (s : State) : State :=
  if s.scannerReady || !s.env.sched.isEmpty then { s with env.sched := .agent .host :: s.env.sched } else s

end Sys2Proof.Machine
end

