-- ==== Sys2Proof/Machine/Step.lean ====
section
/-! DEFINITION. One step of the machine, and the load of an instruction where the next step runs it. -/

namespace Sys2Proof.Machine

/-- One step of the machine. -/
def step (s : State) : Host.Outcome State Fault Refusal := machineStep s

/-- `s` with the instruction whose bits are `w` stored in the operation stream at `pc` (log 1), and the turn
given to the host where the scanner or an outside event could come first. -/
def State.withFetchWord (s : State) (nbits w : Nat) : State :=
  { s with ops := placeWords s.ops s.sq.pc (tableWords nbits w) }.giveTurn

end Sys2Proof.Machine
end

