-- ==== Sys2Proof/Machine/Assembly.lean ====
section
/-! DEFINITION. The spec's assembly: how an operation is spelled and how a line is read (30_encoding.md R72), and the
two pseudo-operations, which expand at assembly time (R73). The machine never sees either. -/

namespace Sys2Proof.Machine

/-- A number as the assembly spells it: decimal. -/
def asmNum (n : Nat) : String := toString n

/-- A flag as the assembly spells it. -/
def asmFlag (b : Bool) : String := asmNum (Level.toNat b)

/-- Operands separated by commas. -/
def asmOperands : List String → String
  | [] => ""
  | [a] => a
  | a :: rest => a ++ ", " ++ asmOperands rest

/-- One operation on one line: mnemonic, then operands (R72). -/
def asmLine (mnemonic : String) (operands : List String) : String :=
  if operands.isEmpty then mnemonic else mnemonic ++ " " ++ asmOperands operands

/-- The spelling of an operation (R72). -/
def asm : Instr → String
  | .wrcmd sel => asmLine "WRCMD" [asmNum sel.toNat]
  | .wrdat b => asmLine "WRDAT" [asmNum b.toNat]
  | .delay ms => asmLine "DELAY" [asmNum ms.toNat]
  | .init => asmLine "INIT" []
  | .on => asmLine "ON" []
  | .off => asmLine "OFF" []
  | .tgcfg p bg =>
    asmLine "TGCFG" (p.counts.map asmNum ++
      [asmFlag p.hspol, asmFlag p.vspol, asmFlag p.depol, asmFlag p.pcpol, asmNum bg.toNat])
  | .tgbind i d =>
    asmLine "TGBIND" [asmNum i.toNat, asmNum d.x.toNat, asmNum d.y.toNat, asmNum d.w.toNat, asmNum d.h.toNat,
      asmNum d.pf.toNat, asmNum d.dcol.toNat, asmNum d.fbaddr.toNat]
  | .tgen e => asmLine "TGEN" [asmFlag e]

/-- `REGWRITE sel, b0, b1, ...` (R73). -/
def regWrite (sel : Byte) (payload : List Byte) : List Instr := .wrcmd sel :: payload.map .wrdat

/-- `SETWINDOW w, h` (R73). -/
def setWindow (t : Selectors) (w h : Nat) : List Instr :=
  regWrite (t.byte .columnAddr) (windowBytes w) ++ regWrite (t.byte .pageAddr) (windowBytes h)

/-- The operation words of a list of operations. -/
def assemble (is : List Instr) : List Word := is.flatMap encode

/-! ### Reading a line (30_encoding.md R72, R73) -/

/-- Characters between tokens. -/
def isBlank (c : Char) : Bool := c == ' ' || c == '\t' || c == '\r'

/-- A token without the blanks around it. -/
def trimBlanks (cs : List Char) : List Char := ((cs.dropWhile isBlank).reverse.dropWhile isBlank).reverse

/-- The value of a digit. -/
def digitValue (c : Char) : Option Nat :=
  let n := c.toNat
  if 48 ≤ n ∧ n ≤ 57 then some (n - 48)
  else if 97 ≤ n ∧ n ≤ 102 then some (n - 87)
  else if 65 ≤ n ∧ n ≤ 70 then some (n - 55)
  else none

/-- Digits of a base after the value read so far. -/
def readDigits (base : Nat) : Nat → List Char → Option Nat
  | acc, [] => some acc
  | acc, c :: cs =>
    match digitValue c with
    | some d => if d < base then readDigits base (base * acc + d) cs else none
    | none => none

/-- A number in decimal or `0x` hexadecimal. -/
def readNumber : List Char → Option Nat
  | [] => none
  | ['0', 'x'] => none
  | '0' :: 'x' :: ds => readDigits 16 0 ds
  | ds => readDigits 10 0 ds

/-- The parts of a text between the occurrences of a character. -/
def splitAtChar (sep : Char) : List Char → List (List Char)
  | [] => [[]]
  | c :: cs =>
    if c = sep then [] :: splitAtChar sep cs
    else
      match splitAtChar sep cs with
      | [] => [[c]]
      | w :: ws => (c :: w) :: ws

/-- Every number of a list, or none. -/
def readNumbers : List (List Char) → Option (List Nat)
  | [] => some []
  | w :: ws => (readNumber (trimBlanks w)).bind fun n => (readNumbers ws).map (n :: ·)

/-- A number that fits `k` bits. -/
def fitNumber (k n : Nat) : Option (BitVec k) := if n < 2 ^ k then some (BitVec.ofNat k n) else none

/-- Numbers that fit a byte each. -/
def fitBytes : List Nat → Option (List Byte)
  | [] => some []
  | n :: ns => (fitNumber 8 n).bind fun b => (fitBytes ns).map (b :: ·)

/-- `TGCFG` from its thirteen operands. -/
def asmTgcfg : List Nat → Option Instr
  | [hs, hbp, hfp, aw, vs, vbp, vfp, ah, hspol, vspol, depol, pcpol, bg] =>
    let p : TimingParams := ⟨hs, hbp, hfp, aw, vs, vbp, vfp, ah, hspol == 1, vspol == 1, depol == 1, pcpol == 1⟩
    if p.counts.all (· < Config.countBound) && [hspol, vspol, depol, pcpol].all (· < 2) then
      (fitNumber 24 bg).map (Instr.tgcfg p)
    else none
  | _ => none

/-- `TGBIND` from its eight operands. -/
def asmTgbind : List Nat → Option Instr
  | [i, x, y, w, h, pf, dcol, fbaddr] => do
    let i ← fitNumber 4 i
    let x ← fitNumber 16 x
    let y ← fitNumber 16 y
    let w ← fitNumber 16 w
    let h ← fitNumber 16 h
    let pf ← fitNumber 4 pf
    let dcol ← fitNumber 32 dcol
    let fbaddr ← fitNumber 32 fbaddr
    some (.tgbind i ⟨x, y, w, h, pf, dcol, fbaddr⟩)
  | _ => none

/-- The operations a mnemonic with its operands stands for: one, or the expansion of a pseudo-operation. -/
def asmOperation (t : Selectors) (name : List Char) (args : List Nat) : Option (List Instr) :=
  if name = ['W', 'R', 'C', 'M', 'D'] then
    match args with
    | [n] => (fitNumber 8 n).map fun b => [.wrcmd b]
    | _ => none
  else if name = ['W', 'R', 'D', 'A', 'T'] then
    match args with
    | [n] => (fitNumber 8 n).map fun b => [.wrdat b]
    | _ => none
  else if name = ['D', 'E', 'L', 'A', 'Y'] then
    match args with
    | [n] => (fitNumber 12 n).map fun ms => [.delay ms]
    | _ => none
  else if name = ['I', 'N', 'I', 'T'] then if args = [] then some [.init] else none
  else if name = ['O', 'N'] then if args = [] then some [.on] else none
  else if name = ['O', 'F', 'F'] then if args = [] then some [.off] else none
  else if name = ['T', 'G', 'C', 'F', 'G'] then (asmTgcfg args).map (fun i => [i])
  else if name = ['T', 'G', 'B', 'I', 'N', 'D'] then (asmTgbind args).map (fun i => [i])
  else if name = ['T', 'G', 'E', 'N'] then
    match args with
    | [e] => if e < 2 then some [.tgen (e == 1)] else none
    | _ => none
  else if name = ['R', 'E', 'G', 'W', 'R', 'I', 'T', 'E'] then
    match args with
    | sel :: bytes => (fitNumber 8 sel).bind fun s => (fitBytes bytes).map (regWrite s)
    | [] => none
  else if name = ['S', 'E', 'T', 'W', 'I', 'N', 'D', 'O', 'W'] then
    match args with
    | [w, h] => if 1 ≤ w ∧ w ≤ 2 ^ 16 ∧ 1 ≤ h ∧ h ≤ 2 ^ 16 then some (setWindow t w h) else none
    | _ => none
  else none

/-- One line: mnemonic, then operands separated by commas; `;` starts a comment; a line without a mnemonic is no
operation. -/
def readLine (t : Selectors) (line : List Char) : Option (List Instr) :=
  let text := trimBlanks (line.takeWhile (· ≠ ';'))
  let name := text.takeWhile (fun c => !isBlank c)
  let operands := trimBlanks (text.dropWhile (fun c => !isBlank c))
  if name = [] then some []
  else if operands = [] then asmOperation t name []
  else (readNumbers (splitAtChar ',' operands)).bind (asmOperation t name)

/-- The lines of a program, in order. -/
def readLines (t : Selectors) : List (List Char) → Option (List Instr)
  | [] => some []
  | l :: ls => (readLine t l).bind fun a => (readLines t ls).map (a ++ ·)

/-- A program text. -/
def readProgram (t : Selectors) (text : String) : Option (List Instr) :=
  readLines t (splitAtChar '\n' text.toList)

end Sys2Proof.Machine
end

