-- ==== Sys2Proof/Machine/Wire.lean ====
section
/-! DEFINITION. What the panel sees: the decode of the wire (40_framer_ops.md R91). An observer of the
traces; no step calls it. -/

namespace Sys2Proof.Machine

/-- One transaction as the panel sees it. -/
abbrev WireTxn := Kind × Byte

/-- An open CS window: the level of DC at its start and the bits sampled so far. -/
structure Window where
  dc : Level
  bits : List Bool
deriving DecidableEq, Repr

/-- The decoder's variables. -/
structure WireScan where
  out : List WireTxn
  win : Option Window
  prev : WireTuple
deriving DecidableEq, Repr

/-- Before the first tuple: the reset tuple. -/
def WireScan.start : WireScan where
  out := []
  win := none
  prev := { dc := true, cs := true, sck := false, mosi := false }

/-- `bits[0]*128 + ... + bits[7]`. -/
def byteOfBits (bits : List Bool) : Byte :=
  BitVec.ofNat 8 (bits.foldl (fun n b => 2 * n + (if b then 1 else 0)) 0)

/-- The kind a DC level stands for. -/
def kindOfDc (dc : Level) : Kind := if dc = Config.dcCmdLevel then .cmd else .dat

/-- The bits after a tuple: one more on a rising edge of SCK. -/
def sampleBits (bits : List Bool) (prev t : WireTuple) : List Bool :=
  if prev.sck = false ∧ t.sck = true then bits ++ [t.mosi] else bits

/-- One tuple; `none` is `Malformed`. -/
def WireScan.feed (d : WireScan) (t : WireTuple) : Option WireScan :=
  match d.win with
  | none =>
    if d.prev.cs = true ∧ t.cs = false then some { d with win := some ⟨t.dc, []⟩, prev := t }
    else some { d with prev := t }
  | some w =>
    if t.dc ≠ w.dc then none
    else
      let bits := sampleBits w.bits d.prev t
      if d.prev.cs = false ∧ t.cs = true then
        if bits.length = 8 then
          some { out := d.out ++ [(kindOfDc w.dc, byteOfBits bits)], win := none, prev := t }
        else none
      else some { d with win := some ⟨w.dc, bits⟩, prev := t }

/-- The tuples in order. -/
def WireScan.feedAll : List WireTuple → WireScan → Option WireScan
  | [], d => some d
  | t :: ts, d => (d.feed t).bind (WireScan.feedAll ts)

/-- `decode_wire(wire)`: the finished transactions, or `none` for `Malformed`. -/
def decodeWire (wire : List WireTuple) : Option (List WireTxn) :=
  (WireScan.feedAll wire WireScan.start).map WireScan.out

/-- `txn` with its `Settle` entries removed. -/
def wireTxns : List TxnEntry → List WireTxn
  | [] => []
  | .txn k b :: rest => (k, b) :: wireTxns rest
  | .settle _ :: rest => wireTxns rest

end Sys2Proof.Machine
end

