-- ==== Sys2Proof/Safety.lean ====
section
/-! DEFINITION. The terms claims are stated in: what one transaction and one run of `INIT_PROGRAM` leave on
the wire and in the registers, the premises the spec names (92, "Named premises"), and the invariants that
hold in every reachable state. -/

namespace Sys2Proof.Machine

/-! ### When the host may run -/

/-- No fault and no open transaction. -/
structure HostRuns (s : State) : Prop where
  noFault : s.sq.flt = 0
  idle : s.fr.phase = .idle

/-- The entry condition of a transaction, "which always holds between operations" (40_framer_ops.md R84, R88). -/
structure FramerIdle (f : Framer) : Prop where
  phase : f.phase = .idle
  bitcnt : f.bitcnt = 0
  cs : f.cs = !Config.csAssertLevel
  sck : f.sck = false

/-- `TransportOk` for the next `n` transfers: every draw is `Done` (40_framer_ops.md R89). -/
def Env.allDone : Nat → Env → Prop
  | 0, _ => True
  | n + 1, e => e.nextAnswer = .done ∧ Env.allDone n e.takeAnswer

/-- The outside world after `n` transfers have been answered. -/
def Env.afterAnswers : Nat → Env → Env
  | 0, e => e
  | n + 1, e => Env.afterAnswers n e.takeAnswer

/-! ### One transaction on the wire (30_encoding.md R69, 40_framer_ops.md R84) -/

/-- The three tuples of one bit at level `m`. -/
def bitTuples (dc m : Level) : List WireTuple :=
  [⟨dc, Config.csAssertLevel, false, m⟩, ⟨dc, Config.csAssertLevel, true, m⟩, ⟨dc, Config.csAssertLevel, false, m⟩]

/-- The tuples up to the end of bit number `n`, MOSI resting at `m` before. -/
def openFrame (k : Kind) (b : Byte) (n : Nat) (m : Level) : List WireTuple :=
  ⟨k.dcLevel, !Config.csAssertLevel, false, m⟩ :: ⟨k.dcLevel, Config.csAssertLevel, false, m⟩ ::
    (Config.bitOrder.take n).flatMap (fun i => bitTuples k.dcLevel (b.getLsbD i))

/-- The 27 tuples of a complete transaction. -/
def wholeFrame (k : Kind) (b : Byte) (m : Level) : List WireTuple :=
  openFrame k b 8 m ++ [⟨k.dcLevel, !Config.csAssertLevel, false, b.getLsbD 0⟩]

/-- `rx` is `RXSR` after `n` samples of MISO taken from draw `m` on: the sampled bits have the sampled levels,
the others are as in `old` (40_framer_ops.md R90). -/
def RxSampled (old : Byte) (m n : Nat) (rx : Byte) : Prop :=
  ∀ i < 8, rx.getLsbD i = if 8 - n ≤ i then Config.misoLevel (m + (7 - i)) else old.getLsbD i

/-- The framer after a complete transaction. -/
def frAfter (k : Kind) (b rx : Byte) : Framer where
  dc := k.dcLevel
  cs := !Config.csAssertLevel
  sck := false
  mosi := b.getLsbD 0
  txsr := b
  rxsr := rx
  bitcnt := 0
  phase := .idle
  kind := k

/-- The state a complete transaction leaves. -/
def afterTxn (k : Kind) (b rx : Byte) (s : State) : State :=
  { s with
    fr := frAfter k b rx
    obs := { s.obs with
             txn := s.obs.txn ++ [.txn k b], wire := s.obs.wire ++ wholeFrame k b s.fr.mosi }
    env := { s.env.takeAnswer with misoDraws := s.env.misoDraws + 8 } }

/-- The state a transaction leaves that broke after `n` complete clock pulses (60_exceptions.md R182): CS
asserted, no entry in `txn`, `2 + 3n` tuples. -/
def brokenTxn (k : Kind) (b : Byte) (n : Nat) (rx : Byte) (s : State) : State :=
  { s with
    fr := { dc := k.dcLevel, cs := Config.csAssertLevel, sck := false,
            mosi := if n = 0 then s.fr.mosi else b.getLsbD (8 - n),
            txsr := b, rxsr := rx, bitcnt := BitVec.ofNat 4 (8 - n),
            phase := if n = 0 then .csLow else .bitSample, kind := k }
    obs := { s.obs with wire := s.obs.wire ++ openFrame k b n s.fr.mosi }
    env := { s.env.takeAnswer with misoDraws := s.env.misoDraws + n } }

/-- `SQ` with `FLT` and `FINFO` written (60_exceptions.md R193). -/
def faultedSq (q : Sequencer) (code info : Nat) : Sequencer :=
  { q with flt := BitVec.ofNat 4 code, finfo := BitVec.ofNat 32 info }

/-- `{kind, n[3:0], byte[7:0]}` as a number (60_exceptions.md R181). -/
def xferWord (k : Kind) (n : Nat) (b : Byte) : Nat := k.bit.toNat * 4096 + n * 256 + b.toNat

/-- `SQ` after an answer that is not `Done` to a transfer of `b`: `TransportFault`, `TransportTimeout`, or
unchanged in a hang (60_exceptions.md R182, R183, R201). -/
def brokenSq (r : RawParams) (q : Sequencer) (k : Kind) (b : Byte) : XferAnswer → Sequencer
  | .done => q
  | .fault n => faultedSq q 1 (xferWord k n b)
  | .stall n => if r.xferTimeout = none then q else faultedSq q 2 (xferWord k n b)

/-- The number of complete clock pulses an answer that is not `Done` reports. -/
def pulsesOf : XferAnswer → Nat
  | .done => 8
  | .fault n => n
  | .stall n => n

/-- The operation is one transaction of kind `k` and byte `b` in state `s` (R82, R83, 41_sequencer_ops.md
R117, R119). -/
inductive SendsOne (s : State) : Instr → Kind → Byte → Prop where
  | wrcmd (sel : Byte) : SendsOne s (.wrcmd sel) .cmd sel
  | wrdat (b : Byte) : SendsOne s (.wrdat b) .dat b
  | on (h : s.sq.inited = true) : SendsOne s .on .cmd s.par.raw.sel.displayOn
  | off (h : s.sq.inited = true) : SendsOne s .off .cmd s.par.raw.sel.displayOff

/-- The number of low-to-high edges in a sequence of levels. -/
def edgesUp : List Level → Nat
  | a :: b :: rest => (if !a && b then 1 else 0) + edgesUp (b :: rest)
  | _ => 0

/-- The number of high-to-low edges in a sequence of levels. -/
def edgesDown (l : List Level) : Nat := edgesUp (l.map not)

/-- The levels of the four output pins. -/
def Framer.pins (f : Framer) : WireTuple := ⟨f.dc, f.cs, f.sck, f.mosi⟩

/-! ### The initialization program on the wire (41_sequencer_ops.md R111 to R116) -/

/-- What one entry appends to `txn`. -/
def entryTxns (r : RawParams) (e : RomEntry) : List TxnEntry :=
  match e.op with
  | .reg sel payload => .txn .cmd sel :: payload.map (.txn .dat)
  | .settle .first => [.settle r.settle1]
  | .settle .second => [.settle r.settle2]

/-- What the whole program appends to `txn`. -/
def programTxns (r : RawParams) : List TxnEntry := r.program.flatMap (entryTxns r)

/-- The transactions of a list of `txn` entries as frames on the wire, MOSI resting at `m` before. -/
def framesOf : List TxnEntry → Level → List WireTuple
  | [], _ => []
  | .txn k b :: rest, m => wholeFrame k b m ++ framesOf rest (b.getLsbD 0)
  | .settle _ :: rest, m => framesOf rest m

/-- `t` is what `s` becomes when the entries `l` have been executed with every transfer `Done`: the entries in
`txn`, their frames on the wire, the framer as the last transaction leaves it, one answer taken and eight samples
of MISO drawn per transaction, and nothing else but `SQ` and `GH` changed. -/
structure SentFrom (s t : State) (l : List TxnEntry) : Prop where
  txn : t.obs.txn = s.obs.txn ++ l
  wire : t.obs.wire = s.obs.wire ++ framesOf l s.fr.mosi
  video : t.obs.video = s.obs.video
  framer : match (wireTxns l).getLast? with
    | none => t.fr = s.fr
    | some (k, b) =>
      ∃ rx, RxSampled 0 (s.env.misoDraws + 8 * ((wireTxns l).length - 1)) 8 rx ∧ t.fr = frAfter k b rx
  env : t.env = { Env.afterAnswers (wireTxns l).length s.env with
                  misoDraws := s.env.misoDraws + 8 * (wireTxns l).length }
  tg : t.tg = s.tg
  ops : t.ops = s.ops
  par : t.par = s.par
  fb : t.fb = s.fb

/-- The entries of a list before transaction number `j`: those of the `j` transactions, and every settle
period on the way. -/
def beforeTransfer : Nat → List TxnEntry → List TxnEntry
  | _, [] => []
  | j, .settle ms :: rest => .settle ms :: beforeTransfer j rest
  | 0, .txn _ _ :: _ => []
  | j + 1, .txn k b :: rest => .txn k b :: beforeTransfer j rest

/-- The entry of the program that transaction number `j` belongs to, by its index. -/
def entryOfTransfer (r : RawParams) : Nat → List RomEntry → Nat
  | _, [] => 0
  | j, e :: rest =>
    if j < (wireTxns (entryTxns r e)).length then 0
    else 1 + entryOfTransfer r (j - (wireTxns (entryTxns r e)).length) rest

/-- The Panel State when stages 1 to `k` are complete, from `Reset` (R120). -/
def panelAfter (k : Nat) : PanelState :=
  if k = 0 then .reset
  else if k < 5 then .extendedRegisterUnlocked
  else if k < 8 then .powerBiasConfigured
  else if k = 8 then .addressingConfigured
  else if k = 9 then .gammaConfigured
  else if k = 10 then .sleepOut
  else if k = 11 then .displayOn
  else .gramWriteArmed

/-- The list begins with the vendor unlock `0xCA`, data `0xC3 0x08 0x50`, and ends with the GRAM select `0x2C` with no
trailing data (41_sequencer_ops.md R123 (a)). -/
def UnlockFirstGramLast (l : List TxnEntry) : Prop :=
  ∃ mid, l = [.txn .cmd 0xCA, .txn .dat 0xC3, .txn .dat 0x08, .txn .dat 0x50] ++ mid ++ [.txn .cmd 0x2C]

/-- The selectors a part of the program sends of the registers R113's table names, in order. -/
def sentRegisters (r : RawParams) (part : List RomEntry) : List Byte :=
  part.filterMap fun e => match e.op with
    | .reg sel _ => if sel ∈ listedSels.map r.sel.byte then some sel else none
    | .settle _ => none

/-! ### Invariants -/

/-- A layer that passed the bind checks 3 to 10 (42_timing_generator.md R144). -/
structure LayerFits (c : TgConf) (l : Layer) : Prop where
  pf : l.pf = Config.pfRgb565
  w : 1 ≤ l.w.toNat
  h : 1 ≤ l.h.toNat
  x : l.x.toNat + l.w.toNat ≤ c.aw.toNat
  y : l.y.toNat + l.h.toNat ≤ c.ah.toNat
  alpha : l.dcol.extractLsb' 24 8 = 0x00 ∨ l.dcol.extractLsb' 24 8 = 0xFF
  even : l.fbaddr.toNat % 2 = 0
  region : l.fbaddr.toNat + 2 * l.w.toNat * l.h.toNat ≤ Config.fbBytes

/-- The timing generator in every reachable state: counts that make the scan well defined (R142), one bound
layer at most, which passed its checks (R144), and a position inside the frame while enabled (R25, R151). -/
structure TgInv (g : TimingGen) : Prop where
  counts : g.conf.configured = true →
    1 ≤ g.conf.hs.toNat ∧ 1 ≤ g.conf.aw.toNat ∧ 1 ≤ g.conf.vs.toNat ∧ 1 ≤ g.conf.ah.toNat
  enabled : g.conf.en = true → g.conf.configured = true
  bound : g.conf.boundLayer ≠ none → g.conf.configured = true
  oneLayer : ¬ (g.conf.layer0.bound = true ∧ g.conf.layer1.bound = true)
  layer : ∀ l, g.conf.boundLayer = some l → LayerFits g.conf l
  position : g.conf.en = true →
    g.scan.hcnt.toNat < g.conf.htotal ∧ g.scan.vcnt.toNat < g.conf.vtotal
  stopped : g.conf.en = false →
    g.scan.hcnt = 0 ∧ g.scan.vcnt = 0 ∧
    g.scan.hsync = !g.conf.hspol ∧ g.scan.vsync = !g.conf.vspol ∧ g.scan.de = !g.conf.depol

/-- The framer and the host in every reachable state: idle pins between operations (40_framer_ops.md R88); an
open transaction only behind a transport fault, a timeout or a hang (10_state.md R30); `FLT` a code of R181,
`FINFO` 0 without a fault; `IDX` 0 between operations (10_state.md R17); the Panel State armed after `INIT`
(41_sequencer_ops.md R120) and at `Reset` before one began; `pc` inside the stream (R16). -/
structure HostInv (s : State) : Prop where
  idle : s.fr.phase = .idle → FramerIdle s.fr
  openTxn : s.fr.phase ≠ .idle →
    s.fr.cs = Config.csAssertLevel ∧ s.fr.sck = false ∧ (s.fr.phase = .csLow ∨ s.fr.phase = .bitSample) ∧
    s.sq.flt.toNat ≤ 2
  code : s.sq.flt.toNat ≤ 9
  noInfo : s.sq.flt = 0 → s.sq.finfo = 0
  index : s.fr.phase = .idle → s.sq.idx = 0
  armed : s.sq.inited = true → s.gh = .gramWriteArmed
  fresh : s.sq.inited = false → s.fr.phase = .idle → s.gh = .reset
  stream : s.sq.pc ≤ s.ops.length

/-- The panel's decode of the wire yields the transactions recorded in `txn`, and between operations no CS
window is open and the last tuple is what the pins show (40_framer_ops.md R91). -/
def WireMatches (s : State) : Prop :=
  ∃ d, WireScan.feedAll s.obs.wire WireScan.start = some d ∧ d.out = wireTxns s.obs.txn ∧
    (s.fr.phase = .idle → FramerIdle s.fr ∧ d.win = none ∧ d.prev.cs = true)

/-! ### The end of the host's run (70_reset_and_hazards.md R221) -/

/-- Every operation has completed. -/
def HostFinal (s : State) : Prop := s.sq.pc = s.ops.length ∧ s.sq.flt = 0 ∧ s.fr.phase = .idle

/-- The host is inside a stalled transaction (60_exceptions.md R201). -/
def HostHung (s : State) : Prop := s.sq.flt = 0 ∧ s.fr.phase ≠ .idle

end Sys2Proof.Machine
end

