-- ==== Sys2Proof/Certificates/Slice0/Obligations.lean ====
section
/-! DEFINITION. The statements about the model, each with the rule of spec/ it formalises. -/

open Sys2Proof Sys2Proof.Machine

/-! ### Encoding (30_encoding.md) -/

/-- Words the spec writes out, and the operations they stand for: R64, R65 (the two examples), R72, R110, R83.
Derived: the encoding is the spec's own (D2). -/
def Obligations.SpecWordsDecode : Prop :=
  decode [0x002C] = .ok (.wrcmd 0x2C) 1 ∧
  decode [0x10C3] = .ok (.wrdat 0xC3) 1 ∧
  decode [0x2078] = .ok (.delay 120) 1 ∧
  decode [0x3000] = .ok .init 1 ∧ decode [0x3001] = .ok .on 1 ∧ decode [0x3002] = .ok .off 1 ∧
  decode [0x4000, 0x000A, 0x0014, 0x000A, 0x00F0, 0x0002, 0x0002, 0x0004, 0x0140, 0x0000, 0x0000] =
    .ok (.tgcfg ⟨10, 20, 10, 240, 2, 2, 4, 320, false, false, false, false⟩ 0x000000) 11 ∧
  decode [0x5200, 0x0000, 0x0000, 0x00F0, 0x0140, 0x0000, 0x0000, 0xD000, 0x0000] =
    .ok (.tgbind 0 ⟨0, 0, 240, 320, 2, 0x00000000, 0xD0000000⟩) 9 ∧
  decode [0x6001] = .ok (.tgen true) 1

/-- Decoding the encoding of a well-formed operation, whatever words follow, gives the operation back with its
length: no bit of an encoding is dropped (R60 to R67). -/
def Obligations.DecodeEncodeRoundTrip : Prop :=
  ∀ (i : Instr) (rest : List Word), i.WellFormed →
    decode (encode i ++ rest) = .ok i i.words ∧ (encode i).length = i.words

/-- Every accepted word list is the encoding of the well-formed operation it decodes to, and the major opcode
alone fixes the length (R60, R67, R68). -/
def Obligations.AcceptedWordsAreTheEncoding : Prop :=
  ∀ (w0 : Word) (rest : List Word) (i : Instr) (n : Nat), decode (w0 :: rest) = .ok i n →
    i.WellFormed ∧ n = i.words ∧ n = opLength (w0.toNat / 4096) ∧ (w0 :: rest).take n = encode i

/-- The illegal encodings of R68, spelled over the words' numbers: a reserved major, a stream that ends inside an
operation, a `zero` field that is not 0, `fn` = 3. -/
def IllegalWords (w0 : Word) (rest : List Word) : Prop :=
  let m := w0.toNat / 4096
  7 ≤ m ∨ rest.length + 1 < opLength m ∨
  ((m = 0 ∨ m = 1) ∧ w0.toNat / 256 % 16 ≠ 0) ∨
  (m = 3 ∧ (w0.toNat / 4 % 1024 ≠ 0 ∨ w0.toNat % 4 = 3)) ∨
  (m = 4 ∧ (w0.toNat / 16 % 256 ≠ 0 ∨ ∃ w9, rest[8]? = some w9 ∧ w9.toNat / 256 ≠ 0)) ∨
  (m = 5 ∧ w0.toNat / 16 % 16 ≠ 0) ∨
  (m = 6 ∧ w0.toNat / 2 % 2048 ≠ 0)

/-- The decoder rejects exactly the encodings R68 lists; every other word list is an operation. -/
def Obligations.RejectedExactlyWhenIllegal : Prop :=
  ∀ (w0 : Word) (rest : List Word),
    (∃ e, decode (w0 :: rest) = .illegal e) ↔ IllegalWords w0 rest

/-! ### The step -/

/-- Where the words at `pc` decode, a step of the machine is `exec` of the operation: with nothing scheduled and the
scanner off, at the host's turn, and at any agent's turn while the scanner is off; with nothing scheduled and the
scanner on, the step is that `exec` once the scanner has had its number of free choices, and a scan step until then.
What the step adds is the turn it takes from the schedule, or the count of free choices (R67, 10_state.md R10; log 8). -/
def Obligations.StepRunsDecodedInstruction : Prop :=
  ∀ (s : State) (i : Instr) (n : Nat), HostRuns s → decode (s.ops.drop s.sq.pc) = .ok i n → i.WellFormed →
    (s.env.sched = [] → s.tg.conf.en = false → step s = exec i s) ∧
    (∀ rest, s.env.sched = .agent .host :: rest →
      step s = exec i { s with env := { s.env with sched := rest } }) ∧
    (∀ a rest, s.env.sched = .agent a :: rest → s.tg.conf.en = false →
      step s = exec i { s with env := { s.env with sched := rest } }) ∧
    (s.env.sched = [] → s.tg.conf.en = true →
      (Config.patience s.env.turnDraws ≤ s.env.scansSince →
        step s = exec i { s with env := { s.env with turnDraws := s.env.turnDraws + 1, scansSince := 0 } }) ∧
      (s.env.scansSince < Config.patience s.env.turnDraws →
        step s = scanStep { s with env := { s.env with scansSince := s.env.scansSince + 1 } }))

/-- An illegal encoding at `pc` takes `IllegalOp` (code 3) with the head word as `FINFO`, and changes nothing else: with
nothing scheduled and the scanner off, at the host's turn, at any agent's turn while the scanner is off, and at a free
choice that goes to the host (R68, 60_exceptions.md R184, R193). Derived: the turn the step takes from the schedule
and the count of free choices are the model's (log 8). -/
def Obligations.IllegalWordTakesIllegalOp : Prop :=
  ∀ (s : State) (w0 : Word) (rest : List Word), HostRuns s →
    s.ops.drop s.sq.pc = w0 :: rest → IllegalWords w0 rest →
    (s.env.sched = [] → s.tg.conf.en = false → step s = .next { s with sq := faultedSq s.sq 3 w0.toNat }) ∧
    (∀ tail, s.env.sched = .agent .host :: tail →
      step s = .next { s with sq := faultedSq s.sq 3 w0.toNat, env := { s.env with sched := tail } }) ∧
    (∀ a tail, s.env.sched = .agent a :: tail → s.tg.conf.en = false →
      step s = .next { s with sq := faultedSq s.sq 3 w0.toNat, env := { s.env with sched := tail } }) ∧
    (s.env.sched = [] → s.tg.conf.en = true → Config.patience s.env.turnDraws ≤ s.env.scansSince →
      step s = .next { s with
        sq := faultedSq s.sq 3 w0.toNat
        env := { s.env with turnDraws := s.env.turnDraws + 1, scansSince := 0 } })

/-- Weak fairness: with the scanner on and nothing scheduled, a host with operations left takes its step after
finitely many steps, none of which changes its side, and the scanner takes one more sample after finitely many steps,
unless an operation disables it first (70_reset_and_hazards.md R220). Derived: the order of free choices is the model's
(log 8). -/
def Obligations.EachAgentEventuallySteps : Prop :=
  ∀ s : State, TgInv s.tg → s.env.sched = [] → s.tg.conf.en = true →
    (HostRuns s → s.sq.pc < s.ops.length →
      ∃ (n : Nat) (t : State), Host.Core.run core n s = .next t ∧
        t.fr = s.fr ∧ t.sq = s.sq ∧ t.gh = s.gh ∧ t.ops = s.ops ∧ t.tg.conf = s.tg.conf ∧
        t.obs.txn = s.obs.txn ∧ t.obs.wire = s.obs.wire ∧ t.env.sched = [] ∧
        step t = hostStep { t with env := { t.env with turnDraws := t.env.turnDraws + 1, scansSince := 0 } }) ∧
    ∃ (n : Nat) (t : State), Host.Core.run core n s = .next t ∧
      ((∃ q, t.obs.video = s.obs.video ++ [q]) ∨ t.tg.conf.en = false)

/-- The host's run is over, with the scanner off: the step answers that the stream has ended, and only then, for a
host between operations (70_reset_and_hazards.md R221). Derived: that "no step" is a named stop is the model's (log 10). -/
def Obligations.FinalStateHasNoStep : Prop :=
  ∀ s : State, HostRuns s → s.sq.pc ≤ s.ops.length → s.env.sched = [] → s.tg.conf.en = false →
    (step s = .fault .streamEnded ↔ HostFinal s)

/-! ### The framer (40_framer_ops.md) -/

/-- `WRCMD sel` with its transfer answered `Done`: one command transaction, 27 tuples, one `Txn` entry, `pc + 1`,
and nothing else changed (R82, R84). -/
def Obligations.WrcmdCompletes : Prop :=
  ∀ (sel : Byte) (s : State), HostRuns s → FramerIdle s.fr → s.env.nextAnswer = .done →
    ∃ rx, RxSampled s.fr.rxsr s.env.misoDraws 8 rx ∧
      exec (.wrcmd sel) s = .next { afterTxn .cmd sel rx s with sq := { s.sq with pc := s.sq.pc + 1 } }

/-- `WRDAT byte` with its transfer answered `Done` (R83, R84). -/
def Obligations.WrdatCompletes : Prop :=
  ∀ (b : Byte) (s : State), HostRuns s → FramerIdle s.fr → s.env.nextAnswer = .done →
    ∃ rx, RxSampled s.fr.rxsr s.env.misoDraws 8 rx ∧
      exec (.wrdat b) s = .next { afterTxn .dat b rx s with sq := { s.sq with pc := s.sq.pc + 1 } }

/-- One transaction whose transfer is answered `Fault(n)`: `TransportFault` (code 1) with `{kind, n, byte}`, CS left
asserted, `BITCNT = 8 - n`, `2 + 3n` tuples, no `Txn` entry, `pc` kept, and nothing else changed (60_exceptions.md R182). -/
def Obligations.TransportFaultStopsInsideTheByte : Prop :=
  ∀ (s : State) (i : Instr) (k : Kind) (b : Byte) (n : Fin 9), HostRuns s → FramerIdle s.fr → SendsOne s i k b →
    s.env.nextAnswer = .fault n →
    ∃ rx, RxSampled s.fr.rxsr s.env.misoDraws n rx ∧
      exec i s = .next { brokenTxn k b n rx s with sq := faultedSq s.sq 1 (xferWord k n b) } ∧
      (openFrame k b n s.fr.mosi).length = 2 + 3 * n

/-- One transaction whose transfer stalls: with a finite `XFER_TIMEOUT` it raises `TransportTimeout` (code 2), with
`inf` the host hangs inside the transaction with `FLT` 0; the rest of the state is as after a fault at the same bit
(60_exceptions.md R183, R201). Derived: the timeout takes no time in the model (log 22). -/
def Obligations.StallTimesOutOrHangs : Prop :=
  ∀ (s : State) (i : Instr) (k : Kind) (b : Byte) (n : Fin 9), HostRuns s → FramerIdle s.fr → SendsOne s i k b →
    s.env.nextAnswer = .stall n →
    ∃ rx, RxSampled s.fr.rxsr s.env.misoDraws n rx ∧
      ((∃ ms, s.par.raw.xferTimeout = some ms) →
        exec i s = .next { brokenTxn k b n rx s with sq := faultedSq s.sq 2 (xferWord k n b) }) ∧
      (s.par.raw.xferTimeout = none → exec i s = .next (brokenTxn k b n rx s) ∧ HostHung (brokenTxn k b n rx s))

/-- On the wire of every complete transaction: 27 tuples, DC at the level of the kind in each of them, CS asserted
once and deasserted once, eight rising edges of SCK (R85, R86). -/
def Obligations.TransactionFramesOneByte : Prop :=
  ∀ (s t : State) (i : Instr) (k : Kind) (b : Byte), HostRuns s → FramerIdle s.fr → SendsOne s i k b →
    s.env.nextAnswer = .done → exec i s = .next t →
    ∃ ts, t.obs.wire = s.obs.wire ++ ts ∧ ts.length = 27 ∧ (∀ x ∈ ts, x.dc = k.dcLevel) ∧
      edgesDown ((s.fr.pins :: ts).map WireTuple.cs) = 1 ∧
      edgesUp ((s.fr.pins :: ts).map WireTuple.cs) = 1 ∧
      edgesUp ((s.fr.pins :: ts).map WireTuple.sck) = 8

/-- Every step keeps it: what the panel decodes from the wire is what `txn` records, faults, hangs and scan steps
included (R91). Derived: a reset pulse keeps it only because it empties `txn` and `wire`, the model's reading of where
a run begins (log 9). -/
def Obligations.WireDecodesToTransactions : Prop :=
  ∀ s s' : State, WireMatches s → step s = .next s' → WireMatches s'

/-! ### The sequencer (41_sequencer_ops.md) -/

/-- `DELAY ms` appends `Settle(ms)`, adds 1 to `pc`, and changes nothing else (R110). Derived: there is no clock (log 23). -/
def Obligations.DelayCompletes : Prop :=
  ∀ (ms : BitVec 12) (s : State), HostRuns s →
    exec (.delay ms) s = .next { s with
      obs := { s.obs with txn := s.obs.txn ++ [.settle ms.toNat] }
      sq := { s.sq with pc := s.sq.pc + 1 } }

/-- `INIT` with every transfer `Done`: the whole program is sent, in order, `INITED` is set, `IDX` is 0 again, the
Panel State is `GRAM-Write-Armed`, `pc + 1`, and nothing else changed (R111, R120). -/
def Obligations.InitCompletes : Prop :=
  ∀ s : State, HostRuns s → FramerIdle s.fr → s.sq.inited = false →
    s.env.allDone (wireTxns (programTxns s.par.raw)).length →
    ∃ t, exec .init s = .next t ∧ SentFrom s t (programTxns s.par.raw) ∧
      t.sq = { s.sq with pc := s.sq.pc + 1, idx := 0, inited := true } ∧ t.gh = .gramWriteArmed

/-- A second `INIT` takes `PanelAlreadyInitialised` (code 5, information 0) and sends nothing (R122, 60_exceptions.md
R186). -/
def Obligations.InitTwiceFaults : Prop :=
  ∀ s : State, HostRuns s → s.sq.inited = true →
    exec .init s = .next { s with sq := faultedSq s.sq 5 0 }

/-- A transfer inside `INIT` that is not answered `Done`, the `j`-th of the program from 0: what came before was sent
and stays in `txn`; the framer and `FLT`, `FINFO` are as for that transaction alone; `IDX` is the index of its entry;
`INITED` stays 0, `pc` stays; the Panel State is that of the last complete stage (R121; U12). Derived: the stage of an
entry is the number it carries (log 15). -/
def Obligations.InitStopsAtABrokenTransfer : Prop :=
  ∀ (s : State) (j : Nat) (k : Kind) (b : Byte) (e : RomEntry),
    HostRuns s → FramerIdle s.fr → s.sq.inited = false → s.gh = .reset → s.env.allDone j →
    (s.env.afterAnswers j).nextAnswer ≠ .done →
    (wireTxns (programTxns s.par.raw))[j]? = some (k, b) →
    s.par.raw.program[entryOfTransfer s.par.raw j s.par.raw.program]? = some e →
    ∃ u rx, SentFrom s u (beforeTransfer j (programTxns s.par.raw)) ∧
      RxSampled u.fr.rxsr u.env.misoDraws (pulsesOf u.env.nextAnswer) rx ∧
      exec .init s = .next { brokenTxn k b (pulsesOf u.env.nextAnswer) rx u with
        sq := brokenSq s.par.raw { s.sq with idx := entryOfTransfer s.par.raw j s.par.raw.program } k b
          (s.env.afterAnswers j).nextAnswer
        gh := panelAfter (e.stage - 1) }

/-- `ON` after `INIT`, its transfer `Done`: the one command `SEL_DISPLAY_ON`, no data byte, `pc + 1`, and nothing else
changed (R117). -/
def Obligations.OnCompletes : Prop :=
  ∀ s : State, HostRuns s → FramerIdle s.fr → s.sq.inited = true → s.env.nextAnswer = .done →
    ∃ rx, RxSampled s.fr.rxsr s.env.misoDraws 8 rx ∧
      exec .on s = .next { afterTxn .cmd s.par.raw.sel.displayOn rx s with sq := { s.sq with pc := s.sq.pc + 1 } }

/-- `OFF` after `INIT`, its transfer `Done`: the one command `SEL_DISPLAY_OFF` (R119). -/
def Obligations.OffCompletes : Prop :=
  ∀ s : State, HostRuns s → FramerIdle s.fr → s.sq.inited = true → s.env.nextAnswer = .done →
    ∃ rx, RxSampled s.fr.rxsr s.env.misoDraws 8 rx ∧
      exec .off s = .next { afterTxn .cmd s.par.raw.sel.displayOff rx s with sq := { s.sq with pc := s.sq.pc + 1 } }

/-- `ON` and `OFF` before `INIT` take `PanelNotInitialised` (code 4, information 1 and 2) before any pin moves
(60_exceptions.md R185). -/
def Obligations.OnOffBeforeInitFault : Prop :=
  ∀ s : State, HostRuns s → s.sq.inited = false →
    exec .on s = .next { s with sq := faultedSq s.sq 4 1 } ∧
    exec .off s = .next { s with sq := faultedSq s.sq 4 2 }

/-- Whatever admissible parameters the hardware has: the program's transactions begin with the vendor unlock
`0xCA`, `0xC3 0x08 0x50`, and end with the GRAM select `0x2C` with no trailing data (R114, R123 (a)). -/
def Obligations.InitFirstAndLastEntries : Prop :=
  ∀ p : Params, ∃ mid,
    programTxns p.raw =
      [.txn .cmd 0xCA, .txn .dat 0xC3, .txn .dat 0x08, .txn .dat 0x50] ++ mid ++ [.txn .cmd 0x2C]

/-- The entry selects register `sel`. -/
def selectsReg (sel : Byte) (e : RomEntry) : Bool :=
  match e.op with
  | .reg x _ => x == sel
  | .settle _ => false

/-- The entries the spec fixes, for whatever admissible parameters: the first is the vendor unlock, the last the GRAM
select with no payload, and the addressing window is the panel's extent, 240 x 320: the column register is sent
exactly once, with `00 00 00 EF`, and the page register exactly once, with `00 00 01 3F` (R114, 30_encoding.md R70).
Derived: "exactly once" rests on R112's "one `writeRegister` [...] per register named in it" as the model reads it, and
the number 6 is the entry's own stage number (log 15). -/
def Obligations.InitWindowIsThePanel : Prop :=
  ∀ p : Params,
    p.raw.program.head?.map RomEntry.op = some (.reg 0xCA [0xC3, 0x08, 0x50]) ∧
    p.raw.program.getLast?.map RomEntry.op = some (.reg 0x2C []) ∧
    p.raw.program.filter (selectsReg p.raw.sel.columnAddr) =
      [⟨6, .reg p.raw.sel.columnAddr [0x00, 0x00, 0x00, 0xEF]⟩] ∧
    p.raw.program.filter (selectsReg p.raw.sel.pageAddr) =
      [⟨6, .reg p.raw.sel.pageAddr [0x00, 0x00, 0x01, 0x3F]⟩]

/-- A register that R113's table does not name, neither `SEL_RESET` (70_reset_and_hazards.md R210, R212) nor
`SEL_PIXEL_FORMAT` (91_not_in_source.md N24). -/
def OtherRegister (t : Selectors) (sel : Byte) : Prop :=
  sel ∉ listedSels.map t.byte ∧ sel ≠ t.softReset ∧ sel ≠ t.pixelFormat

/-- The transactions of register writes, in order. -/
def registerTxns (regs : List (Byte × List Byte)) : List TxnEntry :=
  regs.flatMap fun e => .txn .cmd e.1 :: e.2.map (.txn .dat)

/-- The twelve stages in order, for whatever admissible parameters: the program is its stages one after the other; of
the registers R113's table names, stages 1 to 7 send those it lists for them, those of 1 to 5 in any order but the
unlock first; before the GRAM select there is no settle period; then come the GRAM select and directly after it at
least 5 ms, the three gamma registers with their table lengths, sleep-out and directly after it at least 120 ms,
display-on, and as the last entry the GRAM select; what stands between them, `x 0` to `x 6`, is writes of registers the
table does not name, so there are exactly two settle periods (R113, R115, R116, 70_reset_and_hazards.md R215).
Derived: that a listed register is sent once and in its stage, and which registers may stand beside the listed ones, is
the model's reading of R112 to R116, U18 and N24 (log 15). -/
def Obligations.InitStagesInOrder : Prop :=
  ∀ p : Params, ∃ part : Nat → List RomEntry, ∃ g pos neg : List Byte, ∃ x : Nat → List (Byte × List Byte),
    let t := p.raw.sel
    let sent (k : Nat) : List Byte := sentRegisters p.raw (part k)
    let setup := ((List.range' 1 7).flatMap part).flatMap (entryTxns p.raw)
    p.raw.program = (List.range' 1 12).flatMap part ∧ (∀ k, ∀ e ∈ part k, e.stage = k) ∧
    (part 1).head?.map RomEntry.op = some (.reg 0xCA [0xC3, 0x08, 0x50]) ∧
    (sent 1).Perm [0xCA, t.powerb, t.powerSeq, t.dtca, t.dtcb, t.powera, t.prc] ∧
    (sent 2).Perm [t.frmctr1, t.dfc] ∧
    (sent 3).Perm [t.power1, t.power2, t.vcom1, t.vcom2] ∧
    (sent 4).Perm [t.mac, t.gammaEn3] ∧
    (sent 5).Perm [t.rgbInterface, t.dfc] ∧
    sent 6 = [t.columnAddr, t.pageAddr] ∧ sent 7 = [t.interfaceCtl] ∧
    programTxns p.raw = setup ++
      registerTxns (x 0) ++ [.txn .cmd 0x2C, .settle p.raw.settle1] ++
      registerTxns (x 1) ++ (.txn .cmd t.gamma :: g.map (.txn .dat)) ++
      registerTxns (x 2) ++ (.txn .cmd t.pgamma :: pos.map (.txn .dat)) ++
      registerTxns (x 3) ++ (.txn .cmd t.ngamma :: neg.map (.txn .dat)) ++
      registerTxns (x 4) ++ [.txn .cmd t.sleepOut, .settle p.raw.settle2] ++
      registerTxns (x 5) ++ [.txn .cmd t.displayOn] ++
      registerTxns (x 6) ++ [.txn .cmd 0x2C] ∧
    (∀ k, ∀ e ∈ x k, OtherRegister t e.1) ∧
    (∀ ms, TxnEntry.settle ms ∉ setup) ∧ pos.length = 15 ∧ neg.length = p.raw.ngammaLen ∧
    5 ≤ p.raw.settle1 ∧ 120 ≤ p.raw.settle2

/-- `INIT_PROGRAM` stays open (00_scope.md R6): an entry `Reg(sel, payload)` with any `u8` selector that R113's table
does not name and that is not `SEL_RESET`, `SEL_PIXEL_FORMAT` before stage 8 only, may stand between two stages of an
admissible program, as the last entry of the one or the first of the other: the parameters are admissible again (R112).
Derived: 93_implementation_defined.md U18 and 91_not_in_source.md N2, N24 as the model reads them (log 15). -/
def Obligations.InitProgramAdmitsOtherRegisters : Prop :=
  ∀ (p : Params) (k j : Nat) (sel : Byte) (payload : List Byte), 1 ≤ k → k ≤ 11 → j = k ∨ j = k + 1 →
    sel ∉ listedSels.map p.raw.sel.byte → sel ≠ p.raw.sel.softReset → (sel = p.raw.sel.pixelFormat → j < 8) →
    ∃ q : Params, q.raw = { p.raw with
      program := p.raw.program.filter (fun e => e.stage ≤ k) ++ ⟨j, .reg sel payload⟩ ::
        p.raw.program.filter (fun e => k < e.stage) }

/-- `INIT` never sends the panel's reset selector, for whatever admissible parameters (70_reset_and_hazards.md R210,
R212). Derived: those rules say what the document's sequence does; that no admissible program sends it is the model's
reading (log 15). -/
def Obligations.InitSendsNoPanelReset : Prop :=
  ∀ p : Params, .txn .cmd p.raw.sel.softReset ∉ programTxns p.raw

/-- The sequence is reproducible: two runs of `INIT` with the same parameters and every transfer `Done` append the same
list, which begins with the vendor unlock and ends with the GRAM select with no trailing data, "byte-for-byte equal
across runs" (R123 (a)). -/
def Obligations.InitSequenceIsReproducible : Prop :=
  ∀ s u : State, HostRuns s → FramerIdle s.fr → s.sq.inited = false →
    s.env.allDone (wireTxns (programTxns s.par.raw)).length →
    HostRuns u → FramerIdle u.fr → u.sq.inited = false →
    u.env.allDone (wireTxns (programTxns u.par.raw)).length → s.par = u.par →
    ∃ l t v, exec .init s = .next t ∧ exec .init u = .next v ∧
      t.obs.txn = s.obs.txn ++ l ∧ v.obs.txn = u.obs.txn ++ l ∧ UnlockFirstGramLast l

/-- `INIT`, then `ON`, then `OFF`, every transfer `Done`: after the program's entries come the display-on and the
display-off command with no data byte, in that order (R123 (c)). -/
def Obligations.InitOnOffScenario : Prop :=
  ∀ s : State, HostRuns s → FramerIdle s.fr → s.sq.inited = false →
    s.env.allDone ((wireTxns (programTxns s.par.raw)).length + 2) →
    ∃ t u v, exec .init s = .next t ∧ exec .on t = .next u ∧ exec .off u = .next v ∧
      v.obs.txn = s.obs.txn ++ programTxns s.par.raw ++
        [.txn .cmd s.par.raw.sel.displayOn, .txn .cmd s.par.raw.sel.displayOff]

/-- Operations one after the other, stopping at the first that has no next state. -/
def execAll : List Instr → State → StepOutcome
  | [], s => .next s
  | i :: rest, s =>
    match exec i s with
    | .next t => execAll rest t
    | .fault f => .fault f
    | .refused r => .refused r

/-- No batching: `REGWRITE sel, b0, ..., bn-1` with every transfer `Done` is n + 1 transactions, each its own frame of
27 tuples, in order, and `pc + (n + 1)` (R87, 30_encoding.md R73). -/
def Obligations.RegisterWriteIsOneFramePerByte : Prop :=
  ∀ (sel : Byte) (payload : List Byte) (s : State), HostRuns s → FramerIdle s.fr →
    s.env.allDone (payload.length + 1) →
    ∃ t, execAll (regWrite sel payload) s = .next t ∧
      SentFrom s t (.txn .cmd sel :: payload.map (.txn .dat)) ∧
      t.obs.wire.length = s.obs.wire.length + 27 * (payload.length + 1) ∧
      t.sq = { s.sq with pc := s.sq.pc + (payload.length + 1) } ∧ t.gh = s.gh

/-- What the framer and sequencer operations leave alone, whenever they answer a next state, faults and hangs
included: the timing generator, the video trace, the stream, the parameters, every byte of the framebuffer, the
schedule; `WRCMD`, `WRDAT`, `DELAY`, `ON`, `OFF` also `INITED`, `IDX` and the Panel State, and `DELAY` the whole
framer and the wire (R82, R83, R110, R111, R117, R119). -/
def Obligations.FramerAndSequencerFrame : Prop :=
  ∀ (s t : State) (i : Instr),
    (i = .init ∨ i = .on ∨ i = .off ∨ (∃ x, i = .wrcmd x) ∨ (∃ x, i = .wrdat x) ∨ (∃ x, i = .delay x)) →
    exec i s = .next t →
    t.tg = s.tg ∧ t.obs.video = s.obs.video ∧ t.ops = s.ops ∧ t.par = s.par ∧
    (∀ a, t.fb.byte? a = s.fb.byte? a) ∧ t.env.sched = s.env.sched ∧ t.env.scanDraws = s.env.scanDraws ∧
    (i ≠ .init → t.sq.inited = s.sq.inited ∧ t.sq.idx = s.sq.idx ∧ t.gh = s.gh) ∧
    ((∃ x, i = .delay x) → t.fr = s.fr ∧ t.obs.wire = s.obs.wire ∧ t.sq.flt = s.sq.flt ∧ t.sq.finfo = s.sq.finfo)

/-! ### The timing generator (42_timing_generator.md) -/

/-- The counts R142 accepts: each fits 16 bits, and the sync widths and active sizes are at least 1. -/
def CountsAccepted (p : TimingParams) : Prop :=
  (∀ n ∈ p.counts, n ≤ 65535) ∧ 1 ≤ p.hs ∧ 1 ≤ p.aw ∧ 1 ≤ p.vs ∧ 1 ≤ p.ah

/-- The first `TGCFG`, its counts accepted: every register holds the operand exactly, read as a register and by its
index (8 to 15 the counts, 16 to 19 the flags, 20 the background colour), the sync pins go to their inactive levels,
`CONFIGURED`, index 6, is set, `pc + 11`, and nothing else changes (R141, R158; 10_state.md R20 to R23). -/
def Obligations.TgcfgCompletes : Prop :=
  ∀ (p : TimingParams) (bg : Colour) (s : State), HostRuns s → s.tg.conf.configured = false → CountsAccepted p →
    ∃ t c, exec (.tgcfg p bg) s = .next t ∧
      t = { s with
        tg := { conf := c
                scan := { s.tg.scan with hsync := !p.hspol, vsync := !p.vspol, de := !p.depol } }
        sq := { s.sq with pc := s.sq.pc + 11 } } ∧
      c = { s.tg.conf with
        hs := c.hs, hbp := c.hbp, hfp := c.hfp, aw := c.aw, vs := c.vs, vbp := c.vbp, vfp := c.vfp, ah := c.ah
        hspol := p.hspol, vspol := p.vspol, depol := p.depol, pcpol := p.pcpol, bgc := bg, configured := true } ∧
      [c.hs.toNat, c.hbp.toNat, c.hfp.toNat, c.aw.toNat, c.vs.toNat, c.vbp.toNat, c.vfp.toNat, c.ah.toNat] = p.counts ∧
      (∀ j n, p.counts[j]? = some n → t.register (8 + j) = some n) ∧
      t.register 6 = some 1 ∧
      t.register 16 = some (if p.hspol then 1 else 0) ∧ t.register 17 = some (if p.vspol then 1 else 0) ∧
      t.register 18 = some (if p.depol then 1 else 0) ∧ t.register 19 = some (if p.pcpol then 1 else 0) ∧
      t.register 20 = some bg.toNat

/-- A second `TGCFG` takes `TgAlreadyConfigured` (code 7, information 0); a first one whose counts R142 rejects takes
`TgBadParam` (code 8) with the register index of the first count above 65535 in list order, else of the first zero
among `hs`, `aw`, `vs`, `ah`; nothing else changes (R142, 60_exceptions.md R188). Derived: the counts are naturals (log 24). -/
def Obligations.TgcfgRejections : Prop :=
  ∀ (p : TimingParams) (bg : Colour) (s : State), HostRuns s →
    (s.tg.conf.configured = true → exec (.tgcfg p bg) s = .next { s with sq := faultedSq s.sq 7 0 }) ∧
    (s.tg.conf.configured = false →
      (∀ j n, p.counts[j]? = some n → 65535 < n → (∀ i < j, ∀ m, p.counts[i]? = some m → m ≤ 65535) →
        exec (.tgcfg p bg) s = .next { s with sq := faultedSq s.sq 8 (8 + j) }) ∧
      ((∀ n ∈ p.counts, n ≤ 65535) →
        (p.hs = 0 → exec (.tgcfg p bg) s = .next { s with sq := faultedSq s.sq 8 8 }) ∧
        (p.hs ≠ 0 → p.aw = 0 → exec (.tgcfg p bg) s = .next { s with sq := faultedSq s.sq 8 11 }) ∧
        (p.hs ≠ 0 → p.aw ≠ 0 → p.vs = 0 → exec (.tgcfg p bg) s = .next { s with sq := faultedSq s.sq 8 12 }) ∧
        (p.hs ≠ 0 → p.aw ≠ 0 → p.vs ≠ 0 → p.ah = 0 →
          exec (.tgcfg p bg) s = .next { s with sq := faultedSq s.sq 8 15 })))

/-- The descriptor as a slot's contents. -/
def slotOf (d : LayerDesc) : Layer := ⟨true, d.x, d.y, d.w, d.h, d.pf, d.dcol, d.fbaddr⟩

/-- `TGBIND i, d` after `TGCFG`, no slot bound, every check of R144 passed: the whole descriptor stands in slot `i`,
bound, field `k` at index 32 + 8*i + k, `pc + 9`, and nothing else changes (R143; 10_state.md R24). -/
def Obligations.TgbindCompletes : Prop :=
  ∀ (i : BitVec 4) (d : LayerDesc) (s : State), HostRuns s → s.tg.conf.configured = true → i.toNat < 2 →
    s.tg.conf.layer0.bound = false → s.tg.conf.layer1.bound = false → LayerFits s.tg.conf (slotOf d) →
    ∃ t, exec (.tgbind i d) s = .next t ∧
      t = { s with
        tg := { s.tg with
                conf := if i = 0 then { s.tg.conf with layer0 := slotOf d }
                        else { s.tg.conf with layer1 := slotOf d } }
        sq := { s.sq with pc := s.sq.pc + 9 } } ∧
      ∀ k v, [1, d.x.toNat, d.y.toNat, d.w.toNat, d.h.toNat, d.pf.toNat, d.dcol.toNat, d.fbaddr.toNat][k]? = some v →
        t.register (32 + 8 * i.toNat + k) = some v

/-- The checks of R144 in their order, over a configured generator: the first that fails gives the fault and the
information word, and nothing else changes (R144, 60_exceptions.md R189, R190, R192). -/
def Obligations.TgbindRejections : Prop :=
  ∀ (i : BitVec 4) (d : LayerDesc) (s : State), HostRuns s → s.tg.conf.configured = true →
    let rejected (code info : Nat) : Prop := exec (.tgbind i d) s = .next { s with sq := faultedSq s.sq code info }
    let k := 32 + 8 * i.toNat
    let c := s.tg.conf
    (2 ≤ i.toNat → rejected 8 (0x100 + i.toNat)) ∧
    (i.toNat < 2 →
      (c.layer0.bound = true → rejected 9 0) ∧
      (c.layer0.bound = false → c.layer1.bound = true → rejected 9 1) ∧
      (c.layer0.bound = false → c.layer1.bound = false →
        (d.pf ≠ 2 → rejected 8 (k + 5)) ∧
        (d.pf = 2 → d.w = 0 → rejected 8 (k + 3)) ∧
        (d.pf = 2 → d.w ≠ 0 → d.h = 0 → rejected 8 (k + 4)) ∧
        (d.pf = 2 → d.w ≠ 0 → d.h ≠ 0 →
          (c.aw.toNat < d.x.toNat + d.w.toNat → rejected 8 (k + 1)) ∧
          (d.x.toNat + d.w.toNat ≤ c.aw.toNat →
            (c.ah.toNat < d.y.toNat + d.h.toNat → rejected 8 (k + 2)) ∧
            (d.y.toNat + d.h.toNat ≤ c.ah.toNat →
              (d.dcol.toNat / 2 ^ 24 ≠ 0x00 → d.dcol.toNat / 2 ^ 24 ≠ 0xFF → rejected 8 (k + 6)) ∧
              (d.dcol.toNat / 2 ^ 24 = 0x00 ∨ d.dcol.toNat / 2 ^ 24 = 0xFF →
                d.fbaddr.toNat % 2 = 1 ∨ 2 ^ 32 < d.fbaddr.toNat + 2 * d.w.toNat * d.h.toNat →
                rejected 8 (k + 7)))))))

/-- `TGBIND` and `TGEN` before `TGCFG` take `TgNotConfigured` (code 6) with the layer index, and 0x200 + e; nothing
else changes (60_exceptions.md R187). -/
def Obligations.BindAndEnableNeedConfigure : Prop :=
  ∀ (i : BitVec 4) (d : LayerDesc) (e : Bool) (s : State), HostRuns s → s.tg.conf.configured = false →
    exec (.tgbind i d) s = .next { s with sq := faultedSq s.sq 6 i.toNat } ∧
    exec (.tgen e) s = .next { s with sq := faultedSq s.sq 6 (0x200 + if e then 1 else 0) }

/-- `TGEN e` after `TGCFG` (R145): `TGEN 1` on a disabled output sets `EN` and the counters to (0, 0); `TGEN 0` on an
enabled one clears `EN` and the counters and drives the sync pins inactive; otherwise only `pc + 1`. -/
def Obligations.TgenCompletes : Prop :=
  ∀ s : State, HostRuns s → s.tg.conf.configured = true →
    let sq' := { s.sq with pc := s.sq.pc + 1 }
    (s.tg.conf.en = false →
      exec (.tgen true) s = .next { s with
        tg := { conf := { s.tg.conf with en := true }, scan := { s.tg.scan with hcnt := 0, vcnt := 0 } }, sq := sq' } ∧
      exec (.tgen false) s = .next { s with sq := sq' }) ∧
    (s.tg.conf.en = true →
      exec (.tgen true) s = .next { s with sq := sq' } ∧
      exec (.tgen false) s = .next { s with
        tg := { conf := { s.tg.conf with en := false }
                scan := { s.tg.scan with
                          hcnt := 0, vcnt := 0, hsync := !s.tg.conf.hspol, vsync := !s.tg.conf.vspol
                          de := !s.tg.conf.depol } }
        sq := sq' })

/-- What the timing generator's operations leave alone, whenever they answer a next state: the framer, the Panel State,
all three traces, the stream, the parameters, every byte of the framebuffer, the outside world's draws, and of `SQ`
all but `pc`, `FLT` and `FINFO` (R141, R143, R145, 90_conflicts.md C7). -/
def Obligations.TimingGeneratorFrame : Prop :=
  ∀ (s t : State) (i : Instr),
    ((∃ p bg, i = .tgcfg p bg) ∨ (∃ l d, i = .tgbind l d) ∨ (∃ e, i = .tgen e)) → exec i s = .next t →
    t.fr = s.fr ∧ t.gh = s.gh ∧ t.obs = s.obs ∧ t.ops = s.ops ∧ t.par = s.par ∧
    (∀ a, t.fb.byte? a = s.fb.byte? a) ∧ t.env = s.env ∧
    t.sq.inited = s.sq.inited ∧ t.sq.idx = s.sq.idx

/-! ### The scan -/

/-- The position lies in the active region (R146, R148). -/
def InActive (c : TgConf) (h v : Nat) : Prop :=
  c.hs.toNat + c.hbp.toNat ≤ h ∧ h < c.hs.toNat + c.hbp.toNat + c.aw.toNat ∧
  c.vs.toNat + c.vbp.toNat ≤ v ∧ v < c.vs.toNat + c.vbp.toNat + c.ah.toNat

/-- One scan step at the scanner's turn: the three pins at the level of their region, the sample recorded with the
clock's polarity, the counters advanced with wrap at `HTOTAL` and `VTOTAL`; `PIX` is some value (its value in the active
region is another statement's, outside it any); nothing else changes (R147, R148, R150, R151). Derived: the turn and the
count of draws are the model's (log 7, log 8). -/
def Obligations.ScanStepDrivesPinsAndCounters : Prop :=
  ∀ (s : State) (rest : List SchedEntry), TgInv s.tg → s.tg.conf.en = true →
    s.env.sched = .agent .scanner :: rest →
    let c := s.tg.conf
    let h := s.tg.scan.hcnt.toNat
    let v := s.tg.scan.vcnt.toNat
    ∃ (hsync vsync de : Level) (pix : Colour) (h' v' : BitVec 18),
      (hsync = if h < c.hs.toNat then c.hspol else !c.hspol) ∧
      (vsync = if v < c.vs.toNat then c.vspol else !c.vspol) ∧
      (InActive c h v → de = c.depol) ∧ (¬ InActive c h v → de = !c.depol) ∧
      (h + 1 < c.hs.toNat + c.hbp.toNat + c.aw.toNat + c.hfp.toNat → h'.toNat = h + 1 ∧ v'.toNat = v) ∧
      (¬ h + 1 < c.hs.toNat + c.hbp.toNat + c.aw.toNat + c.hfp.toNat →
        h'.toNat = 0 ∧
        v'.toNat = if v + 1 < c.vs.toNat + c.vbp.toNat + c.ah.toNat + c.vfp.toNat then v + 1 else 0) ∧
      step s = .next { s with
        tg := { s.tg with
                scan := { hcnt := h', vcnt := v', hsync := hsync, vsync := vsync, de := de
                          pclk := s.tg.scan.pclk, pix := pix } }
        obs := { s.obs with video := s.obs.video ++ [⟨hsync, vsync, de, c.pcpol, pix⟩] }
        env := { s.env with sched := rest, scanDraws := s.env.scanDraws + 1 } }

/-- The active coordinates (x, y) lie in the layer's window (R152). -/
def InWindow (l : Layer) (x y : Nat) : Prop :=
  l.x.toNat ≤ x ∧ x < l.x.toNat + l.w.toNat ∧ l.y.toNat ≤ y ∧ y < l.y.toNat + l.h.toNat

/-- `PIX` of a scan step in the active region: inside the bound layer's window the expanded little-endian pixel at
`FBADDR + 2 * (cy * W + cx)`; outside it the layer's colour where its alpha is 0xFF, else the background; the
background where no layer is bound (R152, R153, R155, 20_memory.md R42). Derived: an unlisted byte is the oracle's
(log 6). -/
def Obligations.ScanStepShowsThePixel : Prop :=
  ∀ (s : State) (rest : List SchedEntry) (x y : Nat), TgInv s.tg → s.tg.conf.en = true →
    s.env.sched = .agent .scanner :: rest →
    s.tg.scan.hcnt.toNat = s.tg.conf.hs.toNat + s.tg.conf.hbp.toNat + x → x < s.tg.conf.aw.toNat →
    s.tg.scan.vcnt.toNat = s.tg.conf.vs.toNat + s.tg.conf.vbp.toNat + y → y < s.tg.conf.ah.toNat →
    ∃ t, step s = .next t ∧ t.obs.video.getLast?.map Vid.pix = some t.tg.scan.pix ∧
      (∀ l, s.tg.conf.boundLayer = some l → InWindow l x y →
        let a := l.fbaddr.toNat + 2 * ((y - l.y.toNat) * l.w.toNat + (x - l.x.toNat))
        t.tg.scan.pix = expand565 (fbRead s.fb s.env.scanDraws (a + 1) ++ fbRead s.fb s.env.scanDraws a)) ∧
      (∀ l, s.tg.conf.boundLayer = some l → ¬ InWindow l x y →
        (l.dcol.toNat / 2 ^ 24 = 0xFF → t.tg.scan.pix.toNat = l.dcol.toNat % 2 ^ 24) ∧
        (l.dcol.toNat / 2 ^ 24 ≠ 0xFF → t.tg.scan.pix = s.tg.conf.bgc)) ∧
      (s.tg.conf.boundLayer = none → t.tg.scan.pix = s.tg.conf.bgc)

/-- `EXPAND565`: red is bits 15:11, green 10:5, blue 4:0, each channel followed by its own most significant bits
(R154, R156). Derived: the model fixes the configuration function at this value (log 21). -/
def Obligations.Expand565RepeatsTopBits : Prop :=
  ∀ p : Word,
    let r := p.toNat / 2 ^ 11
    let g := p.toNat / 2 ^ 5 % 2 ^ 6
    let b := p.toNat % 2 ^ 5
    (expand565 p).toNat = (r * 8 + r / 4) * 2 ^ 16 + (g * 4 + g / 16) * 2 ^ 8 + (b * 8 + b / 4)

/-- The number of scan steps in a frame. -/
def frameSteps (c : TgConf) : Nat :=
  (c.hs.toNat + c.hbp.toNat + c.aw.toNat + c.hfp.toNat) * (c.vs.toNat + c.vbp.toNat + c.ah.toNat + c.vfp.toNat)

/-- After `HTOTAL * VTOTAL` turns of an enabled scanner its counters are where they were, whatever the host's state
(R151, R163). -/
def Obligations.ScanIsPeriodic : Prop :=
  ∀ (s : State) (rest : List SchedEntry), TgInv s.tg → s.tg.conf.en = true →
    s.env.sched = List.replicate (frameSteps s.tg.conf) (.agent .scanner) ++ rest →
    ∃ t : State, Host.Core.run core (frameSteps s.tg.conf) s = .next t ∧
      t.tg.scan.hcnt = s.tg.scan.hcnt ∧ t.tg.scan.vcnt = s.tg.scan.vcnt ∧ t.tg.conf = s.tg.conf

/-- In one frame data enable is active for exactly `AW * AH` of the samples (R148). -/
def Obligations.FrameHasExactlyTheActiveSamples : Prop :=
  ∀ (s : State) (rest : List SchedEntry), TgInv s.tg → s.tg.conf.en = true →
    s.tg.scan.hcnt = 0 → s.tg.scan.vcnt = 0 →
    s.env.sched = List.replicate (frameSteps s.tg.conf) (.agent .scanner) ++ rest →
    ∃ (t : State) (samples : List Vid), Host.Core.run core (frameSteps s.tg.conf) s = .next t ∧
      t.obs.video = s.obs.video ++ samples ∧ samples.length = frameSteps s.tg.conf ∧
      (samples.filter (fun q => q.de == s.tg.conf.depol)).length = s.tg.conf.aw.toNat * s.tg.conf.ah.toNat

/-- `FbStable` (20_memory.md R52) as data: every byte of the layer's region is one the platform lists, so no scan step
draws it anew. -/
def RegionListed (m : Memory) (l : Layer) : Prop :=
  ∀ k < 2 * l.w.toNat * l.h.toNat, m.byte? (l.fbaddr.toNat + k) ≠ none

/-- The listed 16-bit pixel at a byte address, the byte at the lower address less significant (20_memory.md R42). -/
def listedPixel (m : Memory) (a : Nat) : Word := ((m.byte? (a + 1)).getD 0) ++ ((m.byte? a).getD 0)

/-- What one frame shows: with a bound layer that covers the active area and a stable region, the active samples of the
frame, in scan order, are the expanded pixels of the region in address order, and the counters are at (0, 0) again
(R162). Derived: `FbStable` in the model's form (log 6). -/
def Obligations.FrameShowsTheFramebuffer : Prop :=
  ∀ (s : State) (rest : List SchedEntry) (l : Layer), TgInv s.tg → s.tg.conf.en = true →
    s.tg.scan.hcnt = 0 → s.tg.scan.vcnt = 0 →
    s.tg.conf.boundLayer = some l → l.x = 0 → l.y = 0 → l.w = s.tg.conf.aw → l.h = s.tg.conf.ah →
    RegionListed s.fb l →
    s.env.sched = List.replicate (frameSteps s.tg.conf) (.agent .scanner) ++ rest →
    ∃ (t : State) (samples : List Vid), Host.Core.run core (frameSteps s.tg.conf) s = .next t ∧
      t.obs.video = s.obs.video ++ samples ∧ t.tg.scan.hcnt = 0 ∧ t.tg.scan.vcnt = 0 ∧
      (samples.filter (fun q => q.de == s.tg.conf.depol)).map Vid.pix =
        (List.range (l.w.toNat * l.h.toNat)).map (fun n => expand565 (listedPixel s.fb (l.fbaddr.toNat + 2 * n)))

/-- In every state that keeps the bind checks, the scanner never reads outside the framebuffer space: an enabled
scanner at its turn answers a next state (R153, R164). -/
def Obligations.ScannerStaysInsideTheFramebuffer : Prop :=
  ∀ s : State, TgInv s.tg →
    step s ≠ .fault .fbOutsideSpace ∧
    (s.tg.conf.en = true → ∀ rest, s.env.sched = .agent .scanner :: rest → ∃ t, step s = .next t)

/-! ### Faults (60_exceptions.md) -/

/-- A host with `FLT` set has no step, whatever the operation; nor has a host inside a stalled transaction (R193,
R194, R201). Derived: the names of the stops are the model's (log 10). -/
def Obligations.FaultedOrHungHostHasNoStep : Prop :=
  ∀ (s : State) (i : Instr),
    (s.sq.flt ≠ 0 → exec i s = .fault .hostFaulted) ∧
    (HostHung s → exec i s = .fault .hostHung) ∧
    (s.sq.flt ≠ 0 → s.env.sched = [] → s.tg.conf.en = false → step s = .fault .hostFaulted) ∧
    (HostHung s → s.env.sched = [] → s.tg.conf.en = false → step s = .fault .hostHung)

/-- A faulted or hung host stays exactly as it is until a reset, while an enabled scanner keeps stepping: no step
without a reset pulse changes the framer, `SQ`, the Panel State, `txn` or `wire`, and the scanner's turn still gives
a next state with one more video sample (R193, R194, R200, R201). -/
def Obligations.ScannerSurvivesAHostFault : Prop :=
  ∀ s : State, TgInv s.tg → (s.sq.flt ≠ 0 ∨ HostHung s) →
    (∀ s', s.env.sched.head? ≠ some .reset → step s = .next s' →
      s'.fr = s.fr ∧ s'.sq = s.sq ∧ s'.gh = s.gh ∧ s'.obs.txn = s.obs.txn ∧ s'.obs.wire = s.obs.wire ∧
      s'.tg.conf = s.tg.conf) ∧
    (s.tg.conf.en = true → (s.env.sched = [] ∨ ∃ a rest, s.env.sched = .agent a :: rest) →
      ∃ s' q, step s = .next s' ∧ s'.obs.video = s.obs.video ++ [q])

/-- No step but a reset pulse clears `FLT`, `INITED`, `CONFIGURED` or the `BOUND` of a slot, or changes a configuration
that is set: once `CONFIGURED`, the counts, polarities and background stay, and so does a bound layer
(70_reset_and_hazards.md R210; 42_timing_generator.md R140). -/
def Obligations.OnlyResetClears : Prop :=
  ∀ s s' : State, step s = .next s' → s.env.sched.head? ≠ some .reset →
    (s.sq.flt ≠ 0 → s'.sq.flt = s.sq.flt ∧ s'.sq.finfo = s.sq.finfo) ∧
    (s.sq.inited = true → s'.sq.inited = true) ∧
    (s.tg.conf.configured = true →
      s'.tg.conf.configured = true ∧
      { s'.tg.conf with en := s.tg.conf.en, layer0 := s.tg.conf.layer0, layer1 := s.tg.conf.layer1 } = s.tg.conf) ∧
    (s.tg.conf.layer0.bound = true → s'.tg.conf.layer0 = s.tg.conf.layer0) ∧
    (s.tg.conf.layer1.bound = true → s'.tg.conf.layer1 = s.tg.conf.layer1)

/-! ### Whole-machine rules -/

/-- Each status flag is written only by the operation named in its rule: `INITED` by `INIT`, `CONFIGURED` by `TGCFG`,
`EN` by `TGEN`, `BOUND` by `TGBIND` (10_state.md R19, 60_exceptions.md R202). -/
def Obligations.FlagsWrittenOnlyByTheirOperation : Prop :=
  ∀ (s t : State) (i : Instr), exec i s = .next t →
    (t.sq.inited ≠ s.sq.inited → i = .init) ∧
    (t.tg.conf.configured ≠ s.tg.conf.configured → ∃ p bg, i = .tgcfg p bg) ∧
    (t.tg.conf.en ≠ s.tg.conf.en → ∃ e, i = .tgen e) ∧
    (t.tg.conf.layer0.bound ≠ s.tg.conf.layer0.bound → ∃ d, i = .tgbind 0 d) ∧
    (t.tg.conf.layer1.bound ≠ s.tg.conf.layer1.bound → ∃ d, i = .tgbind 1 d)

/-- An operation that completes adds its own length in words to `pc`; one that faults or hangs leaves `pc` at its first
word (10_state.md R16). -/
def Obligations.PcAdvancesByTheLength : Prop :=
  ∀ (s t : State) (i : Instr), exec i s = .next t →
    (t.sq.flt = 0 ∧ t.fr.phase = .idle → t.sq.pc = s.sq.pc + i.words) ∧
    (¬ (t.sq.flt = 0 ∧ t.fr.phase = .idle) → t.sq.pc = s.sq.pc)

/-- No step ever changes the operation stream or the parameters, `INIT_PROGRAM` among them (10_state.md R28,
20_memory.md R50). -/
def Obligations.StreamAndProgramAreImmutable : Prop :=
  ∀ s s' : State, step s = .next s' → s'.ops = s.ops ∧ s'.par = s.par

/-- The hardware never writes the framebuffer: no step without an outside write changes a byte of it (20_memory.md R44,
42_timing_generator.md R161). -/
def Obligations.HardwareNeverWritesTheFramebuffer : Prop :=
  ∀ s s' : State, step s = .next s' → (∀ n v, s.env.sched.head? ≠ some (.fbWrite n v)) →
    ∀ a, s'.fb.byte? a = s.fb.byte? a

/-- An outside write of the pixel with halfword index `n` changes exactly the bytes `2n` and `2n + 1`, low byte first;
every other byte reads as before, and nothing else but the schedule changes (20_memory.md R42, R52; log 6). -/
def Obligations.OutsideWriteChangesOnePixel : Prop :=
  ∀ (s : State) (n : BitVec 31) (v : Word) (rest : List SchedEntry),
    s.fb.wf = true → s.env.sched = .fbWrite n v :: rest →
    ∃ m : Memory, step s = .next { s with fb := m, env := { s.env with sched := rest } } ∧
      (m.byte? (2 * n.toNat)).map BitVec.toNat = some (v.toNat % 256) ∧
      (m.byte? (2 * n.toNat + 1)).map BitVec.toNat = some (v.toNat / 256) ∧
      ∀ a, a ≠ 2 * n.toNat → a ≠ 2 * n.toNat + 1 → m.byte? a = s.fb.byte? a

/-- Host and scanner share no written element: the host's step and the scanner's step give the same state in either
order, and a next state, unless the operation is `TGBIND` or `TGEN`, which change what the scanner reads (10_state.md
R10). -/
def Obligations.HostAndScannerCommute : Prop :=
  ∀ (s : State) (rest : List SchedEntry), TgInv s.tg → s.tg.conf.en = true → HostRuns s →
    s.sq.pc < s.ops.length →
    (∀ i n, decode (s.ops.drop s.sq.pc) = .ok i n → (∀ l d, i ≠ .tgbind l d) ∧ (∀ e, i ≠ .tgen e)) →
    ∃ t : State,
      Host.Core.run core 2 { s with env := { s.env with sched := .agent .host :: .agent .scanner :: rest } } = .next t ∧
      Host.Core.run core 2 { s with env := { s.env with sched := .agent .scanner :: .agent .host :: rest } } = .next t

/-! ### Invariants -/

/-- Every step keeps the timing generator's invariant (42_timing_generator.md R142, R144, R151; 10_state.md R24, R25). -/
def Obligations.TimingInvariantKept : Prop :=
  ∀ s s' : State, TgInv s.tg → step s = .next s' → TgInv s'.tg

/-- Every step keeps the framer's and the host's invariant (40_framer_ops.md R88; 10_state.md R16 to R18, R30;
41_sequencer_ops.md R120). -/
def Obligations.HostInvariantKept : Prop :=
  ∀ s s' : State, HostInv s → step s = .next s' → HostInv s'

/-- Every step keeps the canonical form of the framebuffer's list. Derived: the form is the model's (log 6). -/
def Obligations.FramebufferFormKept : Prop :=
  ∀ s s' : State, s.fb.wf = true → step s = .next s' → s'.fb.wf = true

/-- The reset state has every invariant. -/
def Obligations.InvariantsHoldAtReset : Prop :=
  TgInv State.reset.tg ∧ HostInv State.reset ∧ WireMatches State.reset ∧ State.reset.fb.wf = true

/-! ### Reset (70_reset_and_hazards.md) -/

/-- What a reset leaves, wherever it arrives: every value R211 gives (`RXSR` and `PIX` it leaves open). Derived: that the
pulse begins a run with empty traces is the model's reading (log 9). -/
def Obligations.ResetValues : Prop :=
  ∀ (s : State) (rest : List SchedEntry), s.env.sched = .reset :: rest →
    ∃ t, step s = .next t ∧
      t.fr.dc = true ∧ t.fr.cs = true ∧ t.fr.sck = false ∧ t.fr.mosi = false ∧
      t.fr.txsr = 0 ∧ t.fr.bitcnt = 0 ∧ t.fr.phase = .idle ∧ t.fr.kind = .dat ∧
      t.sq = ⟨0, false, 0, 0, 0⟩ ∧
      t.tg.conf = ⟨false, false, 0, 0, 0, 0, 0, 0, 0, 0, false, false, false, false, 0,
        ⟨false, 0, 0, 0, 0, 0, 0, 0⟩, ⟨false, 0, 0, 0, 0, 0, 0, 0⟩⟩ ∧
      t.tg.scan.hcnt = 0 ∧ t.tg.scan.vcnt = 0 ∧ t.tg.scan.hsync = true ∧ t.tg.scan.vsync = true ∧
      t.tg.scan.de = true ∧ t.tg.scan.pclk = false ∧ t.gh = .reset ∧ t.obs = ⟨[], [], []⟩ ∧ t.spicfg = s.spicfg

/-- The state right after reset: every value R211 gives (`RXSR` and `PIX` it leaves open), every numbered register but
`SPICFG` reading 0 by its index, nothing on the traces. Derived: the empty operation stream is the model's choice
(log 1). -/
def Obligations.ResetStateValues : Prop :=
  State.reset.fr.pins = ⟨true, true, false, false⟩ ∧ State.reset.fr.phase = .idle ∧ State.reset.fr.txsr = 0 ∧
  State.reset.fr.bitcnt = 0 ∧ State.reset.fr.kind = .dat ∧
  State.reset.sq = ⟨0, false, 0, 0, 0⟩ ∧
  State.reset.tg.conf = ⟨false, false, 0, 0, 0, 0, 0, 0, 0, 0, false, false, false, false, 0,
    ⟨false, 0, 0, 0, 0, 0, 0, 0⟩, ⟨false, 0, 0, 0, 0, 0, 0, 0⟩⟩ ∧
  State.reset.tg.scan = ⟨0, 0, true, true, true, false, State.reset.tg.scan.pix⟩ ∧
  (∀ k, 1 ≤ k ∧ k ≤ 20 ∨ 32 ≤ k ∧ k < 48 → State.reset.register k = some 0) ∧
  State.reset.gh = .reset ∧ State.reset.obs = ⟨[], [], []⟩ ∧ State.reset.ops = []

/-- `SPICFG` is hardwired: master, full-duplex, 8-bit frames, clock idle-low, first-edge sample, software slave-select,
most significant bit first, in bits 6:0, and the parameter `BR_DIV`, even and at least 2, in bits 15:8 where it fits
them; no step changes it (10_state.md R15). Derived: the places of the fields are the spec's own decision (D5, D6);
bit 7 (log 27) and the field for a divisor of 256 or more (log 19) are free values, of which nothing is said. -/
def Obligations.SpicfgIsHardwired : Prop :=
  (∀ s : State, s.spicfg.toNat % 128 = 0x23 ∧ (s.par.raw.brDiv < 256 → s.spicfg.toNat / 256 = s.par.raw.brDiv) ∧
    s.par.raw.brDiv % 2 = 0 ∧ 2 ≤ s.par.raw.brDiv) ∧
  ∀ s s' : State, step s = .next s' → s'.spicfg = s.spicfg
end

