-- ==== Sys2Proof/Laws/InitProgram.lean ====
section
/-! SUPPORT. What every admissible initialization program looks like (41_sequencer_ops.md R112 to R116): its
entries stand stage by stage, and each stage from 6 on is what R113 to R116 make it. -/

namespace Sys2Proof.Machine

/-! ### A list in stage order is the stages one after the other -/

/-- The entries of stage `k`. -/
def stageEntries (l : List RomEntry) (k : Nat) : List RomEntry := l.filter (fun e => e.stage == k)

theorem split_lowest (a : Nat) (l : List RomEntry) (hs : (l.map RomEntry.stage).Pairwise (· ≤ ·))
    (ha : ∀ e ∈ l, a ≤ e.stage) :
    l = stageEntries l a ++ l.filter (fun e => decide (a < e.stage)) := by
  induction l with
  | nil => rfl
  | cons e l ih =>
    simp only [List.map_cons, List.pairwise_cons, List.mem_map, forall_exists_index, and_imp,
      forall_apply_eq_imp_iff₂] at hs
    have hl := ih hs.2 (fun x hx => ha x (List.mem_cons_of_mem _ hx))
    by_cases he : e.stage = a
    · simp only [stageEntries, List.filter_cons, he, beq_self_eq_true, if_true, Nat.lt_irrefl, decide_false,
        Bool.false_eq_true, if_false, List.cons_append]
      rw [← stageEntries, ← hl]
    · have hlt : a < e.stage := Nat.lt_of_le_of_ne (ha e (List.mem_cons_self ..)) (Ne.symm he)
      have hno : stageEntries (e :: l) a = [] := by
        simp only [stageEntries, List.filter_eq_nil_iff, beq_iff_eq]
        intro x hx
        rcases List.mem_cons.mp hx with rfl | hx
        · exact he
        · have := hs.1 x hx; omega
      have hall : (e :: l).filter (fun e => decide (a < e.stage)) = e :: l := by
        simp only [List.filter_eq_self, decide_eq_true_eq]
        intro x hx
        rcases List.mem_cons.mp hx with rfl | hx
        · exact hlt
        · have := hs.1 x hx; omega
      rw [hno, hall]; rfl

theorem stages_in_turn (n a : Nat) (l : List RomEntry) (hs : (l.map RomEntry.stage).Pairwise (· ≤ ·))
    (ha : ∀ e ∈ l, a ≤ e.stage ∧ e.stage < a + n) : l = (List.range' a n).flatMap (stageEntries l) := by
  induction n generalizing a l with
  | zero =>
    cases l with
    | nil => rfl
    | cons e l => have := ha e (List.mem_cons_self ..); omega
  | succ n ih =>
    have hsplit := split_lowest a l hs (fun e he => (ha e he).1)
    have hrest := ih (a + 1) (l.filter (fun e => decide (a < e.stage)))
      (hs.sublist ((List.filter_sublist).map _))
      (fun e he => by
        simp only [List.mem_filter, decide_eq_true_eq] at he
        have := ha e he.1; omega)
    rw [List.range'_succ, List.flatMap_cons]
    rw [List.flatMap_congr (g := stageEntries l)] at hrest
    · rw [← hrest]; exact hsplit
    · intro k hk
      have hk : a + 1 ≤ k := (List.mem_range'_1.mp hk).1
      simp only [stageEntries, List.filter_filter]
      apply List.filter_congr
      intro e _
      by_cases h : e.stage = k <;> simp [h]; omega

/-! ### The extra entries of a stage -/

/-- Every entry is one that stage `k` may hold beside those R113 lists. -/
def Extras (t : Selectors) (k : Nat) (ops : List InitOp) : Prop := ∀ op ∈ ops, isExtra t k op = true

@[simp] theorem isExtra_settle (t : Selectors) (k : Nat) (w : SettleId) : isExtra t k (.settle w) = false := rfl

/-- A register R113's table names is no extra one. -/
theorem isExtra_listed {t : Selectors} {s : Sel} (hs : s ∈ listedSels) (k : Nat) (payload : List Byte) :
    isExtra t k (.reg (t.byte s) payload) = false := by
  have : t.byte s ∈ listedSels.map t.byte := List.mem_map_of_mem hs
  simp only [isExtra, List.contains_eq_mem, this, decide_true, Bool.not_true, Bool.false_and]

/-- An extra entry selects a register that R113's table does not name and that is not `SEL_RESET`; it selects
`SEL_PIXEL_FORMAT` before stage 8 only. -/
theorem isExtra_cases {t : Selectors} {k : Nat} {op : InitOp} (h : isExtra t k op = true) :
    ∃ sel payload, op = .reg sel payload ∧ sel ∉ listedSels.map t.byte ∧ sel ≠ t.softReset ∧
      (sel = t.pixelFormat → k < 8) := by
  cases op with
  | settle w => cases h
  | reg sel payload =>
    simp only [isExtra, Bool.and_eq_true, Bool.not_eq_true', List.contains_eq_mem, decide_eq_false_iff_not, bne_iff_ne,
      Bool.or_eq_true, decide_eq_true_eq, Selectors.byte] at h
    exact ⟨sel, payload, rfl, h.1.1, h.1.2, fun he => h.2.resolve_left (absurd he)⟩

theorem extras_of_listedOps_nil {t : Selectors} {k : Nat} {ops : List InitOp} (h : listedOps t k ops = []) :
    Extras t k ops := by
  intro op hop
  simpa using List.filter_eq_nil_iff.mp h op hop

theorem listedOps_of_extras {t : Selectors} {k : Nat} {ops : List InitOp} (h : Extras t k ops) :
    listedOps t k ops = [] :=
  List.filter_eq_nil_iff.mpr fun op hop => by simp [h op hop]

theorem listedOps_append (t : Selectors) (k : Nat) (a b : List InitOp) :
    listedOps t k (a ++ b) = listedOps t k a ++ listedOps t k b := List.filter_append ..

/-- Up to the first entry that is not extra, a stage holds extra entries only. -/
theorem listedOps_eq_cons {t : Selectors} {k : Nat} {ops l : List InitOp} {op : InitOp}
    (h : listedOps t k ops = op :: l) :
    ∃ pre rest, ops = pre ++ op :: rest ∧ Extras t k pre ∧ listedOps t k rest = l := by
  obtain ⟨pre, rest, he, hpre, _, hl⟩ := List.filter_eq_cons_iff.mp h
  exact ⟨pre, rest, he, fun x hx => by simpa using hpre x hx, hl⟩

theorem settle_mem_listedOps {t : Selectors} {k : Nat} {ops : List InitOp} {w : SettleId}
    (h : InitOp.settle w ∈ ops) : InitOp.settle w ∈ listedOps t k ops :=
  List.mem_filter.mpr ⟨h, rfl⟩

/-- The extra entries as selectors with their payloads. -/
theorem Extras.registers {t : Selectors} {k : Nat} {ops : List InitOp} (h : Extras t k ops) :
    ∃ regs : List (Byte × List Byte), ops = regs.map (fun e => .reg e.1 e.2) ∧
      ∀ e ∈ regs, e.1 ∉ listedSels.map t.byte ∧ e.1 ≠ t.softReset ∧ (e.1 = t.pixelFormat → k < 8) := by
  induction ops with
  | nil => exact ⟨[], rfl, by simp⟩
  | cons op ops ih =>
    obtain ⟨sel, payload, rfl, hsel⟩ := isExtra_cases (h op (List.mem_cons_self ..))
    obtain ⟨regs, rfl, hr⟩ := ih (fun x hx => h x (List.mem_cons_of_mem _ hx))
    exact ⟨(sel, payload) :: regs, rfl, List.forall_mem_cons.mpr ⟨hsel, hr⟩⟩

/-! ### The stages of an admissible program -/

/-- What the checks of R112 to R116 say of a program, clause by clause. -/
structure ProgramFacts (t : Selectors) (ngammaLen : Nat) (program : List RomEntry) : Prop where
  sorted : (program.map RomEntry.stage).Pairwise (· ≤ ·)
  numbers : ∀ e ∈ program, 1 ≤ e.stage ∧ e.stage < 13
  first : program.head? = some ⟨1, .reg 0xCA unlockBytes⟩
  anyOrder : ∀ k, 1 ≤ k → k ≤ 5 → allRegs (stageOps program k) = true ∧
    (regSels (listedOps t k (stageOps program k))).Perm ((stageSels k).map t.byte)
  six : listedOps t 6 (stageOps program 6) =
    [.reg t.columnAddr (windowBytes Config.panelW), .reg t.pageAddr (windowBytes Config.panelH)]
  seven : allRegs (stageOps program 7) = true ∧ regSels (listedOps t 7 (stageOps program 7)) = [t.interfaceCtl]
  eight : ∃ pre post, stageOps program 8 = pre ++ [.reg 0x2C [], .settle .first] ++ post ∧
    Extras t 8 pre ∧ Extras t 8 post
  nine : ∃ g pos neg, listedOps t 9 (stageOps program 9) =
    [.reg t.gamma g, .reg t.pgamma pos, .reg t.ngamma neg] ∧ pos.length = 15 ∧ neg.length = ngammaLen
  ten : ∃ pre post, stageOps program 10 = pre ++ [.reg t.sleepOut [], .settle .second] ++ post ∧
    Extras t 10 pre ∧ Extras t 10 post
  eleven : listedOps t 11 (stageOps program 11) = [.reg t.displayOn []]
  twelve : listedOps t 12 (stageOps program 12) = [.reg 0x2C []]
  last : program.getLast? = some ⟨12, .reg 0x2C []⟩

/-- The select and its settle entry stand side by side, with extra entries around them. -/
theorem selectThenSettle_split {t : Selectors} {program : List RomEntry} {k : Nat} {sel : Sel} {w : SettleId}
    (h : selectThenSettle t program k sel w = true) :
    ∃ pre post, stageOps program k = pre ++ [.reg (t.byte sel) [], .settle w] ++ post ∧
      Extras t k pre ∧ Extras t k post := by
  unfold selectThenSettle at h
  split at h
  · rename_i x y rest heq
    simp only [Bool.and_eq_true, beq_iff_eq, List.all_eq_true] at h
    obtain ⟨⟨rfl, rfl⟩, hrest⟩ := h
    refine ⟨(stageOps program k).takeWhile (isExtra t k), rest, ?_, fun op hop => ?_, hrest⟩
    · conv => lhs; rw [← List.takeWhile_append_dropWhile (p := isExtra t k) (l := stageOps program k), heq]
      simp
    · exact List.mem_takeWhile_imp hop
  · cases h

theorem programFacts {t : Selectors} {n : Nat} {program : List RomEntry} (h : programOk t n program = true) :
    ProgramFacts t n program := by
  simp only [programOk, Bool.and_eq_true, stagesInOrder, firstIsUnlock, lastIsGram, stage6Ok, stage7Ok,
    stageSelectOnly, beq_iff_eq, decide_eq_true_eq, List.all_eq_true, Selectors.byte, List.contains_eq_mem] at h
  obtain ⟨⟨⟨⟨⟨⟨⟨⟨⟨⟨⟨hn, hs⟩, h1⟩, h5⟩, h6⟩, h7⟩, h8⟩, h9⟩, h10⟩, h11⟩, h12⟩, hlast⟩ := h
  refine ⟨hs, ?_, h1, ?_, h6, ⟨h7.1, h7.2⟩, selectThenSettle_split h8, ?_, selectThenSettle_split h10, h11, h12, hlast⟩
  · intro e he
    have := hn e he
    simp only [stageNumbers, List.mem_cons, List.not_mem_nil, or_false] at this
    omega
  · intro k hk1 hk5
    have := h5 k (by simp only [List.mem_cons, List.not_mem_nil, or_false]; omega)
    simpa only [stageInAnyOrder, Bool.and_eq_true, List.isPerm_iff] using this
  · unfold stage9Ok at h9
    split at h9
    · rename_i a g b pos c neg heq
      simp only [Bool.and_eq_true, beq_iff_eq, Selectors.byte, Config.pgammaLen] at h9
      obtain ⟨⟨⟨⟨rfl, rfl⟩, rfl⟩, hp⟩, hq⟩ := h9
      exact ⟨g, pos, neg, heq, hp, hq⟩
    · cases h9

/-- A select and its settle entry with extra entries around them: the select is the one listed register. -/
theorem listedOps_pair {t : Selectors} {k : Nat} {s : Sel} {w : SettleId} {pre post ops : List InitOp}
    (hs : s ∈ listedSels) (h : ops = pre ++ [.reg (t.byte s) [], .settle w] ++ post) (hpre : Extras t k pre)
    (hpost : Extras t k post) : listedOps t k ops = [.reg (t.byte s) [], .settle w] := by
  rw [h, listedOps_append, listedOps_append, listedOps_of_extras hpre, listedOps_of_extras hpost]
  simp [listedOps, isExtra_listed hs]

/-- Each stage holds the registers R113 lists for it, each once, and of the others extra ones only. -/
theorem ProgramFacts.listed {t : Selectors} {n : Nat} {program : List RomEntry} (F : ProgramFacts t n program)
    (k : Nat) (h1 : 1 ≤ k) (h12 : k < 13) :
    (regSels (listedOps t k (stageOps program k))).Perm ((stageSels k).map t.byte) := by
  by_cases h5 : k ≤ 5
  · exact (F.anyOrder k h1 h5).2
  · obtain ⟨g, pos, neg, h9, _, _⟩ := F.nine
    obtain ⟨x, y, h8, hx, hy⟩ := F.eight
    obtain ⟨u, v, h10, hu, hv⟩ := F.ten
    have : k = 6 ∨ k = 7 ∨ k = 8 ∨ k = 9 ∨ k = 10 ∨ k = 11 ∨ k = 12 := by omega
    rcases this with rfl | rfl | rfl | rfl | rfl | rfl | rfl
    · rw [F.six]; exact .refl _
    · rw [F.seven.2]; exact .refl _
    · rw [listedOps_pair (s := .gram) (by decide) h8 hx hy]; exact .refl _
    · rw [h9]; exact .refl _
    · rw [listedOps_pair (s := .sleepOut) (by decide) h10 hu hv]; exact .refl _
    · rw [F.eleven]; exact .refl _
    · rw [F.twelve]; exact .refl _

/-- What the checks of R6, R71 and R112 to R116 say of the parameters. -/
structure ParamFacts (r : RawParams) : Prop where
  divisor : 2 ≤ r.brDiv ∧ r.brDiv % 2 = 0
  settle1 : 5 ≤ r.settle1
  settle2 : 120 ≤ r.settle2
  selectors : (Sel.all.map r.sel.byte).Nodup
  program : ProgramFacts r.sel r.ngammaLen r.program

theorem paramFacts (p : Params) : ParamFacts p.raw := by
  have h := p.ok
  simp only [paramsOk, Bool.and_eq_true, brDivOk, decide_eq_true_eq, beq_iff_eq, selectorsOk, Config.settle1Min,
    Config.settle2Min] at h
  obtain ⟨⟨⟨⟨hb, h1⟩, h2⟩, hsel⟩, hp⟩ := h
  exact ⟨hb, of_decide_eq_true h1, of_decide_eq_true h2, hsel, programFacts hp⟩

theorem program_stages (p : Params) :
    p.raw.program = (List.range' 1 12).flatMap (stageEntries p.raw.program) :=
  stages_in_turn 12 1 _ (paramFacts p).program.sorted (paramFacts p).program.numbers

/-- Distinct selectors have distinct values (30_encoding.md R71). -/
theorem selector_inj (p : Params) {a b : Sel} (h : p.raw.sel.byte a = p.raw.sel.byte b) : a = b :=
  List.inj_on_of_nodup_map (paramFacts p).selectors (by cases a <;> decide) (by cases b <;> decide) h

/-- An entry's selector is among the selectors of its list. -/
theorem mem_regSels {ops : List InitOp} {sel : Byte} {payload : List Byte} (h : InitOp.reg sel payload ∈ ops) :
    sel ∈ regSels ops := by
  induction ops with
  | nil => cases h
  | cons op ops ih =>
    rcases List.mem_cons.mp h with rfl | h'
    · exact List.mem_cons_self ..
    · cases op with
      | reg x p => exact List.mem_cons_of_mem _ (ih h')
      | settle w => exact ih h'

/-- The registers a part of the program sends are, of the selectors of its entries that are not extra, those R113's
table names. -/
theorem sentRegisters_eq (r : RawParams) (k : Nat) (part : List RomEntry) :
    sentRegisters r part =
      (regSels (listedOps r.sel k (part.map RomEntry.op))).filter (fun x => x ∈ listedSels.map r.sel.byte) := by
  induction part with
  | nil => rfl
  | cons e part ih =>
    simp only [sentRegisters, listedOps, List.map_cons, List.filterMap_cons, List.filter_cons] at ih ⊢
    rcases e with ⟨j, ⟨sel, payload⟩ | w⟩
    · by_cases hl : sel ∈ listedSels.map r.sel.byte
      · obtain ⟨s, hs, rfl⟩ := List.mem_map.mp hl
        simp only [isExtra_listed hs, hl, Bool.not_false, if_true, regSels, List.filter_cons, decide_true, ih]
      · simp only [hl, if_false]
        split
        · simp only [regSels, List.filter_cons, hl, decide_false, Bool.false_eq_true, if_false, ih]
        · exact ih
    · simpa [regSels] using ih

/-- The registers stage `k` sends of those R113's table names: its own, each once. -/
theorem sentRegisters_stage (p : Params) (k : Nat) (h1 : 1 ≤ k) (h12 : k < 13) :
    sentRegisters p.raw (stageEntries p.raw.program k) =
      regSels (listedOps p.raw.sel k (stageOps p.raw.program k)) := by
  rw [sentRegisters_eq p.raw k]
  refine List.filter_eq_self.mpr fun x hx => ?_
  rw [show (stageEntries p.raw.program k).map RomEntry.op = stageOps p.raw.program k from rfl] at hx
  have hx := ((paramFacts p).program.listed k h1 h12).mem_iff.mp hx
  obtain ⟨s, hs, rfl⟩ := List.mem_map.mp hx
  refine decide_eq_true (List.mem_map_of_mem (List.mem_flatMap.mpr ⟨k, ?_, hs⟩))
  simp only [stageNumbers, List.mem_cons, List.not_mem_nil, or_false]
  omega

/-! ### What the entries append to `txn` -/

/-- What an entry appends depends on what it does, not on its stage tag. -/
def opTxns (r : RawParams) : InitOp → List TxnEntry
  | .reg sel payload => .txn .cmd sel :: payload.map (.txn .dat)
  | .settle .first => [.settle r.settle1]
  | .settle .second => [.settle r.settle2]

theorem entryTxns_eq (r : RawParams) (e : RomEntry) : entryTxns r e = opTxns r e.op := by
  unfold entryTxns opTxns
  rcases e with ⟨k, op⟩
  rcases op with ⟨sel, payload⟩ | w
  · rfl
  · cases w <;> rfl

/-- What the entries of stage `k` append. -/
def stageTxns (r : RawParams) (k : Nat) : List TxnEntry := (stageOps r.program k).flatMap (opTxns r)

theorem stageTxns_eq (r : RawParams) (k : Nat) :
    (stageEntries r.program k).flatMap (entryTxns r) = stageTxns r k := by
  simp only [stageTxns, stageOps, stageEntries, List.flatMap_map]
  congr 1

theorem programTxns_stages (p : Params) :
    programTxns p.raw = (List.range' 1 12).flatMap (stageTxns p.raw) := by
  rw [programTxns, program_stages p, List.flatMap_assoc]
  congr 1
  funext k
  exact stageTxns_eq p.raw k

theorem no_settle_of_allRegs (r : RawParams) (ops : List InitOp) (h : allRegs ops = true) (ms : Nat) :
    TxnEntry.settle ms ∉ ops.flatMap (opTxns r) := by
  induction ops with
  | nil => simp
  | cons op ops ih =>
    cases op with
    | reg sel payload =>
      simp only [allRegs] at h
      simp [opTxns, ih h]
    | settle w => simp [allRegs] at h

theorem allRegs_of_no_settle (ops : List InitOp) (h : ∀ w, InitOp.settle w ∉ ops) : allRegs ops = true := by
  induction ops with
  | nil => rfl
  | cons op ops ih =>
    cases op with
    | reg sel payload => exact ih (fun w hw => h w (List.mem_cons_of_mem _ hw))
    | settle w => exact absurd (List.mem_cons_self ..) (h w)

/-- Stages 1 to 7 hold register entries only. -/
theorem setup_allRegs (p : Params) (k : Nat) (h1 : 1 ≤ k) (h7 : k ≤ 7) :
    allRegs (stageOps p.raw.program k) = true := by
  have F := (paramFacts p).program
  by_cases h5 : k ≤ 5
  · exact (F.anyOrder k h1 h5).1
  · by_cases h6 : k = 6
    · subst h6
      refine allRegs_of_no_settle _ (fun w hw => ?_)
      have hm := settle_mem_listedOps (t := p.raw.sel) (k := 6) hw
      rw [F.six] at hm
      simp at hm
    · have : k = 7 := by omega
      subst this
      exact F.seven.1

/-- The last entry's tag is 12. -/
theorem program_ends_twelve (p : Params) : ∃ init, p.raw.program = init ++ [⟨12, .reg 0x2C []⟩] :=
  List.getLast?_eq_some_iff.mp (paramFacts p).program.last

/-- Stage 12 is extra entries and the GRAM select after them (R114). -/
theorem stage_twelve (p : Params) :
    ∃ pre, stageOps p.raw.program 12 = pre ++ [.reg 0x2C []] ∧ Extras p.raw.sel 12 pre := by
  obtain ⟨init, hi⟩ := program_ends_twelve p
  have hs : stageOps p.raw.program 12 = stageOps init 12 ++ [.reg 0x2C []] := by rw [hi]; simp [stageOps]
  refine ⟨_, hs, extras_of_listedOps_nil (t := p.raw.sel) ?_⟩
  have h := (paramFacts p).program.twelve
  rw [hs, listedOps_append, show listedOps p.raw.sel 12 [.reg 0x2C []] = [.reg 0x2C []] from
    List.filter_eq_self.mpr fun op hop => by
      rw [List.mem_singleton.mp hop]
      exact congrArg not (isExtra_listed (t := p.raw.sel) (s := .gram) (by decide) 12 [])] at h
  simpa using h

end Sys2Proof.Machine
end

