-- ==== Sys2Proof/Laws/State.lean ====
section
/-! SUPPORT. One lemma per field and per named update of the state, true by rfl, so that no later proof
unfolds a record update. -/

namespace Sys2Proof.Machine

/-! ### emitWire -/

@[simp] theorem State.emitWire_fr (s : State) : s.emitWire.fr = s.fr := rfl
@[simp] theorem State.emitWire_sq (s : State) : s.emitWire.sq = s.sq := rfl
@[simp] theorem State.emitWire_tg (s : State) : s.emitWire.tg = s.tg := rfl
@[simp] theorem State.emitWire_gh (s : State) : s.emitWire.gh = s.gh := rfl
@[simp] theorem State.emitWire_obs (s : State) : s.emitWire.obs =
    { s.obs with wire := s.obs.wire ++ [⟨s.fr.dc, s.fr.cs, s.fr.sck, s.fr.mosi⟩] } := rfl
@[simp] theorem State.emitWire_ops (s : State) : s.emitWire.ops = s.ops := rfl
@[simp] theorem State.emitWire_par (s : State) : s.emitWire.par = s.par := rfl
@[simp] theorem State.emitWire_fb (s : State) : s.emitWire.fb = s.fb := rfl
@[simp] theorem State.emitWire_env (s : State) : s.emitWire.env = s.env := rfl

/-! ### emitTxn -/

@[simp] theorem State.emitTxn_fr (e : TxnEntry) (s : State) : (s.emitTxn e).fr = s.fr := rfl
@[simp] theorem State.emitTxn_sq (e : TxnEntry) (s : State) : (s.emitTxn e).sq = s.sq := rfl
@[simp] theorem State.emitTxn_tg (e : TxnEntry) (s : State) : (s.emitTxn e).tg = s.tg := rfl
@[simp] theorem State.emitTxn_gh (e : TxnEntry) (s : State) : (s.emitTxn e).gh = s.gh := rfl
@[simp] theorem State.emitTxn_obs (e : TxnEntry) (s : State) : (s.emitTxn e).obs = { s.obs with txn := s.obs.txn ++ [e] } := rfl
@[simp] theorem State.emitTxn_ops (e : TxnEntry) (s : State) : (s.emitTxn e).ops = s.ops := rfl
@[simp] theorem State.emitTxn_par (e : TxnEntry) (s : State) : (s.emitTxn e).par = s.par := rfl
@[simp] theorem State.emitTxn_fb (e : TxnEntry) (s : State) : (s.emitTxn e).fb = s.fb := rfl
@[simp] theorem State.emitTxn_env (e : TxnEntry) (s : State) : (s.emitTxn e).env = s.env := rfl

/-! ### emitVideo -/

@[simp] theorem State.emitVideo_fr (e : Vid) (s : State) : (s.emitVideo e).fr = s.fr := rfl
@[simp] theorem State.emitVideo_sq (e : Vid) (s : State) : (s.emitVideo e).sq = s.sq := rfl
@[simp] theorem State.emitVideo_tg (e : Vid) (s : State) : (s.emitVideo e).tg = s.tg := rfl
@[simp] theorem State.emitVideo_gh (e : Vid) (s : State) : (s.emitVideo e).gh = s.gh := rfl
@[simp] theorem State.emitVideo_obs (e : Vid) (s : State) : (s.emitVideo e).obs = { s.obs with video := s.obs.video ++ [e] } := rfl
@[simp] theorem State.emitVideo_ops (e : Vid) (s : State) : (s.emitVideo e).ops = s.ops := rfl
@[simp] theorem State.emitVideo_par (e : Vid) (s : State) : (s.emitVideo e).par = s.par := rfl
@[simp] theorem State.emitVideo_fb (e : Vid) (s : State) : (s.emitVideo e).fb = s.fb := rfl
@[simp] theorem State.emitVideo_env (e : Vid) (s : State) : (s.emitVideo e).env = s.env := rfl

/-! ### writeDc -/

@[simp] theorem State.writeDc_fr (l : Level) (s : State) : (s.writeDc l).fr = { s.fr with dc := l } := rfl
@[simp] theorem State.writeDc_sq (l : Level) (s : State) : (s.writeDc l).sq = s.sq := rfl
@[simp] theorem State.writeDc_tg (l : Level) (s : State) : (s.writeDc l).tg = s.tg := rfl
@[simp] theorem State.writeDc_gh (l : Level) (s : State) : (s.writeDc l).gh = s.gh := rfl
@[simp] theorem State.writeDc_obs (l : Level) (s : State) : (s.writeDc l).obs =
    { s.obs with wire := s.obs.wire ++ [⟨l, s.fr.cs, s.fr.sck, s.fr.mosi⟩] } := rfl
@[simp] theorem State.writeDc_ops (l : Level) (s : State) : (s.writeDc l).ops = s.ops := rfl
@[simp] theorem State.writeDc_par (l : Level) (s : State) : (s.writeDc l).par = s.par := rfl
@[simp] theorem State.writeDc_fb (l : Level) (s : State) : (s.writeDc l).fb = s.fb := rfl
@[simp] theorem State.writeDc_env (l : Level) (s : State) : (s.writeDc l).env = s.env := rfl

/-! ### writeCs -/

@[simp] theorem State.writeCs_fr (l : Level) (s : State) : (s.writeCs l).fr = { s.fr with cs := l } := rfl
@[simp] theorem State.writeCs_sq (l : Level) (s : State) : (s.writeCs l).sq = s.sq := rfl
@[simp] theorem State.writeCs_tg (l : Level) (s : State) : (s.writeCs l).tg = s.tg := rfl
@[simp] theorem State.writeCs_gh (l : Level) (s : State) : (s.writeCs l).gh = s.gh := rfl
@[simp] theorem State.writeCs_obs (l : Level) (s : State) : (s.writeCs l).obs =
    { s.obs with wire := s.obs.wire ++ [⟨s.fr.dc, l, s.fr.sck, s.fr.mosi⟩] } := rfl
@[simp] theorem State.writeCs_ops (l : Level) (s : State) : (s.writeCs l).ops = s.ops := rfl
@[simp] theorem State.writeCs_par (l : Level) (s : State) : (s.writeCs l).par = s.par := rfl
@[simp] theorem State.writeCs_fb (l : Level) (s : State) : (s.writeCs l).fb = s.fb := rfl
@[simp] theorem State.writeCs_env (l : Level) (s : State) : (s.writeCs l).env = s.env := rfl

/-! ### writeSck -/

@[simp] theorem State.writeSck_fr (l : Level) (s : State) : (s.writeSck l).fr = { s.fr with sck := l } := rfl
@[simp] theorem State.writeSck_sq (l : Level) (s : State) : (s.writeSck l).sq = s.sq := rfl
@[simp] theorem State.writeSck_tg (l : Level) (s : State) : (s.writeSck l).tg = s.tg := rfl
@[simp] theorem State.writeSck_gh (l : Level) (s : State) : (s.writeSck l).gh = s.gh := rfl
@[simp] theorem State.writeSck_obs (l : Level) (s : State) : (s.writeSck l).obs =
    { s.obs with wire := s.obs.wire ++ [⟨s.fr.dc, s.fr.cs, l, s.fr.mosi⟩] } := rfl
@[simp] theorem State.writeSck_ops (l : Level) (s : State) : (s.writeSck l).ops = s.ops := rfl
@[simp] theorem State.writeSck_par (l : Level) (s : State) : (s.writeSck l).par = s.par := rfl
@[simp] theorem State.writeSck_fb (l : Level) (s : State) : (s.writeSck l).fb = s.fb := rfl
@[simp] theorem State.writeSck_env (l : Level) (s : State) : (s.writeSck l).env = s.env := rfl

/-! ### writeMosi -/

@[simp] theorem State.writeMosi_fr (l : Level) (s : State) : (s.writeMosi l).fr = { s.fr with mosi := l } := rfl
@[simp] theorem State.writeMosi_sq (l : Level) (s : State) : (s.writeMosi l).sq = s.sq := rfl
@[simp] theorem State.writeMosi_tg (l : Level) (s : State) : (s.writeMosi l).tg = s.tg := rfl
@[simp] theorem State.writeMosi_gh (l : Level) (s : State) : (s.writeMosi l).gh = s.gh := rfl
@[simp] theorem State.writeMosi_obs (l : Level) (s : State) : (s.writeMosi l).obs =
    { s.obs with wire := s.obs.wire ++ [⟨s.fr.dc, s.fr.cs, s.fr.sck, l⟩] } := rfl
@[simp] theorem State.writeMosi_ops (l : Level) (s : State) : (s.writeMosi l).ops = s.ops := rfl
@[simp] theorem State.writeMosi_par (l : Level) (s : State) : (s.writeMosi l).par = s.par := rfl
@[simp] theorem State.writeMosi_fb (l : Level) (s : State) : (s.writeMosi l).fb = s.fb := rfl
@[simp] theorem State.writeMosi_env (l : Level) (s : State) : (s.writeMosi l).env = s.env := rfl

/-! ### setPhase -/

@[simp] theorem State.setPhase_fr (p : Phase) (s : State) : (s.setPhase p).fr = { s.fr with phase := p } := rfl
@[simp] theorem State.setPhase_sq (p : Phase) (s : State) : (s.setPhase p).sq = s.sq := rfl
@[simp] theorem State.setPhase_tg (p : Phase) (s : State) : (s.setPhase p).tg = s.tg := rfl
@[simp] theorem State.setPhase_gh (p : Phase) (s : State) : (s.setPhase p).gh = s.gh := rfl
@[simp] theorem State.setPhase_obs (p : Phase) (s : State) : (s.setPhase p).obs = s.obs := rfl
@[simp] theorem State.setPhase_ops (p : Phase) (s : State) : (s.setPhase p).ops = s.ops := rfl
@[simp] theorem State.setPhase_par (p : Phase) (s : State) : (s.setPhase p).par = s.par := rfl
@[simp] theorem State.setPhase_fb (p : Phase) (s : State) : (s.setPhase p).fb = s.fb := rfl
@[simp] theorem State.setPhase_env (p : Phase) (s : State) : (s.setPhase p).env = s.env := rfl

/-! ### advance -/

@[simp] theorem State.advance_fr (n : Nat) (s : State) : (s.advance n).fr = s.fr := rfl
@[simp] theorem State.advance_sq (n : Nat) (s : State) : (s.advance n).sq = { s.sq with pc := s.sq.pc + n } := rfl
@[simp] theorem State.advance_tg (n : Nat) (s : State) : (s.advance n).tg = s.tg := rfl
@[simp] theorem State.advance_gh (n : Nat) (s : State) : (s.advance n).gh = s.gh := rfl
@[simp] theorem State.advance_obs (n : Nat) (s : State) : (s.advance n).obs = s.obs := rfl
@[simp] theorem State.advance_ops (n : Nat) (s : State) : (s.advance n).ops = s.ops := rfl
@[simp] theorem State.advance_par (n : Nat) (s : State) : (s.advance n).par = s.par := rfl
@[simp] theorem State.advance_fb (n : Nat) (s : State) : (s.advance n).fb = s.fb := rfl
@[simp] theorem State.advance_env (n : Nat) (s : State) : (s.advance n).env = s.env := rfl

/-! ### raise -/

@[simp] theorem State.raise_fr (f : HwFault) (info : BitVec 32) (s : State) : (s.raise f info).fr = s.fr := rfl
@[simp] theorem State.raise_sq (f : HwFault) (info : BitVec 32) (s : State) : (s.raise f info).sq = { s.sq with flt := f.code, finfo := info } := rfl
@[simp] theorem State.raise_tg (f : HwFault) (info : BitVec 32) (s : State) : (s.raise f info).tg = s.tg := rfl
@[simp] theorem State.raise_gh (f : HwFault) (info : BitVec 32) (s : State) : (s.raise f info).gh = s.gh := rfl
@[simp] theorem State.raise_obs (f : HwFault) (info : BitVec 32) (s : State) : (s.raise f info).obs = s.obs := rfl
@[simp] theorem State.raise_ops (f : HwFault) (info : BitVec 32) (s : State) : (s.raise f info).ops = s.ops := rfl
@[simp] theorem State.raise_par (f : HwFault) (info : BitVec 32) (s : State) : (s.raise f info).par = s.par := rfl
@[simp] theorem State.raise_fb (f : HwFault) (info : BitVec 32) (s : State) : (s.raise f info).fb = s.fb := rfl
@[simp] theorem State.raise_env (f : HwFault) (info : BitVec 32) (s : State) : (s.raise f info).env = s.env := rfl

/-! ### takeAnswer -/

@[simp] theorem State.takeAnswer_fr (s : State) : s.takeAnswer.fr = s.fr := rfl
@[simp] theorem State.takeAnswer_sq (s : State) : s.takeAnswer.sq = s.sq := rfl
@[simp] theorem State.takeAnswer_tg (s : State) : s.takeAnswer.tg = s.tg := rfl
@[simp] theorem State.takeAnswer_gh (s : State) : s.takeAnswer.gh = s.gh := rfl
@[simp] theorem State.takeAnswer_obs (s : State) : s.takeAnswer.obs = s.obs := rfl
@[simp] theorem State.takeAnswer_ops (s : State) : s.takeAnswer.ops = s.ops := rfl
@[simp] theorem State.takeAnswer_par (s : State) : s.takeAnswer.par = s.par := rfl
@[simp] theorem State.takeAnswer_fb (s : State) : s.takeAnswer.fb = s.fb := rfl
@[simp] theorem State.takeAnswer_env (s : State) : s.takeAnswer.env = s.env.takeAnswer := rfl

/-! ### sampleMiso -/

@[simp] theorem State.sampleMiso_fr (i : Nat) (s : State) : (s.sampleMiso i).fr =
    { s.fr with rxsr := setBit s.fr.rxsr i (Config.misoLevel s.env.misoDraws) } := rfl
@[simp] theorem State.sampleMiso_sq (i : Nat) (s : State) : (s.sampleMiso i).sq = s.sq := rfl
@[simp] theorem State.sampleMiso_tg (i : Nat) (s : State) : (s.sampleMiso i).tg = s.tg := rfl
@[simp] theorem State.sampleMiso_gh (i : Nat) (s : State) : (s.sampleMiso i).gh = s.gh := rfl
@[simp] theorem State.sampleMiso_obs (i : Nat) (s : State) : (s.sampleMiso i).obs = s.obs := rfl
@[simp] theorem State.sampleMiso_ops (i : Nat) (s : State) : (s.sampleMiso i).ops = s.ops := rfl
@[simp] theorem State.sampleMiso_par (i : Nat) (s : State) : (s.sampleMiso i).par = s.par := rfl
@[simp] theorem State.sampleMiso_fb (i : Nat) (s : State) : (s.sampleMiso i).fb = s.fb := rfl
@[simp] theorem State.sampleMiso_env (i : Nat) (s : State) : (s.sampleMiso i).env =
    { s.env with misoDraws := s.env.misoDraws + 1 } := rfl

/-! ### setPosition -/

@[simp] theorem State.setPosition_fr (p : Nat × Nat) (s : State) : (s.setPosition p).fr = s.fr := rfl
@[simp] theorem State.setPosition_sq (p : Nat × Nat) (s : State) : (s.setPosition p).sq = s.sq := rfl
@[simp] theorem State.setPosition_tg (p : Nat × Nat) (s : State) : (s.setPosition p).tg =
    { s.tg with scan := { s.tg.scan with hcnt := BitVec.ofNat 18 p.1, vcnt := BitVec.ofNat 18 p.2 } } := rfl
@[simp] theorem State.setPosition_gh (p : Nat × Nat) (s : State) : (s.setPosition p).gh = s.gh := rfl
@[simp] theorem State.setPosition_obs (p : Nat × Nat) (s : State) : (s.setPosition p).obs = s.obs := rfl
@[simp] theorem State.setPosition_ops (p : Nat × Nat) (s : State) : (s.setPosition p).ops = s.ops := rfl
@[simp] theorem State.setPosition_par (p : Nat × Nat) (s : State) : (s.setPosition p).par = s.par := rfl
@[simp] theorem State.setPosition_fb (p : Nat × Nat) (s : State) : (s.setPosition p).fb = s.fb := rfl
@[simp] theorem State.setPosition_env (p : Nat × Nat) (s : State) : (s.setPosition p).env = s.env := rfl

/-! ### countScan -/

@[simp] theorem State.countScan_fr (s : State) : s.countScan.fr = s.fr := rfl
@[simp] theorem State.countScan_sq (s : State) : s.countScan.sq = s.sq := rfl
@[simp] theorem State.countScan_tg (s : State) : s.countScan.tg = s.tg := rfl
@[simp] theorem State.countScan_gh (s : State) : s.countScan.gh = s.gh := rfl
@[simp] theorem State.countScan_obs (s : State) : s.countScan.obs = s.obs := rfl
@[simp] theorem State.countScan_ops (s : State) : s.countScan.ops = s.ops := rfl
@[simp] theorem State.countScan_par (s : State) : s.countScan.par = s.par := rfl
@[simp] theorem State.countScan_fb (s : State) : s.countScan.fb = s.fb := rfl
@[simp] theorem State.countScan_env (s : State) : s.countScan.env =
    { s.env with scanDraws := s.env.scanDraws + 1 } := rfl

/-! ### dropSched -/

@[simp] theorem State.dropSched_fr (s : State) : s.dropSched.fr = s.fr := rfl
@[simp] theorem State.dropSched_sq (s : State) : s.dropSched.sq = s.sq := rfl
@[simp] theorem State.dropSched_tg (s : State) : s.dropSched.tg = s.tg := rfl
@[simp] theorem State.dropSched_gh (s : State) : s.dropSched.gh = s.gh := rfl
@[simp] theorem State.dropSched_obs (s : State) : s.dropSched.obs = s.obs := rfl
@[simp] theorem State.dropSched_ops (s : State) : s.dropSched.ops = s.ops := rfl
@[simp] theorem State.dropSched_par (s : State) : s.dropSched.par = s.par := rfl
@[simp] theorem State.dropSched_fb (s : State) : s.dropSched.fb = s.fb := rfl
@[simp] theorem State.dropSched_env (s : State) : s.dropSched.env = { s.env with sched := s.env.sched.tail } := rfl

/-! ### scannerChosen -/

@[simp] theorem State.scannerChosen_fr (s : State) : s.scannerChosen.fr = s.fr := rfl
@[simp] theorem State.scannerChosen_sq (s : State) : s.scannerChosen.sq = s.sq := rfl
@[simp] theorem State.scannerChosen_tg (s : State) : s.scannerChosen.tg = s.tg := rfl
@[simp] theorem State.scannerChosen_gh (s : State) : s.scannerChosen.gh = s.gh := rfl
@[simp] theorem State.scannerChosen_obs (s : State) : s.scannerChosen.obs = s.obs := rfl
@[simp] theorem State.scannerChosen_ops (s : State) : s.scannerChosen.ops = s.ops := rfl
@[simp] theorem State.scannerChosen_par (s : State) : s.scannerChosen.par = s.par := rfl
@[simp] theorem State.scannerChosen_fb (s : State) : s.scannerChosen.fb = s.fb := rfl
@[simp] theorem State.scannerChosen_env (s : State) : s.scannerChosen.env =
    { s.env with scansSince := s.env.scansSince + 1 } := rfl

/-! ### hostChosen -/

@[simp] theorem State.hostChosen_fr (s : State) : s.hostChosen.fr = s.fr := rfl
@[simp] theorem State.hostChosen_sq (s : State) : s.hostChosen.sq = s.sq := rfl
@[simp] theorem State.hostChosen_tg (s : State) : s.hostChosen.tg = s.tg := rfl
@[simp] theorem State.hostChosen_gh (s : State) : s.hostChosen.gh = s.gh := rfl
@[simp] theorem State.hostChosen_obs (s : State) : s.hostChosen.obs = s.obs := rfl
@[simp] theorem State.hostChosen_ops (s : State) : s.hostChosen.ops = s.ops := rfl
@[simp] theorem State.hostChosen_par (s : State) : s.hostChosen.par = s.par := rfl
@[simp] theorem State.hostChosen_fb (s : State) : s.hostChosen.fb = s.fb := rfl
@[simp] theorem State.hostChosen_env (s : State) : s.hostChosen.env =
    { s.env with turnDraws := s.env.turnDraws + 1, scansSince := 0 } := rfl

/-! ### nextEntry -/

@[simp] theorem nextEntry_fr (s : State) : (nextEntry s).fr = s.fr := rfl
@[simp] theorem nextEntry_sq (s : State) : (nextEntry s).sq = { s.sq with idx := s.sq.idx + 1 } := rfl
@[simp] theorem nextEntry_tg (s : State) : (nextEntry s).tg = s.tg := rfl
@[simp] theorem nextEntry_gh (s : State) : (nextEntry s).gh = s.gh := rfl
@[simp] theorem nextEntry_obs (s : State) : (nextEntry s).obs = s.obs := rfl
@[simp] theorem nextEntry_ops (s : State) : (nextEntry s).ops = s.ops := rfl
@[simp] theorem nextEntry_par (s : State) : (nextEntry s).par = s.par := rfl
@[simp] theorem nextEntry_fb (s : State) : (nextEntry s).fb = s.fb := rfl
@[simp] theorem nextEntry_env (s : State) : (nextEntry s).env = s.env := rfl

/-! ### endInit -/

@[simp] theorem endInit_fr (s : State) : (endInit s).fr = s.fr := rfl
@[simp] theorem endInit_sq (s : State) : (endInit s).sq = { s.sq with idx := 0, inited := true } := rfl
@[simp] theorem endInit_tg (s : State) : (endInit s).tg = s.tg := rfl
@[simp] theorem endInit_gh (s : State) : (endInit s).gh = s.gh := rfl
@[simp] theorem endInit_obs (s : State) : (endInit s).obs = s.obs := rfl
@[simp] theorem endInit_ops (s : State) : (endInit s).ops = s.ops := rfl
@[simp] theorem endInit_par (s : State) : (endInit s).par = s.par := rfl
@[simp] theorem endInit_fb (s : State) : (endInit s).fb = s.fb := rfl
@[simp] theorem endInit_env (s : State) : (endInit s).env = s.env := rfl

/-! ### waitAtLeast -/

@[simp] theorem waitAtLeast_fr (ms : Nat) (s : State) : (waitAtLeast ms s).fr = s.fr := rfl
@[simp] theorem waitAtLeast_sq (ms : Nat) (s : State) : (waitAtLeast ms s).sq = s.sq := rfl
@[simp] theorem waitAtLeast_tg (ms : Nat) (s : State) : (waitAtLeast ms s).tg = s.tg := rfl
@[simp] theorem waitAtLeast_gh (ms : Nat) (s : State) : (waitAtLeast ms s).gh = s.gh := rfl
@[simp] theorem waitAtLeast_obs (ms : Nat) (s : State) : (waitAtLeast ms s).obs =
    { s.obs with txn := s.obs.txn ++ [.settle ms] } := rfl
@[simp] theorem waitAtLeast_ops (ms : Nat) (s : State) : (waitAtLeast ms s).ops = s.ops := rfl
@[simp] theorem waitAtLeast_par (ms : Nat) (s : State) : (waitAtLeast ms s).par = s.par := rfl
@[simp] theorem waitAtLeast_fb (ms : Nat) (s : State) : (waitAtLeast ms s).fb = s.fb := rfl
@[simp] theorem waitAtLeast_env (ms : Nat) (s : State) : (waitAtLeast ms s).env = s.env := rfl

/-! ### configure -/

@[simp] theorem configure_fr (p : TimingParams) (bg : Colour) (s : State) : (configure p bg s).fr = s.fr := rfl
@[simp] theorem configure_sq (p : TimingParams) (bg : Colour) (s : State) : (configure p bg s).sq = s.sq := rfl
@[simp] theorem configure_tg (p : TimingParams) (bg : Colour) (s : State) : (configure p bg s).tg =
    { conf := s.tg.conf.withTiming p bg, scan := s.tg.scan.inactive p.hspol p.vspol p.depol } := rfl
@[simp] theorem configure_gh (p : TimingParams) (bg : Colour) (s : State) : (configure p bg s).gh = s.gh := rfl
@[simp] theorem configure_obs (p : TimingParams) (bg : Colour) (s : State) : (configure p bg s).obs = s.obs := rfl
@[simp] theorem configure_ops (p : TimingParams) (bg : Colour) (s : State) : (configure p bg s).ops = s.ops := rfl
@[simp] theorem configure_par (p : TimingParams) (bg : Colour) (s : State) : (configure p bg s).par = s.par := rfl
@[simp] theorem configure_fb (p : TimingParams) (bg : Colour) (s : State) : (configure p bg s).fb = s.fb := rfl
@[simp] theorem configure_env (p : TimingParams) (bg : Colour) (s : State) : (configure p bg s).env = s.env := rfl

/-! ### startScan -/

@[simp] theorem startScan_fr (s : State) : (startScan s).fr = s.fr := rfl
@[simp] theorem startScan_sq (s : State) : (startScan s).sq = s.sq := rfl
@[simp] theorem startScan_tg (s : State) : (startScan s).tg =
    { conf := { s.tg.conf with en := true }, scan := { s.tg.scan with hcnt := 0, vcnt := 0 } } := rfl
@[simp] theorem startScan_gh (s : State) : (startScan s).gh = s.gh := rfl
@[simp] theorem startScan_obs (s : State) : (startScan s).obs = s.obs := rfl
@[simp] theorem startScan_ops (s : State) : (startScan s).ops = s.ops := rfl
@[simp] theorem startScan_par (s : State) : (startScan s).par = s.par := rfl
@[simp] theorem startScan_fb (s : State) : (startScan s).fb = s.fb := rfl
@[simp] theorem startScan_env (s : State) : (startScan s).env = s.env := rfl

/-! ### stopScan -/

@[simp] theorem stopScan_fr (s : State) : (stopScan s).fr = s.fr := rfl
@[simp] theorem stopScan_sq (s : State) : (stopScan s).sq = s.sq := rfl
@[simp] theorem stopScan_tg (s : State) : (stopScan s).tg =
    { conf := { s.tg.conf with en := false }
      scan := { s.tg.scan.inactive s.tg.conf.hspol s.tg.conf.vspol s.tg.conf.depol with hcnt := 0, vcnt := 0 } } := rfl
@[simp] theorem stopScan_gh (s : State) : (stopScan s).gh = s.gh := rfl
@[simp] theorem stopScan_obs (s : State) : (stopScan s).obs = s.obs := rfl
@[simp] theorem stopScan_ops (s : State) : (stopScan s).ops = s.ops := rfl
@[simp] theorem stopScan_par (s : State) : (stopScan s).par = s.par := rfl
@[simp] theorem stopScan_fb (s : State) : (stopScan s).fb = s.fb := rfl
@[simp] theorem stopScan_env (s : State) : (stopScan s).env = s.env := rfl

/-! ### drivePins -/

@[simp] theorem drivePins_fr (h v : Nat) (pix : Colour) (s : State) : (drivePins h v pix s).fr = s.fr := rfl
@[simp] theorem drivePins_sq (h v : Nat) (pix : Colour) (s : State) : (drivePins h v pix s).sq = s.sq := rfl
@[simp] theorem drivePins_tg (h v : Nat) (pix : Colour) (s : State) : (drivePins h v pix s).tg =
    { s.tg with
      scan := { s.tg.scan with
                hsync := pinLevel (s.tg.conf.hsAct h) s.tg.conf.hspol
                vsync := pinLevel (s.tg.conf.vsAct v) s.tg.conf.vspol
                de := pinLevel (s.tg.conf.deAct h v) s.tg.conf.depol
                pix := pix } } := rfl
@[simp] theorem drivePins_gh (h v : Nat) (pix : Colour) (s : State) : (drivePins h v pix s).gh = s.gh := rfl
@[simp] theorem drivePins_obs (h v : Nat) (pix : Colour) (s : State) : (drivePins h v pix s).obs =
    { s.obs with
      video := s.obs.video ++
        [⟨pinLevel (s.tg.conf.hsAct h) s.tg.conf.hspol, pinLevel (s.tg.conf.vsAct v) s.tg.conf.vspol,
          pinLevel (s.tg.conf.deAct h v) s.tg.conf.depol, s.tg.conf.pcpol, pix⟩] } := rfl
@[simp] theorem drivePins_ops (h v : Nat) (pix : Colour) (s : State) : (drivePins h v pix s).ops = s.ops := rfl
@[simp] theorem drivePins_par (h v : Nat) (pix : Colour) (s : State) : (drivePins h v pix s).par = s.par := rfl
@[simp] theorem drivePins_fb (h v : Nat) (pix : Colour) (s : State) : (drivePins h v pix s).fb = s.fb := rfl
@[simp] theorem drivePins_env (h v : Nat) (pix : Colour) (s : State) : (drivePins h v pix s).env = s.env := rfl

/-! ### outsideWrite -/

@[simp] theorem outsideWrite_fr (n : BitVec 31) (v : Word) (s : State) : (outsideWrite n v s).fr = s.fr := rfl
@[simp] theorem outsideWrite_sq (n : BitVec 31) (v : Word) (s : State) : (outsideWrite n v s).sq = s.sq := rfl
@[simp] theorem outsideWrite_tg (n : BitVec 31) (v : Word) (s : State) : (outsideWrite n v s).tg = s.tg := rfl
@[simp] theorem outsideWrite_gh (n : BitVec 31) (v : Word) (s : State) : (outsideWrite n v s).gh = s.gh := rfl
@[simp] theorem outsideWrite_obs (n : BitVec 31) (v : Word) (s : State) : (outsideWrite n v s).obs = s.obs := rfl
@[simp] theorem outsideWrite_ops (n : BitVec 31) (v : Word) (s : State) : (outsideWrite n v s).ops = s.ops := rfl
@[simp] theorem outsideWrite_par (n : BitVec 31) (v : Word) (s : State) : (outsideWrite n v s).par = s.par := rfl
@[simp] theorem outsideWrite_fb (n : BitVec 31) (v : Word) (s : State) : (outsideWrite n v s).fb = s.fb.writePixel n v := rfl
@[simp] theorem outsideWrite_env (n : BitVec 31) (v : Word) (s : State) : (outsideWrite n v s).env = s.env := rfl

end Sys2Proof.Machine
end

