-- ==== Sys2Proof/Laws/Framer.lean ====
section
/-! SUPPORT. What one transaction can do (40_framer_ops.md R84), said once: the state it completes with, the
state it stops in, and what it never touches. -/

namespace Sys2Proof.Machine

/-! ### The outside world's answers -/

@[simp] theorem Env.takeAnswer_sched (e : Env) : e.takeAnswer.sched = e.sched := by
  unfold Env.takeAnswer; split <;> rfl

@[simp] theorem Env.takeAnswer_turnDraws (e : Env) : e.takeAnswer.turnDraws = e.turnDraws := by
  unfold Env.takeAnswer; split <;> rfl

@[simp] theorem Env.takeAnswer_scansSince (e : Env) : e.takeAnswer.scansSince = e.scansSince := by
  unfold Env.takeAnswer; split <;> rfl

@[simp] theorem Env.takeAnswer_misoDraws (e : Env) : e.takeAnswer.misoDraws = e.misoDraws := by
  unfold Env.takeAnswer; split <;> rfl

@[simp] theorem Env.takeAnswer_scanDraws (e : Env) : e.takeAnswer.scanDraws = e.scanDraws := by
  unfold Env.takeAnswer; split <;> rfl

@[simp] theorem Env.takeAnswer_resets (e : Env) : e.takeAnswer.resets = e.resets := by
  unfold Env.takeAnswer; split <;> rfl

theorem Env.nextAnswer_cons {e : Env} {a : XferAnswer} {rest : List XferAnswer}
    (h : e.answers = a :: rest) : e.nextAnswer = a := by simp [Env.nextAnswer, h]

theorem Env.takeAnswer_cons {e : Env} {a : XferAnswer} {rest : List XferAnswer}
    (h : e.answers = a :: rest) : e.takeAnswer = { e with answers := rest } := by
  simp [Env.takeAnswer, h]

/-! ### Setting a bit -/

theorem setBit_getLsbD (v : Byte) (i j : Nat) (l : Level) (hj : j < 8) :
    (setBit v i l).getLsbD j = if j = i then l else v.getLsbD j := by
  unfold setBit
  by_cases hij : j = i
  · subst hij
    cases l <;> simp [hj]
  · cases l <;> simp [hij, hj] <;> intros <;> omega

/-! ### Bits on the wire -/

/-- One clock pulse from a state with SCK low. -/
theorem pulse_eq (b : Byte) (i : Nat) (s : State) (hs : s.fr.sck = false) :
    pulse b s i =
      { s with
        fr := { s.fr with mosi := b.getLsbD i, sck := false, phase := .bitSample, bitcnt := BitVec.ofNat 4 i
                          rxsr := setBit s.fr.rxsr i (Config.misoLevel s.env.misoDraws) }
        obs := { s.obs with
                 wire := s.obs.wire ++
                   [⟨s.fr.dc, s.fr.cs, false, b.getLsbD i⟩, ⟨s.fr.dc, s.fr.cs, true, b.getLsbD i⟩,
                    ⟨s.fr.dc, s.fr.cs, false, b.getLsbD i⟩] }
        env := { s.env with misoDraws := s.env.misoDraws + 1 } } := by
  simp [pulse, State.emitWire, State.setPhase, State.writeMosi, State.writeSck, State.sampleMiso, hs]

/-- `RXSR` after the samples of the bits in `is`, drawn from `m` on. -/
def rxAfter : List Nat → Nat → Byte → Byte
  | [], _, rx => rx
  | i :: is, m, rx => rxAfter is (m + 1) (setBit rx i (Config.misoLevel m))

theorem rxAfter_sampled (old : Byte) (m : Nat) (n : Nat) (hn : n ≤ 8) :
    RxSampled old m n (rxAfter (Config.bitOrder.take n) m old) := by
  intro i hi
  interval_cases n <;> simp only [Config.bitOrder, List.take, rxAfter, setBit_getLsbD, hi] <;>
    interval_cases i <;> simp

/-- The bits of `is` from a state with SCK low and CS asserted. -/
theorem foldl_pulse (b : Byte) (is : List Nat) (s : State) (hs : s.fr.sck = false)
    (hc : s.fr.cs = Config.csAssertLevel) (hne : is ≠ []) :
    is.foldl (pulse b) s =
      { s with
        fr := { s.fr with
                mosi := b.getLsbD (is.getLast hne), sck := false, phase := .bitSample
                bitcnt := BitVec.ofNat 4 (is.getLast hne)
                rxsr := rxAfter is s.env.misoDraws s.fr.rxsr }
        obs := { s.obs with
                 wire := s.obs.wire ++ is.flatMap (fun i => bitTuples s.fr.dc (b.getLsbD i)) }
        env := { s.env with misoDraws := s.env.misoDraws + is.length } } := by
  induction is generalizing s with
  | nil => exact absurd rfl hne
  | cons i is ih =>
    rw [List.foldl_cons]
    cases is with
    | nil => rw [pulse_eq b i s hs]; simp [rxAfter, bitTuples, hc]
    | cons j js =>
      rw [ih (pulse b s i) (by rw [pulse_eq b i s hs]) (by rw [pulse_eq b i s hs]; exact hc)
        (List.cons_ne_nil j js), pulse_eq b i s hs]
      simp [rxAfter, bitTuples, hc, Nat.add_assoc, Nat.add_comm]

/-! ### The frame around the bits -/

theorem beginFrame_eq (k : Kind) (b : Byte) (s : State) (h : FramerIdle s.fr) :
    beginFrame k b s =
      { s with
        fr := { s.fr with dc := k.dcLevel, cs := Config.csAssertLevel, sck := false, txsr := b, bitcnt := 8
                          kind := k, phase := .csLow }
        obs := { s.obs with wire := s.obs.wire ++ openFrame k b 0 s.fr.mosi } } := by
  simp [beginFrame, State.setPhase, State.writeDc, State.writeCs, State.emitWire, openFrame, h.cs, h.sck]

/-- The first `n` bits after the frame has begun. -/
theorem sendBits_eq (k : Kind) (b : Byte) (n : Nat) (hn : n ≤ 8) (s : State) (h : FramerIdle s.fr) :
    sendBits b n (beginFrame k b s).takeAnswer =
      brokenTxn k b n (rxAfter (Config.bitOrder.take n) s.env.misoDraws s.fr.rxsr) s := by
  rw [beginFrame_eq k b s h]
  cases n with
  | zero =>
    simp [sendBits, State.takeAnswer, brokenTxn, rxAfter]
    unfold Env.takeAnswer; split <;> rfl
  | succ n =>
    have hne : Config.bitOrder.take (n + 1) ≠ [] := by simp [Config.bitOrder]
    have hlast : (Config.bitOrder.take (n + 1)).getLast hne = 8 - (n + 1) := by
      have : n ≤ 7 := by omega
      interval_cases n <;> rfl
    have hlen : (Config.bitOrder.take (n + 1)).length = n + 1 := by
      simp [Config.bitOrder]; omega
    unfold sendBits
    rw [foldl_pulse b _ _ rfl rfl hne]
    simp [State.takeAnswer, brokenTxn, openFrame, hlast, hlen]

/-- A transfer answered `Done` completes the transaction. -/
theorem transaction_done (k : Kind) (b : Byte) (s : State) (h : FramerIdle s.fr)
    (ha : s.env.nextAnswer = .done) :
    transaction k b s =
      .completed (afterTxn k b (rxAfter Config.bitOrder s.env.misoDraws s.fr.rxsr) s) := by
  simp only [transaction, ha, sendBits_eq k b 8 (Nat.le_refl 8) s h]
  simp [endFrame, afterTxn, frAfter, brokenTxn, State.setPhase, State.writeCs, State.emitWire, State.emitTxn,
    wholeFrame, Config.bitOrder]

theorem code_transportFault : HwFault.code .transportFault = 1 := rfl

theorem xferInfo_eq (k : Kind) (n : Fin 9) (b : Byte) :
    xferInfo k n b = BitVec.ofNat 32 (xferWord k n b) := by
  apply BitVec.eq_of_toNat_eq
  have hb := b.isLt
  have hn := n.isLt
  have h4 : (BitVec.ofNat 4 n.val).toNat = n.val := by simp; omega
  have e1 : (k.bit ++ BitVec.ofNat 4 n.val : BitVec 5).toNat = k.bit.toNat * 16 + n.val := by
    rw [BitVec.toNat_append, h4, ← Nat.shiftLeft_add_eq_or_of_lt (by omega), Nat.shiftLeft_eq]
  have e2 : (k.bit ++ BitVec.ofNat 4 n.val ++ b : BitVec 13).toNat =
      k.bit.toNat * 4096 + n.val * 256 + b.toNat := by
    rw [BitVec.toNat_append, e1, ← Nat.shiftLeft_add_eq_or_of_lt hb, Nat.shiftLeft_eq]; omega
  have hk : k.bit.toNat ≤ 1 := by cases k <;> decide
  simp only [xferInfo, xferWord, BitVec.toNat_setWidth, BitVec.toNat_ofNat, e2]

/-- A transfer answered otherwise stops the host inside the transaction (60_exceptions.md R182, R183, R201). -/
theorem transaction_broken (k : Kind) (b : Byte) (s : State) (h : FramerIdle s.fr)
    (ha : s.env.nextAnswer ≠ .done) :
    transaction k b s =
      .stopped { brokenTxn k b (pulsesOf s.env.nextAnswer)
                   (rxAfter (Config.bitOrder.take (pulsesOf s.env.nextAnswer)) s.env.misoDraws s.fr.rxsr) s with
                 sq := brokenSq s.par.raw s.sq k b s.env.nextAnswer } := by
  cases hx : s.env.nextAnswer with
  | done => exact absurd hx ha
  | fault n =>
    simp only [transaction, hx, pulsesOf, sendBits_eq k b n (by omega) s h]
    simp [State.raise, brokenSq, faultedSq, HwFault.code, xferInfo_eq, brokenTxn]
  | stall n =>
    simp only [transaction, hx, pulsesOf, sendBits_eq k b n (by omega) s h, stallAt]
    cases hp : s.par.raw.xferTimeout <;>
      simp [State.raise, brokenSq, faultedSq, HwFault.code, xferInfo_eq, brokenTxn, hp]

theorem FramerIdle.afterTxn (k : Kind) (b rx : Byte) (s : State) : FramerIdle (afterTxn k b rx s).fr :=
  ⟨rfl, rfl, rfl, rfl⟩

end Sys2Proof.Machine
end

