-- ==== Sys2Proof/Laws/Step.lean ====
section
/-! SUPPORT. What a step can do, said once: every operation is the host's guard around a total effect, and a
step is one of five moves. -/

namespace Sys2Proof.Machine

/-! ### The guard -/

theorem faulted_eq_false {s : State} : s.faulted = false ↔ s.sq.flt = 0 := by simp [State.faulted]

theorem idle_eq_true {s : State} : s.idle = true ↔ s.fr.phase = .idle := by simp [State.idle]

theorem whenHostRuns_of_runs {s : State} (h : HostRuns s) (k : State → State) :
    whenHostRuns s k = .next (k s) := by
  simp [whenHostRuns, faulted_eq_false.mpr h.noFault, idle_eq_true.mpr h.idle]

theorem whenHostRuns_next {s t : State} {k : State → State} (h : whenHostRuns s k = .next t) :
    HostRuns s ∧ t = k s := by
  unfold whenHostRuns at h
  split at h
  · cases h
  · split at h
    · rename_i hf hi
      cases h
      exact ⟨⟨by simpa [State.faulted] using hf, by simpa [State.idle] using hi⟩, rfl⟩
    · cases h

theorem whenHostRuns_of_faulted {s : State} (h : s.sq.flt ≠ 0) (k : State → State) :
    whenHostRuns s k = .fault .hostFaulted := by
  have hf : s.faulted = true := by simpa [State.faulted] using h
  simp [whenHostRuns, hf]

theorem whenHostRuns_of_hung {s : State} (h : HostHung s) (k : State → State) :
    whenHostRuns s k = .fault .hostHung := by
  simp [whenHostRuns, State.faulted, State.idle, h.1, h.2]

/-! ### The effect of each operation, without the guard -/

/-- What an operation does to a state in which the host runs. -/
def effect : Instr → State → State
  | .wrcmd sel, s => (transaction .cmd sel s).finish (State.advance 1)
  | .wrdat b, s => (transaction .dat b s).finish (State.advance 1)
  | .delay ms, s => (waitAtLeast ms.toNat s).advance 1
  | .init, s =>
    if s.sq.inited then s.raise .panelAlreadyInitialised 0
    else (runProgram s.par.raw.program { s with sq.idx := 0 }).finish (fun t => (endInit t).advance 1)
  | .on, s => displaySelect .displayOn 1 s
  | .off, s => displaySelect .displayOff 2 s
  | .tgcfg p bg, s =>
    if s.tg.conf.configured then s.raise .tgAlreadyConfigured 0
    else
      match timingError p with
      | some k => s.raise .tgBadParam (BitVec.ofNat 32 k)
      | none => (configure p bg s).advance 11
  | .tgbind i d, s =>
    if s.tg.conf.configured then
      match bindError s.tg.conf i d with
      | some (f, k) => s.raise f (BitVec.ofNat 32 k)
      | none => { s with tg.conf := s.tg.conf.withLayer i (layerOf d) }.advance 9
    else s.raise .tgNotConfigured (BitVec.ofNat 32 i.toNat)
  | .tgen e, s =>
    if s.tg.conf.configured then (setEnable e s).advance 1
    else s.raise .tgNotConfigured (BitVec.ofNat 32 (tgenInfo e))

theorem exec_eq (i : Instr) (s : State) : exec i s = whenHostRuns s (effect i) := by
  cases i <;> rfl

theorem exec_of_runs (i : Instr) {s : State} (h : HostRuns s) : exec i s = .next (effect i s) := by
  rw [exec_eq, whenHostRuns_of_runs h]

theorem exec_next {i : Instr} {s t : State} (h : exec i s = .next t) : HostRuns s ∧ t = effect i s := by
  rw [exec_eq] at h
  exact whenHostRuns_next h

/-! ### The host's step -/

/-- What a host step does to a state in which the host runs: the operation, or `IllegalOp`. -/
def hostEffect (s : State) : State :=
  match decode s.fetch with
  | .ok i _ => effect i s
  | .illegal _ => s.raise .illegalOp (headInfo s.fetch)

theorem hostStep_eq (s : State) : hostStep s = whenHostRuns s hostEffect := by
  unfold hostStep hostEffect
  cases hd : decode s.fetch with
  | ok i n => simp only [exec_eq]; simp [whenHostRuns, hd]
  | illegal e => simp [whenHostRuns, hd]

theorem hostReady_iff {s : State} : s.hostReady = true ↔ HostRuns s ∧ s.sq.pc < s.ops.length := by
  simp only [State.hostReady, State.canRun, Bool.and_eq_true, Bool.not_eq_true', decide_eq_true_eq,
    faulted_eq_false, idle_eq_true]
  exact ⟨fun ⟨⟨a, b⟩, c⟩ => ⟨⟨a, b⟩, c⟩, fun ⟨⟨a, b⟩, c⟩ => ⟨⟨a, b⟩, c⟩⟩

theorem hostStep_of_ready {s : State} (h : s.hostReady = true) : hostStep s = .next (hostEffect s) := by
  rw [hostStep_eq, whenHostRuns_of_runs (hostReady_iff.mp h).1]

/-! ### The scanner's step -/

/-- What a scan step that shows `pix` leaves. -/
def scanEffect (pix : Colour) (s : State) : State :=
  ((drivePins s.tg.scan.hcnt.toNat s.tg.scan.vcnt.toNat pix s).setPosition
    (nextPosition s.tg.conf s.tg.scan.hcnt.toNat s.tg.scan.vcnt.toNat)).countScan

/-- `PIX` of the step from this state. -/
def currentPixel (s : State) : Option Colour := scanPixel s s.tg.scan.hcnt.toNat s.tg.scan.vcnt.toNat

theorem scanStep_eq (s : State) :
    scanStep s = match currentPixel s with
      | some pix => .next (scanEffect pix s)
      | none => .fault .fbOutsideSpace := rfl

theorem scanStep_next {s t : State} (h : scanStep s = .next t) :
    ∃ pix, currentPixel s = some pix ∧ t = scanEffect pix s := by
  rw [scanStep_eq] at h
  cases hp : currentPixel s with
  | none => simp [hp] at h
  | some pix => simp only [hp] at h; cases h; exact ⟨pix, rfl, rfl⟩

/-! ### Who moves -/

theorem mover_host {s : State} {a : Agent} (h : s.hostReady = true) (hs : s.scannerReady = false) :
    s.mover a = some .host := by
  cases a <;> simp [State.mover, State.ready, otherAgent, h, hs]

theorem mover_host_turn {s : State} (h : s.hostReady = true) : s.mover .host = some .host := by
  simp [State.mover, State.ready, h]

theorem mover_scanner {s : State} {a : Agent} (h : s.hostReady = false) (hs : s.scannerReady = true) :
    s.mover a = some .scanner := by
  cases a <;> simp [State.mover, State.ready, otherAgent, h, hs]

theorem mover_scanner_turn {s : State} (h : s.scannerReady = true) : s.mover .scanner = some .scanner := by
  simp [State.mover, State.ready, h]

theorem mover_none {s : State} {a : Agent} (h : s.hostReady = false) (hs : s.scannerReady = false) :
    s.mover a = none := by
  cases a <;> simp [State.mover, State.ready, otherAgent, h, hs]

theorem mover_ready {s : State} {a b : Agent} (h : s.mover a = some b) : s.ready b = true := by
  unfold State.mover at h
  split at h
  · rename_i h1; cases h; exact h1
  · split at h
    · rename_i h1; cases h; exact h1
    · cases h

theorem agentStep_next {a : Agent} {s t : State} (h : agentStep a s = .next t) :
    (s.hostReady = true ∧ t = hostEffect s) ∨
    (s.scannerReady = true ∧ ∃ pix, currentPixel s = some pix ∧ t = scanEffect pix s) := by
  unfold agentStep at h
  split at h
  · rename_i hm
    have hr : s.hostReady = true := mover_ready hm
    rw [hostStep_of_ready hr] at h
    cases h
    exact .inl ⟨hr, rfl⟩
  · rename_i hm
    have hr : s.scannerReady = true := mover_ready hm
    exact .inr ⟨hr, scanStep_next h⟩
  · cases h

/-! ### Steps with nothing scheduled -/

theorem step_host_alone {s : State} (hs : s.env.sched = []) (hh : s.hostReady = true) (he : s.tg.conf.en = false) :
    step s = hostStep s := by
  simp only [step, machineStep, hs, freeStep, State.scannerReady, he, Bool.and_false, Bool.false_eq_true, if_false,
    agentStep, mover_host_turn hh]

theorem step_scanner_alone {s : State} (hs : s.env.sched = []) (hh : s.hostReady = false) (he : s.tg.conf.en = true) :
    step s = scanStep s := by
  simp only [step, machineStep, hs, freeStep, hh, Bool.false_and, Bool.false_eq_true, if_false, agentStep,
    mover_scanner (a := .host) hh (show s.scannerReady = true from he)]

/-- Until the scanner has had its number of free choices, it moves. -/
theorem step_scanner_chosen {s : State} (hs : s.env.sched = []) (hh : s.hostReady = true) (he : s.tg.conf.en = true)
    (hp : s.env.scansSince < Config.patience s.env.turnDraws) : step s = scanStep s.scannerChosen := by
  simp only [step, machineStep, hs, freeStep, hh, State.scannerReady, he, Bool.and_self, if_true, if_pos hp, agentStep]
  rw [mover_scanner_turn (by exact he)]

/-- Then the host moves. -/
theorem step_host_chosen {s : State} (hs : s.env.sched = []) (hh : s.hostReady = true) (he : s.tg.conf.en = true)
    (hp : Config.patience s.env.turnDraws ≤ s.env.scansSince) : step s = hostStep s.hostChosen := by
  simp only [step, machineStep, hs, freeStep, hh, State.scannerReady, he, Bool.and_self, if_true,
    if_neg (Nat.not_lt.mpr hp), agentStep]
  rw [mover_host_turn (by exact hh)]

/-- The environment a step hands to the agent that moves: the schedule without its first entry, or, with nothing
scheduled, the count of free choices gone on or the same. -/
def TurnTaken (s u : State) : Prop :=
  (∃ a, s.env.sched = .agent a :: u.env.sched ∧ u = s.dropSched) ∨
  (s.env.sched = [] ∧ (u = s ∨ u = s.scannerChosen ∨ u = s.hostChosen))

theorem TurnTaken.eq {s u : State} (h : TurnTaken s u) : u = { s with env := u.env } := by
  rcases h with ⟨_, _, rfl⟩ | ⟨_, rfl | rfl | rfl⟩ <;> rfl

/-- Everything a step can do. -/
theorem step_cases {s t : State} (h : step s = .next t) :
    (∃ u, TurnTaken s u ∧ u.hostReady = true ∧ t = hostEffect u) ∨
    (∃ u pix, TurnTaken s u ∧ u.scannerReady = true ∧ currentPixel u = some pix ∧ t = scanEffect pix u) ∨
    (∃ rest, s.env.sched = .reset :: rest ∧ t = resetPulse s.dropSched) ∨
    (∃ n v rest, s.env.sched = .fbWrite n v :: rest ∧ t = outsideWrite n v s.dropSched) := by
  unfold step machineStep at h
  split at h
  · rename_i hs
    unfold freeStep at h
    split at h
    · split at h
      · rcases agentStep_next h with ⟨hr, rfl⟩ | ⟨hr, pix, hp, rfl⟩
        · exact .inl ⟨_, .inr ⟨hs, .inr (.inl rfl)⟩, hr, rfl⟩
        · exact .inr (.inl ⟨_, pix, .inr ⟨hs, .inr (.inl rfl)⟩, hr, hp, rfl⟩)
      · rcases agentStep_next h with ⟨hr, rfl⟩ | ⟨hr, pix, hp, rfl⟩
        · exact .inl ⟨_, .inr ⟨hs, .inr (.inr rfl)⟩, hr, rfl⟩
        · exact .inr (.inl ⟨_, pix, .inr ⟨hs, .inr (.inr rfl)⟩, hr, hp, rfl⟩)
    · rcases agentStep_next h with ⟨hr, rfl⟩ | ⟨hr, pix, hp, rfl⟩
      · exact .inl ⟨_, .inr ⟨hs, .inl rfl⟩, hr, rfl⟩
      · exact .inr (.inl ⟨_, pix, .inr ⟨hs, .inl rfl⟩, hr, hp, rfl⟩)
  · rename_i a rest hs
    have ht : TurnTaken s s.dropSched := .inl ⟨a, by simp [hs], rfl⟩
    rcases agentStep_next h with ⟨hr, rfl⟩ | ⟨hr, pix, hp, rfl⟩
    · exact .inl ⟨_, ht, hr, rfl⟩
    · exact .inr (.inl ⟨_, pix, ht, hr, hp, rfl⟩)
  · rename_i rest hs; cases h; exact .inr (.inr (.inl ⟨rest, hs, rfl⟩))
  · rename_i n v rest hs; cases h; exact .inr (.inr (.inr ⟨n, v, rest, hs, rfl⟩))

end Sys2Proof.Machine
end

