-- ==== Sys2Proof/Laws/Spi.lean ====
section
/-! SUPPORT. What the SPI side can touch, from any state and whatever the outside world answers: said once for
a transaction and for a run of the initialization program. -/

namespace Sys2Proof.Machine

/-- Only the framer, `SQ`, the ghost state, `txn`, `wire` and the transfer draws may differ. -/
structure SpiOnly (s t : State) : Prop where
  tg : t.tg = s.tg
  video : t.obs.video = s.obs.video
  ops : t.ops = s.ops
  par : t.par = s.par
  fb : t.fb = s.fb
  sched : t.env.sched = s.env.sched
  turnDraws : t.env.turnDraws = s.env.turnDraws
  scansSince : t.env.scansSince = s.env.scansSince
  scanDraws : t.env.scanDraws = s.env.scanDraws
  resets : t.env.resets = s.env.resets

theorem SpiOnly.refl (s : State) : SpiOnly s s := ⟨rfl, rfl, rfl, rfl, rfl, rfl, rfl, rfl, rfl, rfl⟩

theorem SpiOnly.trans {s t u : State} (h : SpiOnly s t) (k : SpiOnly t u) : SpiOnly s u :=
  ⟨k.tg.trans h.tg, k.video.trans h.video, k.ops.trans h.ops, k.par.trans h.par, k.fb.trans h.fb,
   k.sched.trans h.sched, k.turnDraws.trans h.turnDraws, k.scansSince.trans h.scansSince, k.scanDraws.trans h.scanDraws,
   k.resets.trans h.resets⟩

/-! ### One transaction -/

/-- A part of a transaction: the SPI side only, and neither `SQ` nor the ghost state. -/
structure FramePart (s t : State) : Prop where
  spi : SpiOnly s t
  sq : t.sq = s.sq
  gh : t.gh = s.gh

theorem FramePart.refl (s : State) : FramePart s s := ⟨SpiOnly.refl s, rfl, rfl⟩

theorem FramePart.trans {s t u : State} (h : FramePart s t) (k : FramePart t u) : FramePart s u :=
  ⟨h.spi.trans k.spi, k.sq.trans h.sq, k.gh.trans h.gh⟩

theorem beginFrame_part (k : Kind) (b : Byte) (s : State) : FramePart s (beginFrame k b s) := by
  refine ⟨⟨?_, ?_, ?_, ?_, ?_, ?_, ?_, ?_, ?_, ?_⟩, ?_, ?_⟩ <;> simp [beginFrame]

theorem takeAnswer_part (s : State) : FramePart s s.takeAnswer := by
  refine ⟨⟨?_, ?_, ?_, ?_, ?_, ?_, ?_, ?_, ?_, ?_⟩, ?_, ?_⟩ <;> simp

theorem pulse_part (b : Byte) (s : State) (i : Nat) : FramePart s (pulse b s i) := by
  refine ⟨⟨?_, ?_, ?_, ?_, ?_, ?_, ?_, ?_, ?_, ?_⟩, ?_, ?_⟩ <;> simp [pulse]

theorem foldl_pulse_part (b : Byte) (is : List Nat) (s : State) : FramePart s (is.foldl (pulse b) s) := by
  induction is generalizing s with
  | nil => exact FramePart.refl s
  | cons i is ih => exact (pulse_part b s i).trans (ih _)

theorem endFrame_part (k : Kind) (b : Byte) (s : State) : FramePart s (endFrame k b s) := by
  refine ⟨⟨?_, ?_, ?_, ?_, ?_, ?_, ?_, ?_, ?_, ?_⟩, ?_, ?_⟩ <;> simp [endFrame]

theorem foldl_pulse_phase (b : Byte) (is : List Nat) (s : State) (h : s.fr.phase ≠ .idle) :
    (is.foldl (pulse b) s).fr.phase ≠ .idle := by
  induction is generalizing s with
  | nil => exact h
  | cons i is ih => exact ih _ (by simp [pulse])

/-- `SQ` after a stop inside a transaction: only `FLT` and `FINFO` may be written (60_exceptions.md R193). -/
structure SqStopped (q q' : Sequencer) : Prop where
  pc : q'.pc = q.pc
  inited : q'.inited = q.inited
  idx : q'.idx = q.idx

/-- Everything a transaction can do, from any state. -/
theorem transaction_cases (k : Kind) (b : Byte) (s : State) :
    (∃ t, transaction k b s = .completed t ∧ FramePart s t ∧ t.fr.phase = .idle) ∨
    (∃ t, transaction k b s = .stopped t ∧ SpiOnly s t ∧ t.gh = s.gh ∧ t.fr.phase ≠ .idle ∧ SqStopped s.sq t.sq) := by
  have hb := (beginFrame_part k b s).trans (takeAnswer_part (beginFrame k b s))
  have hp : ((beginFrame k b s).takeAnswer).fr.phase ≠ .idle := by simp [beginFrame]
  have hsend : ∀ n, FramePart s (sendBits b n (beginFrame k b s).takeAnswer) :=
    fun n => hb.trans (foldl_pulse_part b _ _)
  have hphase : ∀ n, (sendBits b n (beginFrame k b s).takeAnswer).fr.phase ≠ .idle :=
    fun n => foldl_pulse_phase b _ _ hp
  have hraise : ∀ n f info, SpiOnly s ((sendBits b n (beginFrame k b s).takeAnswer).raise f info) := fun n f info =>
    (hsend n).spi.trans ⟨rfl, rfl, rfl, rfl, rfl, rfl, rfl, rfl, rfl, rfl⟩
  have hsq : ∀ n f info, SqStopped s.sq ((sendBits b n (beginFrame k b s).takeAnswer).raise f info).sq :=
    fun n f info => by
      have := (hsend n).sq
      exact ⟨by simp [this], by simp [this], by simp [this]⟩
  unfold transaction
  cases s.env.nextAnswer with
  | done =>
    refine .inl ⟨_, rfl, (hsend 8).trans (endFrame_part k b _), ?_⟩
    simp [endFrame]
  | fault n => exact .inr ⟨_, rfl, hraise _ _ _, (hsend _).gh, hphase _, hsq _ _ _⟩
  | stall n =>
    refine .inr ⟨_, rfl, ?_⟩
    unfold stallAt
    split
    · exact ⟨(hsend _).spi, (hsend _).gh, hphase _, by rw [(hsend _).sq]; exact ⟨rfl, rfl, rfl⟩⟩
    · exact ⟨hraise _ _ _, (hsend _).gh, hphase _, hsq _ _ _⟩

theorem sendPayload_cases (bs : List Byte) (s : State) (h : s.fr.phase = .idle) :
    (∃ t, sendPayload bs s = .completed t ∧ FramePart s t ∧ t.fr.phase = .idle) ∨
    (∃ t, sendPayload bs s = .stopped t ∧ SpiOnly s t ∧ t.gh = s.gh ∧ t.fr.phase ≠ .idle ∧ SqStopped s.sq t.sq) := by
  induction bs generalizing s with
  | nil => exact .inl ⟨s, rfl, FramePart.refl s, h⟩
  | cons b bs ih =>
    rcases transaction_cases .dat b s with ⟨t, ht, hp, hi⟩ | ⟨t, ht, hp, hg, hi, hq⟩
    · rcases ih t hi with ⟨u, hu, hp', hi'⟩ | ⟨u, hu, hp', hg', hi', hq'⟩
      · exact .inl ⟨u, by simp [sendPayload, ht, Progress.andThen, hu], hp.trans hp', hi'⟩
      · exact .inr ⟨u, by simp [sendPayload, ht, Progress.andThen, hu], hp.spi.trans hp', hg'.trans hp.gh, hi',
          by rw [← hp.sq]; exact hq'⟩
    · exact .inr ⟨t, by simp [sendPayload, ht, Progress.andThen], hp, hg, hi, hq⟩

theorem runInitOp_cases (op : InitOp) (s : State) (h : s.fr.phase = .idle) :
    (∃ t, runInitOp op s = .completed t ∧ FramePart s t ∧ t.fr.phase = .idle) ∨
    (∃ t, runInitOp op s = .stopped t ∧ SpiOnly s t ∧ t.gh = s.gh ∧ t.fr.phase ≠ .idle ∧ SqStopped s.sq t.sq) := by
  cases op with
  | settle w =>
    exact .inl ⟨_, rfl, ⟨⟨rfl, rfl, rfl, rfl, rfl, rfl, rfl, rfl, rfl, rfl⟩, rfl, rfl⟩, h⟩
  | reg sel payload =>
    rcases transaction_cases .cmd sel s with ⟨t, ht, hp, hi⟩ | ⟨t, ht, hp, hg, hi, hq⟩
    · rcases sendPayload_cases payload t hi with ⟨u, hu, hp', hi'⟩ | ⟨u, hu, hp', hg', hi', hq'⟩
      · exact .inl ⟨u, by simp [runInitOp, ht, Progress.andThen, hu], hp.trans hp', hi'⟩
      · exact .inr ⟨u, by simp [runInitOp, ht, Progress.andThen, hu], hp.spi.trans hp', hg'.trans hp.gh, hi',
          by rw [← hp.sq]; exact hq'⟩
    · exact .inr ⟨t, by simp [runInitOp, ht, Progress.andThen], hp, hg, hi, hq⟩

/-! ### The initialization program -/

@[simp] theorem advancePanel_fr (e : RomEntry) (r : List RomEntry) (s : State) : (advancePanel e r s).fr = s.fr := by
  unfold advancePanel; split <;> rfl

@[simp] theorem advancePanel_sq (e : RomEntry) (r : List RomEntry) (s : State) : (advancePanel e r s).sq = s.sq := by
  unfold advancePanel; split <;> rfl

theorem advancePanel_spi (e : RomEntry) (r : List RomEntry) (s : State) : SpiOnly s (advancePanel e r s) := by
  unfold advancePanel; split <;> exact ⟨rfl, rfl, rfl, rfl, rfl, rfl, rfl, rfl, rfl, rfl⟩

/-- Everything a run of the program can do, from a state between transactions. -/
theorem runProgram_cases (es : List RomEntry) (s : State) (h : s.fr.phase = .idle) :
    (∃ t, runProgram es s = .completed t ∧ SpiOnly s t ∧ t.fr.phase = .idle ∧
      t.sq = { s.sq with idx := s.sq.idx + es.length }) ∨
    (∃ t, runProgram es s = .stopped t ∧ SpiOnly s t ∧ t.fr.phase ≠ .idle ∧
      t.sq.pc = s.sq.pc ∧ t.sq.inited = s.sq.inited) := by
  induction es generalizing s with
  | nil => exact .inl ⟨s, rfl, SpiOnly.refl s, h, rfl⟩
  | cons e es ih =>
    rcases runInitOp_cases e.op s h with ⟨t, ht, hp, hi⟩ | ⟨t, ht, hp, hg, hi, hq⟩
    · have hs : SpiOnly s (nextEntry (advancePanel e es t)) :=
        hp.spi.trans ((advancePanel_spi e es t).trans ⟨rfl, rfl, rfl, rfl, rfl, rfl, rfl, rfl, rfl, rfl⟩)
      rcases ih (nextEntry (advancePanel e es t)) (by simpa using hi) with
        ⟨u, hu, hp', hi', hq'⟩ | ⟨u, hu, hp', hi', hq1, hq2⟩
      · refine .inl ⟨u, by simp [runProgram, ht, Progress.andThen, hu], hs.trans hp', hi', ?_⟩
        rw [hq']
        simp [hp.sq]; omega
      · refine .inr ⟨u, by simp [runProgram, ht, Progress.andThen, hu], hs.trans hp', hi', ?_, ?_⟩
        · rw [hq1]; simp [hp.sq]
        · rw [hq2]; simp [hp.sq]
    · exact .inr ⟨t, by simp [runProgram, ht, Progress.andThen], hp, hi, hq.pc, hq.inited⟩

end Sys2Proof.Machine
end

