-- ==== Sys2Proof/Laws/Sequencer.lean ====
section
/-! SUPPORT. Runs of transactions with every transfer `Done`, said once: what they send, composed entry by entry
(40_framer_ops.md R84, R89; 41_sequencer_ops.md R111). -/

namespace Sys2Proof.Machine

/-! ### Lists of `txn` entries -/

@[simp] theorem wireTxns_append (l m : List TxnEntry) : wireTxns (l ++ m) = wireTxns l ++ wireTxns m := by
  induction l with
  | nil => rfl
  | cons e l ih => cases e <;> simp [wireTxns, ih]

/-- Where MOSI rests after the entries, from `m`. -/
def restLevel (m : Level) (l : List TxnEntry) : Level :=
  match (wireTxns l).getLast? with
  | none => m
  | some (_, b) => b.getLsbD 0

theorem framesOf_append (l l' : List TxnEntry) (m : Level) :
    framesOf (l ++ l') m = framesOf l m ++ framesOf l' (restLevel m l) := by
  induction l generalizing m with
  | nil => rfl
  | cons e l ih =>
    cases e with
    | settle ms => simpa [framesOf, restLevel, wireTxns] using ih m
    | txn k b =>
      simp only [List.cons_append, framesOf, ih, List.append_assoc]
      congr 3
      unfold restLevel
      simp only [wireTxns]
      cases h : (wireTxns l).getLast? <;> simp [List.getLast?_cons, h]

theorem length_wholeFrame (k : Kind) (b : Byte) (m : Level) : (wholeFrame k b m).length = 27 := by
  simp [wholeFrame, openFrame, Config.bitOrder, bitTuples]

theorem length_framesOf (l : List TxnEntry) (m : Level) :
    (framesOf l m).length = 27 * (wireTxns l).length := by
  induction l generalizing m with
  | nil => rfl
  | cons e l ih =>
    cases e with
    | settle ms => simpa [framesOf, wireTxns] using ih m
    | txn k b => simp [framesOf, wireTxns, length_wholeFrame, ih]; omega

/-! ### Draws -/

theorem Env.afterAnswers_add (m n : Nat) (e : Env) :
    Env.afterAnswers (m + n) e = Env.afterAnswers n (Env.afterAnswers m e) := by
  induction m generalizing e with
  | zero => simp [Env.afterAnswers]
  | succ m ih => simp only [Nat.succ_add, Env.afterAnswers, ih]

theorem Env.afterAnswers_succ (n : Nat) (e : Env) :
    Env.afterAnswers (n + 1) e = (Env.afterAnswers n e).takeAnswer := by
  rw [Env.afterAnswers_add]; rfl

theorem Env.allDone_add (m n : Nat) (e : Env) :
    e.allDone (m + n) ↔ e.allDone m ∧ (e.afterAnswers m).allDone n := by
  induction m generalizing e with
  | zero => simp [Env.allDone, Env.afterAnswers]
  | succ m ih => simp only [Nat.succ_add, Env.allDone, Env.afterAnswers, ih, and_assoc]

/-- The draws of MISO do not touch the answers. -/
theorem Env.takeAnswer_miso (e : Env) (k : Nat) :
    Env.takeAnswer { e with misoDraws := k } = { e.takeAnswer with misoDraws := k } := by
  rcases e with ⟨_, answers, _, _, _, _, _⟩
  cases answers <;> rfl

theorem Env.afterAnswers_miso (n : Nat) (e : Env) (k : Nat) :
    Env.afterAnswers n { e with misoDraws := k } = { Env.afterAnswers n e with misoDraws := k } := by
  induction n generalizing e with
  | zero => rfl
  | succ n ih => simp only [Env.afterAnswers, Env.takeAnswer_miso, ih]

theorem Env.allDone_miso (n : Nat) (e : Env) (k : Nat) :
    Env.allDone n { e with misoDraws := k } ↔ Env.allDone n e := by
  induction n generalizing e with
  | zero => rfl
  | succ n ih => simp only [Env.allDone, Env.takeAnswer_miso, ih]; rfl

@[simp] theorem Env.afterAnswers_misoDraws (n : Nat) (e : Env) : (Env.afterAnswers n e).misoDraws = e.misoDraws := by
  induction n generalizing e with
  | zero => rfl
  | succ n ih => simp only [Env.afterAnswers, ih, Env.takeAnswer_misoDraws]

/-! ### Sending -/

theorem RxSampled.of_eight {old old' : Byte} {m : Nat} {rx : Byte} (h : RxSampled old m 8 rx) :
    RxSampled old' m 8 rx := by
  intro i hi
  have := h i hi
  simpa using this

theorem SentFrom.refl (s : State) : SentFrom s s [] :=
  ⟨by simp, by simp [framesOf], rfl, rfl, rfl, rfl, rfl, rfl, rfl⟩

/-- MOSI after the entries. -/
theorem SentFrom.mosi {s t : State} {l : List TxnEntry} (h : SentFrom s t l) :
    t.fr.mosi = restLevel s.fr.mosi l := by
  have hf := h.framer
  unfold restLevel
  cases hl : (wireTxns l).getLast? with
  | none => rw [hl] at hf; exact congrArg Framer.mosi hf
  | some p =>
    rw [hl] at hf
    obtain ⟨rx, _, he⟩ := hf
    exact congrArg Framer.mosi he

theorem SentFrom.idle {s t : State} {l : List TxnEntry} (h : SentFrom s t l) (hi : FramerIdle s.fr) :
    FramerIdle t.fr := by
  have hf := h.framer
  split at hf
  · rw [hf]; exact hi
  · obtain ⟨rx, _, he⟩ := hf; rw [he]; exact ⟨rfl, rfl, rfl, rfl⟩

theorem SentFrom.trans {s t u : State} {l m : List TxnEntry} (h : SentFrom s t l) (k : SentFrom t u m) :
    SentFrom s u (l ++ m) where
  txn := by rw [k.txn, h.txn, List.append_assoc]
  wire := by rw [k.wire, h.wire, framesOf_append, h.mosi, List.append_assoc]
  video := k.video.trans h.video
  framer := by
    have hf := h.framer
    have kf := k.framer
    rw [wireTxns_append, List.getLast?_append]
    cases hm : (wireTxns m).getLast? with
    | none =>
      have hm0 : wireTxns m = [] := List.getLast?_eq_none_iff.mp hm
      rw [hm] at kf
      simp only [Option.or, hm0, List.append_nil]
      rw [kf]; exact hf
    | some kb =>
      obtain ⟨kk, b⟩ := kb
      rw [hm] at kf
      obtain ⟨rx, hr, he⟩ := kf
      refine ⟨rx, ?_, he⟩
      have hmis : t.env.misoDraws = s.env.misoDraws + 8 * (wireTxns l).length := by rw [h.env]
      have hlen : 0 < (wireTxns m).length := by
        cases hw : wireTxns m with
        | nil => rw [hw] at hm; simp at hm
        | cons a b => simp
      rw [hmis] at hr
      rw [List.length_append]
      have : s.env.misoDraws + 8 * ((wireTxns l).length + (wireTxns m).length - 1) =
          s.env.misoDraws + 8 * (wireTxns l).length + 8 * ((wireTxns m).length - 1) := by omega
      rw [this]; exact hr
  env := by
    rw [k.env, h.env, Env.afterAnswers_miso, wireTxns_append, List.length_append, Env.afterAnswers_add]
    simp only [Nat.mul_add, Nat.add_assoc]
  tg := k.tg.trans h.tg
  ops := k.ops.trans h.ops
  par := k.par.trans h.par
  fb := k.fb.trans h.fb

/-- `SQ` and the ghost state play no part. -/
theorem SentFrom.of_sq_gh {s t : State} {l : List TxnEntry} (h : SentFrom s t l) (q q' : Sequencer)
    (g g' : PanelState) : SentFrom { s with sq := q, gh := g } { t with sq := q', gh := g' } l :=
  ⟨h.txn, h.wire, h.video, h.framer, h.env, h.tg, h.ops, h.par, h.fb⟩

theorem sentFrom_afterTxn (k : Kind) (b : Byte) (s : State) :
    SentFrom s (afterTxn k b (rxAfter Config.bitOrder s.env.misoDraws s.fr.rxsr) s) [.txn k b] := by
  have hr : RxSampled 0 s.env.misoDraws 8 (rxAfter Config.bitOrder s.env.misoDraws s.fr.rxsr) :=
    (rxAfter_sampled s.fr.rxsr s.env.misoDraws 8 (Nat.le_refl 8)).of_eight
  exact ⟨rfl, by simp [framesOf, afterTxn], rfl, ⟨_, by simpa [wireTxns] using hr, rfl⟩, rfl, rfl, rfl, rfl, rfl⟩

theorem sentFrom_settle (ms : Nat) (s : State) : SentFrom s (waitAtLeast ms s) [.settle ms] :=
  ⟨rfl, by simp [framesOf], rfl, rfl, rfl, rfl, rfl, rfl, rfl⟩

/-- The answers still to come after what was sent. -/
theorem SentFrom.allDone {s t : State} {l : List TxnEntry} (h : SentFrom s t l) {n : Nat}
    (hd : s.env.allDone ((wireTxns l).length + n)) : t.env.allDone n := by
  rw [h.env, Env.allDone_miso]
  exact ((Env.allDone_add _ _ _).mp hd).2

/-! ### Operations with every transfer `Done` -/

theorem transaction_sent (k : Kind) (b : Byte) (s : State) (h : FramerIdle s.fr) (hd : s.env.allDone 1) :
    ∃ t, transaction k b s = .completed t ∧ SentFrom s t [.txn k b] ∧ t.sq = s.sq ∧ t.gh = s.gh :=
  ⟨_, transaction_done k b s h hd.1, sentFrom_afterTxn k b s, rfl, rfl⟩

theorem sendPayload_sent (bs : List Byte) (s : State) (h : FramerIdle s.fr) (hd : s.env.allDone bs.length) :
    ∃ t, sendPayload bs s = .completed t ∧ SentFrom s t (bs.map (.txn .dat)) ∧ t.sq = s.sq ∧ t.gh = s.gh := by
  induction bs generalizing s with
  | nil => exact ⟨s, rfl, SentFrom.refl s, rfl, rfl⟩
  | cons b bs ih =>
    rw [List.length_cons, Nat.add_comm] at hd
    obtain ⟨t, ht, hs, hq, hg⟩ := transaction_sent .dat b s h ((Env.allDone_add 1 _ _).mp hd).1
    obtain ⟨u, hu, hs', hq', hg'⟩ := ih t (hs.idle h) (hs.allDone hd)
    exact ⟨u, by simp [sendPayload, ht, Progress.andThen, hu], hs.trans hs', hq'.trans hq, hg'.trans hg⟩

theorem wireTxns_payload (k : Kind) (bs : List Byte) : (wireTxns (bs.map (.txn k))).length = bs.length := by
  induction bs with
  | nil => rfl
  | cons b bs ih => simp [wireTxns, ih]

theorem runInitOp_sent (op : InitOp) (s : State) (h : FramerIdle s.fr)
    (hd : s.env.allDone (wireTxns (opTxns s.par.raw op)).length) :
    ∃ t, runInitOp op s = .completed t ∧ SentFrom s t (opTxns s.par.raw op) ∧ t.sq = s.sq ∧ t.gh = s.gh := by
  cases op with
  | settle w => cases w <;> exact ⟨_, rfl, sentFrom_settle _ s, rfl, rfl⟩
  | reg sel payload =>
    simp only [opTxns, wireTxns, List.length_cons, wireTxns_payload] at hd
    rw [Nat.add_comm] at hd
    obtain ⟨t, ht, hs, hq, hg⟩ := transaction_sent .cmd sel s h ((Env.allDone_add 1 _ _).mp hd).1
    obtain ⟨u, hu, hs', hq', hg'⟩ := sendPayload_sent payload t (hs.idle h) (hs.allDone hd)
    exact ⟨u, by simp [runInitOp, ht, Progress.andThen, hu], hs.trans hs', hq'.trans hq, hg'.trans hg⟩

/-- `INIT` on a panel that is not initialised: the program from entry 0 (R111). -/
theorem effect_init {s : State} (hi : s.sq.inited = false) :
    effect .init s = (runProgram s.par.raw.program { s with sq := { s.sq with idx := 0 } }).finish
      (fun t => (endInit t).advance 1) := by
  exact if_neg (by rw [hi]; exact Bool.false_ne_true)

/-- The Panel State once the first `n` entries of a list have been executed (R120). -/
def panelUpTo : PanelState → List RomEntry → Nat → PanelState
  | g, _, 0 => g
  | g, [], _ + 1 => g
  | g, e :: rest, n + 1 =>
    panelUpTo (if rest.head?.map RomEntry.stage = some e.stage then g else panelAfterStage g e.stage) rest n

theorem advancePanel_gh (e : RomEntry) (rest : List RomEntry) (s : State) : (advancePanel e rest s).gh =
    if rest.head?.map RomEntry.stage = some e.stage then s.gh else panelAfterStage s.gh e.stage := by
  unfold advancePanel; split <;> rfl

theorem advancePanel_eq (e : RomEntry) (rest : List RomEntry) (s : State) :
    advancePanel e rest s = { s with gh := (advancePanel e rest s).gh } := by
  unfold advancePanel; split <;> rfl

theorem runProgram_sent (es : List RomEntry) (s : State) (h : FramerIdle s.fr)
    (hd : s.env.allDone (wireTxns (es.flatMap (entryTxns s.par.raw))).length) :
    ∃ t, runProgram es s = .completed t ∧ SentFrom s t (es.flatMap (entryTxns s.par.raw)) ∧
      t.sq = { s.sq with idx := s.sq.idx + es.length } ∧ t.gh = panelUpTo s.gh es es.length := by
  induction es generalizing s with
  | nil => exact ⟨s, rfl, SentFrom.refl s, rfl, rfl⟩
  | cons e es ih =>
    simp only [List.flatMap_cons, wireTxns_append, List.length_append] at hd
    obtain ⟨t, ht, hs, hq, hg⟩ := runInitOp_sent e.op s h
      (by rw [← entryTxns_eq]; exact ((Env.allDone_add _ _ _).mp hd).1)
    rw [← entryTxns_eq] at hs
    have hs1 : SentFrom s (nextEntry (advancePanel e es t)) (entryTxns s.par.raw e) := by
      have := hs.of_sq_gh s.sq (nextEntry (advancePanel e es t)).sq s.gh (advancePanel e es t).gh
      have he : nextEntry (advancePanel e es t) =
          { t with sq := (nextEntry (advancePanel e es t)).sq, gh := (advancePanel e es t).gh } := by
        rw [advancePanel_eq]; rfl
      rw [he]; exact this
    have hpar : (nextEntry (advancePanel e es t)).par = s.par := hs1.par
    obtain ⟨u, hu, hs', hq', hg'⟩ := ih (nextEntry (advancePanel e es t)) (hs1.idle h)
      (by rw [hpar]; exact hs1.allDone hd)
    rw [hpar] at hs'
    refine ⟨u, by simp [runProgram, ht, Progress.andThen, hu], ?_, ?_, ?_⟩
    · rw [List.flatMap_cons]; exact hs1.trans hs'
    · rw [hq']
      simp [nextEntry, hq]; omega
    · rw [hg', List.length_cons, panelUpTo]
      simp only [nextEntry, advancePanel_gh, hg]

/-- The Panel State when the program has run to its end, whatever was answered on the way. -/
theorem runProgram_gh (es : List RomEntry) (s t : State) (h : runProgram es s = .completed t) :
    t.gh = panelUpTo s.gh es es.length := by
  induction es generalizing s with
  | nil => cases h; rfl
  | cons e es ih =>
    have payload : ∀ (bs : List Byte) (s u : State), sendPayload bs s = .completed u → u.gh = s.gh := by
      intro bs
      induction bs with
      | nil => intro s u hu; cases hu; rfl
      | cons b bs ihb =>
        intro s u hu
        rcases transaction_cases .dat b s with ⟨v, hv, hp, _⟩ | ⟨v, hv, _⟩
        · simp only [sendPayload, hv, Progress.andThen] at hu
          exact (ihb v u hu).trans hp.gh
        · simp [sendPayload, hv, Progress.andThen] at hu
    have entry : ∀ u, runInitOp e.op s = .completed u → u.gh = s.gh := by
      intro u hu
      rcases e with ⟨k, op⟩
      cases op with
      | settle w => cases hu; rfl
      | reg sel bs =>
        rcases transaction_cases .cmd sel s with ⟨v, hv, hp, _⟩ | ⟨v, hv, _⟩
        · simp only [runInitOp, hv, Progress.andThen] at hu
          exact (payload bs v u hu).trans hp.gh
        · simp [runInitOp, hv, Progress.andThen] at hu
    unfold runProgram at h
    cases hr : runInitOp e.op s with
    | stopped u => simp [hr, Progress.andThen] at h
    | completed u =>
      simp only [hr, Progress.andThen] at h
      rw [ih _ h, List.length_cons, panelUpTo]
      simp only [nextEntry, advancePanel_gh, entry u hr]

/-! ### A transfer that is not `Done` -/

theorem transaction_stops (k : Kind) (b : Byte) (s : State) (h : FramerIdle s.fr) (ha : s.env.nextAnswer ≠ .done) :
    ∃ rx, RxSampled s.fr.rxsr s.env.misoDraws (pulsesOf s.env.nextAnswer) rx ∧
      transaction k b s = .stopped { brokenTxn k b (pulsesOf s.env.nextAnswer) rx s with
        sq := brokenSq s.par.raw s.sq k b s.env.nextAnswer } := by
  refine ⟨_, rxAfter_sampled _ _ _ ?_, transaction_broken k b s h ha⟩
  cases s.env.nextAnswer with
  | done => exact Nat.le_refl 8
  | fault n => exact Nat.le_of_lt_succ n.isLt
  | stall n => exact Nat.le_of_lt_succ n.isLt

/-- `p` stopped inside transaction `j` of the entries `l` after a run from `s`: `q` is `SQ` as it stood before the
transaction, `g` the Panel State. -/
def StoppedAt (s : State) (l : List TxnEntry) (j : Nat) (k : Kind) (b : Byte) (q : Sequencer) (g : PanelState)
    (p : Progress) : Prop :=
  ∃ u rx, SentFrom s u (beforeTransfer j l) ∧
    RxSampled u.fr.rxsr u.env.misoDraws (pulsesOf (s.env.afterAnswers j).nextAnswer) rx ∧
    p = .stopped { brokenTxn k b (pulsesOf (s.env.afterAnswers j).nextAnswer) rx u with
      sq := brokenSq s.par.raw q k b (s.env.afterAnswers j).nextAnswer, gh := g }

theorem SentFrom.afterAnswers {s t : State} {l : List TxnEntry} (h : SentFrom s t l) (n : Nat) :
    (t.env.afterAnswers n).nextAnswer = (s.env.afterAnswers ((wireTxns l).length + n)).nextAnswer := by
  rw [h.env, Env.afterAnswers_miso, Env.afterAnswers_add]; rfl

theorem beforeTransfer_append (l m : List TxnEntry) (n : Nat) :
    beforeTransfer ((wireTxns l).length + n) (l ++ m) = l ++ beforeTransfer n m := by
  induction l with
  | nil => simp [wireTxns]
  | cons e l ih =>
    cases e with
    | settle ms =>
      simp only [List.cons_append, wireTxns]
      cases h : (wireTxns l).length + n with
      | zero => rw [← h, beforeTransfer, ih]
      | succ x => rw [← h, beforeTransfer, ih]
    | txn k b =>
      simp only [List.cons_append, wireTxns, List.length_cons]
      rw [show (wireTxns l).length + 1 + n = ((wireTxns l).length + n) + 1 from by omega, beforeTransfer, ih]

theorem beforeTransfer_within (l m : List TxnEntry) (n : Nat) (h : n < (wireTxns l).length) :
    beforeTransfer n (l ++ m) = beforeTransfer n l := by
  induction l generalizing n with
  | nil => simp [wireTxns] at h
  | cons e l ih =>
    cases e with
    | settle ms => cases n <;> simp only [List.cons_append, beforeTransfer] <;> rw [ih _ (by simpa [wireTxns] using h)]
    | txn k b =>
      cases n with
      | zero => rfl
      | succ n =>
        simp only [List.cons_append, beforeTransfer]
        rw [ih _ (by simpa [wireTxns] using h)]

/-- What was sent before the part that stopped. -/
theorem StoppedAt.after {s t : State} {l m : List TxnEntry} (h : SentFrom s t l) {n : Nat} {k : Kind} {b : Byte}
    {q : Sequencer} {g : PanelState} {p : Progress} (hp : StoppedAt t m n k b q g p) :
    StoppedAt s (l ++ m) ((wireTxns l).length + n) k b q g p := by
  obtain ⟨u, rx, hs, hr, he⟩ := hp
  rw [h.afterAnswers n] at hr he
  rw [h.par] at he
  exact ⟨u, rx, by rw [beforeTransfer_append]; exact h.trans hs, hr, he⟩

theorem transaction_stoppedAt (k : Kind) (b : Byte) (s : State) (h : FramerIdle s.fr)
    (ha : s.env.nextAnswer ≠ .done) :
    StoppedAt s [.txn k b] 0 k b s.sq s.gh (transaction k b s) := by
  obtain ⟨rx, hr, he⟩ := transaction_stops k b s h ha
  exact ⟨s, rx, SentFrom.refl s, hr, he⟩

theorem sendPayload_stoppedAt (bs : List Byte) (s : State) (j : Nat) (k : Kind) (b : Byte) (h : FramerIdle s.fr)
    (hd : s.env.allDone j) (ha : (s.env.afterAnswers j).nextAnswer ≠ .done)
    (hj : (wireTxns (bs.map (.txn .dat)))[j]? = some (k, b)) :
    StoppedAt s (bs.map (.txn .dat)) j k b s.sq s.gh (sendPayload bs s) := by
  induction bs generalizing s j with
  | nil => simp [wireTxns] at hj
  | cons c bs ih =>
    cases j with
    | zero =>
      simp only [List.map_cons, wireTxns, List.getElem?_cons_zero, Option.some.injEq, Prod.mk.injEq] at hj
      obtain ⟨rfl, rfl⟩ := hj
      obtain ⟨u, rx, hs, hr, he⟩ := transaction_stoppedAt .dat c s h ha
      exact ⟨u, rx, hs, hr, by simp [sendPayload, he, Progress.andThen]⟩
    | succ j =>
      obtain ⟨t, ht, hs, hq, hg⟩ := transaction_sent .dat c s h ⟨hd.1, trivial⟩
      have hlen : (wireTxns [TxnEntry.txn .dat c]).length = 1 := rfl
      have := ih t j (hs.idle h) (hs.allDone (by rw [hlen, Nat.add_comm]; exact hd))
        (by rw [hs.afterAnswers, hlen, Nat.add_comm]; exact ha) (by simpa [wireTxns] using hj)
      rw [hq, hg] at this
      have := StoppedAt.after hs this
      rw [hlen, Nat.add_comm] at this
      simpa [sendPayload, ht, Progress.andThen] using this

theorem runInitOp_stoppedAt (op : InitOp) (s : State) (j : Nat) (k : Kind) (b : Byte) (h : FramerIdle s.fr)
    (hd : s.env.allDone j) (ha : (s.env.afterAnswers j).nextAnswer ≠ .done)
    (hj : (wireTxns (opTxns s.par.raw op))[j]? = some (k, b)) :
    StoppedAt s (opTxns s.par.raw op) j k b s.sq s.gh (runInitOp op s) := by
  cases op with
  | settle w => cases w <;> simp [opTxns, wireTxns] at hj
  | reg sel payload =>
    cases j with
    | zero =>
      simp only [opTxns, wireTxns, List.getElem?_cons_zero, Option.some.injEq, Prod.mk.injEq] at hj
      obtain ⟨rfl, rfl⟩ := hj
      obtain ⟨u, rx, hs, hr, he⟩ := transaction_stoppedAt .cmd sel s h ha
      exact ⟨u, rx, hs, hr, by simp [runInitOp, he, Progress.andThen]⟩
    | succ j =>
      obtain ⟨t, ht, hs, hq, hg⟩ := transaction_sent .cmd sel s h ⟨hd.1, trivial⟩
      have hlen : (wireTxns [TxnEntry.txn .cmd sel]).length = 1 := rfl
      have := sendPayload_stoppedAt payload t j k b (hs.idle h)
        (hs.allDone (by rw [hlen, Nat.add_comm]; exact hd))
        (by rw [hs.afterAnswers, hlen, Nat.add_comm]; exact ha) (by simpa [opTxns, wireTxns] using hj)
      rw [hq, hg] at this
      have := StoppedAt.after hs this
      rw [hlen, Nat.add_comm] at this
      simpa [runInitOp, ht, Progress.andThen, opTxns] using this

/-- The state with another `SQ` and Panel State has the same draws to come. -/
theorem runProgram_stoppedAt (es : List RomEntry) (s : State) (j : Nat) (k : Kind) (b : Byte) (h : FramerIdle s.fr)
    (hd : s.env.allDone j) (ha : (s.env.afterAnswers j).nextAnswer ≠ .done)
    (hj : (wireTxns (es.flatMap (entryTxns s.par.raw)))[j]? = some (k, b)) :
    StoppedAt s (es.flatMap (entryTxns s.par.raw)) j k b
      { s.sq with idx := s.sq.idx + entryOfTransfer s.par.raw j es }
      (panelUpTo s.gh es (entryOfTransfer s.par.raw j es)) (runProgram es s) := by
  induction es generalizing s j with
  | nil => simp [wireTxns] at hj
  | cons e es ih =>
    simp only [List.flatMap_cons, wireTxns_append] at hj ⊢
    by_cases hlt : j < (wireTxns (entryTxns s.par.raw e)).length
    · rw [List.getElem?_append_left hlt, entryTxns_eq] at hj
      obtain ⟨u, rx, hs, hr, he⟩ := runInitOp_stoppedAt e.op s j k b h hd ha hj
      refine ⟨u, rx, ?_, hr, ?_⟩
      · rw [beforeTransfer_within _ _ _ hlt, entryTxns_eq]; exact hs
      · simp only [runProgram, he, Progress.andThen, entryOfTransfer, hlt, if_true, panelUpTo, Nat.add_zero]
    · have hle : (wireTxns (entryTxns s.par.raw e)).length ≤ j := Nat.le_of_not_lt hlt
      obtain ⟨n, rfl⟩ := Nat.exists_eq_add_of_le hle
      rw [List.getElem?_append_right hle, Nat.add_sub_cancel_left] at hj
      have hd' := (Env.allDone_add _ _ _).mp hd
      obtain ⟨t, ht, hs, hq, hg⟩ := runInitOp_sent e.op s h (by rw [← entryTxns_eq]; exact hd'.1)
      rw [← entryTxns_eq] at hs
      have hs1 : SentFrom s (nextEntry (advancePanel e es t)) (entryTxns s.par.raw e) := by
        have := hs.of_sq_gh s.sq (nextEntry (advancePanel e es t)).sq s.gh (advancePanel e es t).gh
        have he : nextEntry (advancePanel e es t) =
            { t with sq := (nextEntry (advancePanel e es t)).sq, gh := (advancePanel e es t).gh } := by
          rw [advancePanel_eq]; rfl
        rw [he]; exact this
      have hpar : (nextEntry (advancePanel e es t)).par = s.par := hs1.par
      have := ih (nextEntry (advancePanel e es t)) n (hs1.idle h) (hs1.allDone hd)
        (by rw [hs1.afterAnswers]; exact ha) (by rw [hpar]; exact hj)
      rw [hpar] at this
      have := StoppedAt.after hs1 this
      simp only [runProgram, ht, Progress.andThen, entryOfTransfer, hlt, if_false, Nat.add_sub_cancel_left]
      have hidx : (nextEntry (advancePanel e es t)).sq = { s.sq with idx := s.sq.idx + 1 } := by
        simp [nextEntry, hq]
      have hpan : panelUpTo s.gh (e :: es) (1 + entryOfTransfer s.par.raw n es) =
          panelUpTo (nextEntry (advancePanel e es t)).gh es (entryOfTransfer s.par.raw n es) := by
        rw [Nat.add_comm, panelUpTo]
        simp only [nextEntry, advancePanel_gh, hg]
      rw [hpan, ← Nat.add_assoc]
      rw [hidx] at this
      exact this

/-! ### The Panel State along the program (R120) -/

theorem panelAfterStage_panelAfter (k : Nat) (h1 : 1 ≤ k) (h12 : k < 13) :
    panelAfterStage (panelAfter (k - 1)) k = panelAfter k := by
  interval_cases k <;> rfl

/-- Along a program without a gap in its stage numbers, the Panel State before an entry is that of the last
complete stage. -/
theorem panelUpTo_eq (es : List RomEntry) (n : Nat) (e : RomEntry) (he : es[n]? = some e) (g : PanelState)
    (hg : ∀ a, es.head? = some a → g = panelAfter (a.stage - 1))
    (hs : ∀ a ∈ es, 1 ≤ a.stage ∧ a.stage < 13)
    (hc : ∀ i a b, es[i]? = some a → es[i + 1]? = some b → b.stage = a.stage ∨ b.stage = a.stage + 1) :
    panelUpTo g es n = panelAfter (e.stage - 1) := by
  induction es generalizing n g with
  | nil => simp at he
  | cons a es ih =>
    cases n with
    | zero =>
      simp only [List.getElem?_cons_zero, Option.some.injEq] at he
      subst he
      exact hg a rfl
    | succ n =>
      rw [panelUpTo]
      refine ih n (by simpa using he) _ ?_ (fun x hx => hs x (List.mem_cons_of_mem _ hx))
        (fun i x y hx hy => hc (i + 1) x y (by simpa using hx) (by simpa using hy))
      intro b hb
      have hab := hc 0 a b rfl (by simpa [List.head?_eq_getElem?] using hb)
      have ha := hs a (List.mem_cons_self ..)
      rw [hb, hg a rfl]
      simp only [Option.map_some, Option.some.injEq]
      rcases hab with h | h
      · simp [h]
      · rw [if_neg (by omega), panelAfterStage_panelAfter _ ha.1 ha.2, h]; rfl

/-- Each stage of an admissible program holds an entry. -/
theorem stage_nonempty (p : Params) (k : Nat) (h1 : 1 ≤ k) (h12 : k < 13) : ∃ e ∈ p.raw.program, e.stage = k := by
  have F := (paramFacts p).program
  have hne : stageOps p.raw.program k ≠ [] := by
    intro h0
    have hl := (F.listed k h1 h12).length_eq
    rw [h0] at hl
    simp only [listedOps, List.filter_nil, regSels, List.length_nil, List.length_map] at hl
    interval_cases k <;> simp [stageSels] at hl
  obtain ⟨op, hop⟩ := List.exists_mem_of_ne_nil _ hne
  simp only [stageOps, List.mem_map, List.mem_filter, beq_iff_eq] at hop
  obtain ⟨e, ⟨he, hk⟩, _⟩ := hop
  exact ⟨e, he, hk⟩

theorem stages_without_gap (p : Params) (i : Nat) (a b : RomEntry) (ha : p.raw.program[i]? = some a)
    (hb : p.raw.program[i + 1]? = some b) : b.stage = a.stage ∨ b.stage = a.stage + 1 := by
  have F := (paramFacts p).program
  obtain ⟨hi, rfl⟩ := List.getElem?_eq_some_iff.mp ha
  obtain ⟨hi', rfl⟩ := List.getElem?_eq_some_iff.mp hb
  have hmono : ∀ x y (hx : x < p.raw.program.length) (hy : y < p.raw.program.length), x < y →
      p.raw.program[x].stage ≤ p.raw.program[y].stage := by
    intro x y hx hy hxy
    have := List.pairwise_iff_getElem.mp F.sorted x y (by simpa using hx) (by simpa using hy) hxy
    simpa using this
  have hle := hmono i (i + 1) hi hi' (Nat.lt_succ_self i)
  have hna := F.numbers _ (List.getElem_mem hi)
  have hnb := F.numbers _ (List.getElem_mem hi')
  by_contra hcon
  have hgap : p.raw.program[i].stage + 1 < p.raw.program[i + 1].stage := by omega
  obtain ⟨e, he, hk⟩ := stage_nonempty p (p.raw.program[i].stage + 1) (by omega) (by omega)
  obtain ⟨m, hm, rfl⟩ := List.getElem_of_mem he
  by_cases hmi : m ≤ i
  · rcases Nat.lt_or_eq_of_le hmi with h | h
    · have := hmono m i hm hi h; omega
    · subst h; omega
  · rcases Nat.lt_or_eq_of_le (show i + 1 ≤ m by omega) with h | h
    · have := hmono (i + 1) m hi' hm h; omega
    · subst h; omega

/-- The Panel State from `Reset` before the entry with index `n`. -/
theorem panel_before_entry (p : Params) (n : Nat) (e : RomEntry) (he : p.raw.program[n]? = some e) :
    panelUpTo .reset p.raw.program n = panelAfter (e.stage - 1) := by
  have F := (paramFacts p).program
  refine panelUpTo_eq _ n e he _ ?_ F.numbers (stages_without_gap p)
  intro a ha
  rw [F.first] at ha
  cases ha
  rfl

/-- The Panel State after the whole program is armed, whatever it was before. -/
theorem panel_after_program (p : Params) (g : PanelState) :
    panelUpTo g p.raw.program p.raw.program.length = .gramWriteArmed := by
  obtain ⟨init, hi⟩ := program_ends_twelve p
  have : ∀ (l : List RomEntry) (g : PanelState),
      panelUpTo g (l ++ [(⟨12, .reg 0x2C []⟩ : RomEntry)]) (l ++ [(⟨12, .reg 0x2C []⟩ : RomEntry)]).length = .gramWriteArmed := by
    intro l
    induction l with
    | nil => intro g; rfl
    | cons a l ih => intro g; simp only [List.cons_append, List.length_cons, panelUpTo]; exact ih _
  rw [hi]
  exact this init g

end Sys2Proof.Machine
end

