-- ==== Sys2Proof/Laws/Effect.lean ====
section
/-! SUPPORT. What the effect of an operation can touch, said once per kind of operation: the SPI side's, the timing
generator's, and a fault. -/

namespace Sys2Proof.Machine

/-- What no host step touches. -/
structure HostOnly (s t : State) : Prop where
  video : t.obs.video = s.obs.video
  ops : t.ops = s.ops
  par : t.par = s.par
  fb : t.fb = s.fb
  sched : t.env.sched = s.env.sched
  turnDraws : t.env.turnDraws = s.env.turnDraws
  scansSince : t.env.scansSince = s.env.scansSince
  scanDraws : t.env.scanDraws = s.env.scanDraws
  resets : t.env.resets = s.env.resets

theorem SpiOnly.hostOnly {s t : State} (h : SpiOnly s t) : HostOnly s t :=
  ⟨h.video, h.ops, h.par, h.fb, h.sched, h.turnDraws, h.scansSince, h.scanDraws, h.resets⟩

/-- A fault: `FLT` and `FINFO`, nothing else (60_exceptions.md R193). -/
def Raised (s t : State) : Prop := ∃ f info, t = State.raise f info s

theorem Raised.spi {s t : State} (h : Raised s t) : SpiOnly s t := by
  obtain ⟨f, info, rfl⟩ := h
  exact ⟨rfl, rfl, rfl, rfl, rfl, rfl, rfl, rfl, rfl, rfl⟩

theorem HwFault.code_ne_zero (f : HwFault) : f.code ≠ 0 := by cases f <;> decide

theorem HwFault.code_le (f : HwFault) : f.code.toNat ≤ 9 := by cases f <;> decide

/-- An operation of the SPI side completed: `pc` moved, the framer idle, no fault. -/
structure SpiDone (n : Nat) (s t : State) : Prop where
  spi : SpiOnly s t
  phase : t.fr.phase = .idle
  pc : t.sq.pc = s.sq.pc + n
  flt : t.sq.flt = s.sq.flt
  finfo : t.sq.finfo = s.sq.finfo

/-- An operation of the SPI side stopped inside a transaction. -/
structure SpiStopped (s t : State) : Prop where
  spi : SpiOnly s t
  phase : t.fr.phase ≠ .idle
  pc : t.sq.pc = s.sq.pc
  inited : t.sq.inited = s.sq.inited

/-- One transaction and then `pc + 1` or a stop. -/
theorem sendOne_cases (k : Kind) (b : Byte) (s : State) :
    (SpiDone 1 s ((transaction k b s).finish (State.advance 1)) ∧
      ((transaction k b s).finish (State.advance 1)).sq = { s.sq with pc := s.sq.pc + 1 } ∧
      ((transaction k b s).finish (State.advance 1)).gh = s.gh) ∨
    (SpiStopped s ((transaction k b s).finish (State.advance 1)) ∧
      ((transaction k b s).finish (State.advance 1)).sq.idx = s.sq.idx ∧
      ((transaction k b s).finish (State.advance 1)).gh = s.gh) := by
  rcases transaction_cases k b s with ⟨t, ht, hp, hi⟩ | ⟨t, ht, hp, hg, hi, hq⟩
  · have hs := hp.spi.trans
      (show SpiOnly t (t.advance 1) from ⟨rfl, rfl, rfl, rfl, rfl, rfl, rfl, rfl, rfl, rfl⟩)
    simp only [ht, Progress.finish]
    refine .inl ⟨⟨hs, hi, ?_, ?_, ?_⟩, ?_, hp.gh⟩ <;> simp [State.advance, hp.sq]
  · simp only [ht, Progress.finish]
    exact .inr ⟨⟨hp, hi, hq.pc, hq.inited⟩, hq.idx, hg⟩

theorem effect_init_cases (s : State) (hp : s.fr.phase = .idle) :
    (s.sq.inited = true ∧ Raised s (effect .init s)) ∨
    (s.sq.inited = false ∧ SpiDone 1 s (effect .init s) ∧ (effect .init s).sq.inited = true ∧
      (effect .init s).sq.idx = 0 ∧ (effect .init s).gh = .gramWriteArmed) ∨
    (s.sq.inited = false ∧ SpiStopped s (effect .init s)) := by
  rcases Bool.eq_false_or_eq_true s.sq.inited with hi | hi
  · exact .inl ⟨hi, ⟨_, _, if_pos hi⟩⟩
  · right
    rw [effect_init hi]
    have hspi : SpiOnly s { s with sq := { s.sq with idx := 0 } } := ⟨rfl, rfl, rfl, rfl, rfl, rfl, rfl, rfl, rfl, rfl⟩
    rcases runProgram_cases s.par.raw.program { s with sq := { s.sq with idx := 0 } } hp with
      ⟨t, ht, hs, hph, hq⟩ | ⟨t, ht, hs, hph, hq1, hq2⟩
    · simp only [ht, Progress.finish]
      have hend : SpiOnly t ((endInit t).advance 1) := ⟨rfl, rfl, rfl, rfl, rfl, rfl, rfl, rfl, rfl, rfl⟩
      have hgh := runProgram_gh s.par.raw.program { s with sq := { s.sq with idx := 0 } } t ht
      refine .inl ⟨hi, ⟨(hspi.trans hs).trans hend, hph, ?_, ?_, ?_⟩, rfl, rfl, ?_⟩
      · simp [State.advance, endInit, hq]
      · simp [State.advance, endInit, hq]
      · simp [State.advance, endInit, hq]
      · show t.gh = _
        rw [hgh]
        exact panel_after_program s.par s.gh
    · simp only [ht, Progress.finish]
      exact .inr ⟨hi, ⟨hspi.trans hs, hph, hq1, hq2⟩⟩

/-- Everything `ON` and `OFF` can do. -/
theorem displaySelect_cases (sel : Sel) (info : BitVec 32) (s : State) :
    (s.sq.inited = false ∧ Raised s (displaySelect sel info s)) ∨
    (s.sq.inited = true ∧
      displaySelect sel info s = (transaction .cmd (s.par.raw.sel.byte sel) s).finish (State.advance 1)) := by
  cases hi : s.sq.inited with
  | true => exact .inr ⟨rfl, if_pos hi⟩
  | false => exact .inl ⟨rfl, ⟨_, _, if_neg (by rw [hi]; exact Bool.false_ne_true)⟩⟩

/-! ### The timing generator -/

/-- Only `TG` and `pc` may differ. -/
structure TgDone (n : Nat) (s t : State) : Prop where
  host : HostOnly s t
  fr : t.fr = s.fr
  gh : t.gh = s.gh
  obs : t.obs = s.obs
  env : t.env = s.env
  sq : t.sq = { s.sq with pc := s.sq.pc + n }

theorem TgDone.of_tg (n : Nat) (s : State) (g : TimingGen) : TgDone n s ({ s with tg := g }.advance n) :=
  ⟨⟨rfl, rfl, rfl, rfl, rfl, rfl, rfl, rfl, rfl⟩, rfl, rfl, rfl, rfl, rfl⟩

theorem effect_tgcfg_cases (p : TimingParams) (bg : Colour) (s : State) :
    Raised s (effect (.tgcfg p bg) s) ∨
    (s.tg.conf.configured = false ∧ timingError p = none ∧ effect (.tgcfg p bg) s = (configure p bg s).advance 11) := by
  simp only [effect]
  split
  · exact .inl ⟨_, _, rfl⟩
  · rename_i hc
    split
    · exact .inl ⟨_, _, rfl⟩
    · rename_i he; exact .inr ⟨by simpa using hc, he, rfl⟩

theorem effect_tgbind_cases (i : BitVec 4) (d : LayerDesc) (s : State) :
    Raised s (effect (.tgbind i d) s) ∨
    (s.tg.conf.configured = true ∧ bindError s.tg.conf i d = none ∧
      effect (.tgbind i d) s =
        { s with tg := { s.tg with conf := s.tg.conf.withLayer i (layerOf d) } }.advance 9) := by
  simp only [effect]
  split
  · rename_i hc
    split
    · exact .inl ⟨_, _, rfl⟩
    · rename_i he; exact .inr ⟨hc, he, rfl⟩
  · exact .inl ⟨_, _, rfl⟩

theorem effect_tgen_cases (e : Bool) (s : State) :
    Raised s (effect (.tgen e) s) ∨
    (s.tg.conf.configured = true ∧ effect (.tgen e) s = (setEnable e s).advance 1) := by
  simp only [effect]
  split
  · rename_i hc; exact .inr ⟨hc, rfl⟩
  · exact .inl ⟨_, _, rfl⟩

theorem setEnable_tg (e : Bool) (s : State) : setEnable e s = { s with tg := (setEnable e s).tg } := by
  unfold setEnable
  split <;> rfl

/-- Everything an operation can do: fault, complete, or stop inside a transaction. -/
theorem effect_cases (i : Instr) (s : State) (hp : s.fr.phase = .idle) :
    Raised s (effect i s) ∨ SpiDone i.words s (effect i s) ∨ SpiStopped s (effect i s) ∨
    TgDone i.words s (effect i s) := by
  have one : ∀ k b, SpiDone 1 s ((transaction k b s).finish (State.advance 1)) ∨
      SpiStopped s ((transaction k b s).finish (State.advance 1)) := fun k b =>
    (sendOne_cases k b s).imp (fun h => h.1) (fun h => h.1)
  cases i with
  | wrcmd sel => rcases one .cmd sel with h | h <;> [exact .inr (.inl h); exact .inr (.inr (.inl h))]
  | wrdat b => rcases one .dat b with h | h <;> [exact .inr (.inl h); exact .inr (.inr (.inl h))]
  | delay ms =>
    exact .inr (.inl ⟨⟨rfl, rfl, rfl, rfl, rfl, rfl, rfl, rfl, rfl, rfl⟩, hp, rfl, rfl, rfl⟩)
  | init =>
    rcases effect_init_cases s hp with h | h | h
    · exact .inl h.2
    · exact .inr (.inl h.2.1)
    · exact .inr (.inr (.inl h.2))
  | on =>
    rcases displaySelect_cases .displayOn 1 s with h | h
    · exact .inl h.2
    · have he : effect .on s = _ := h.2
      rw [he]
      rcases one .cmd (s.par.raw.sel.byte .displayOn) with h | h <;> [exact .inr (.inl h); exact .inr (.inr (.inl h))]
  | off =>
    rcases displaySelect_cases .displayOff 2 s with h | h
    · exact .inl h.2
    · have he : effect .off s = _ := h.2
      rw [he]
      rcases one .cmd (s.par.raw.sel.byte .displayOff) with h | h <;> [exact .inr (.inl h); exact .inr (.inr (.inl h))]
  | tgcfg p bg =>
    rcases effect_tgcfg_cases p bg s with h | h
    · exact .inl h
    · rw [h.2.2]; exact .inr (.inr (.inr (TgDone.of_tg _ _ _)))
  | tgbind l d =>
    rcases effect_tgbind_cases l d s with h | h
    · exact .inl h
    · rw [h.2.2]; exact .inr (.inr (.inr (TgDone.of_tg _ _ _)))
  | tgen e =>
    rcases effect_tgen_cases e s with h | h
    · exact .inl h
    · rw [h.2, setEnable_tg]; exact .inr (.inr (.inr (TgDone.of_tg _ _ _)))

theorem effect_hostOnly (i : Instr) (s : State) (hp : s.fr.phase = .idle) : HostOnly s (effect i s) := by
  rcases effect_cases i s hp with h | h | h | h
  · exact h.spi.hostOnly
  · exact h.spi.hostOnly
  · exact h.spi.hostOnly
  · exact h.host

theorem hostEffect_cases (s : State) :
    (∃ i n, decode s.fetch = .ok i n ∧ hostEffect s = effect i s) ∨ Raised s (hostEffect s) := by
  unfold hostEffect
  cases hd : decode s.fetch with
  | ok i n => exact .inl ⟨i, n, rfl, rfl⟩
  | illegal e => exact .inr ⟨_, _, rfl⟩

theorem hostEffect_hostOnly (s : State) (hp : s.fr.phase = .idle) : HostOnly s (hostEffect s) := by
  rcases hostEffect_cases s with ⟨i, n, _, h⟩ | h
  · rw [h]; exact effect_hostOnly i s hp
  · exact h.spi.hostOnly

end Sys2Proof.Machine
end

