-- ==== Sys2Proof/Laws/TimingGen.lean ====
section
/-! SUPPORT. The timing generator: what the accepted operands satisfy (42_timing_generator.md R142, R144), and what
a scan step leaves (R146 to R157). -/

namespace Sys2Proof.Machine

/-! ### Checks -/

theorem firstTooLarge_none (k : Nat) (l : List Nat) (h : firstTooLarge k l = none) : ∀ n ∈ l, n < 65536 := by
  induction l generalizing k with
  | nil => simp
  | cons a l ih =>
    unfold firstTooLarge at h
    split at h
    · rename_i ha
      intro n hn
      rcases List.mem_cons.mp hn with rfl | hn
      · exact ha
      · exact ih _ h n hn
    · cases h

theorem timingError_none (p : TimingParams) (h : timingError p = none) :
    (∀ n ∈ p.counts, n < 65536) ∧ p.hs ≠ 0 ∧ p.aw ≠ 0 ∧ p.vs ≠ 0 ∧ p.ah ≠ 0 := by
  unfold timingError at h
  split at h
  · cases h
  · rename_i hf
    refine ⟨firstTooLarge_none _ _ hf, ?_⟩
    repeat' (split at h; · cases h)
    exact ⟨by assumption, by assumption, by assumption, by assumption⟩

theorem descriptorError_none (c : TgConf) (d : LayerDesc) (h : descriptorError c d = none) :
    LayerFits c (layerOf d) := by
  unfold descriptorError at h
  repeat' (split at h; · cases h)
  rename_i h1 h2 h3 h4 h5 h6 h7 h8
  refine ⟨Decidable.not_not.mp h1, ?_, ?_, Decidable.not_not.mp h4, Decidable.not_not.mp h5, Decidable.not_not.mp h6, ?_, Decidable.not_not.mp h8⟩
  · show 1 ≤ d.w.toNat; omega
  · show 1 ≤ d.h.toNat; omega
  · show d.fbaddr.toNat % 2 = 0
    have := h7
    rw [BitVec.getLsbD, Nat.testBit_zero] at this
    simp at this; omega

theorem LayerFits.congr {c c' : TgConf} {l : Layer} (h : LayerFits c l) (h1 : c'.aw = c.aw)
    (h2 : c'.ah = c.ah) : LayerFits c' l :=
  ⟨h.pf, h.w, h.h, by rw [h1]; exact h.x, by rw [h2]; exact h.y, h.alpha, h.even, h.region⟩

theorem bindError_none {c : TgConf} {i : BitVec 4} {d : LayerDesc} (h : bindError c i d = none) :
    i.toNat < 2 ∧ c.layer0.bound = false ∧ c.layer1.bound = false ∧ LayerFits c (layerOf d) := by
  unfold bindError at h
  split at h
  · cases h
  · rename_i hl
    split at h
    · cases h
    · rename_i hslot
      split at h
      · cases h
      · rename_i hd
        refine ⟨by simpa [Config.nLayers] using hl, ?_, ?_, descriptorError_none _ _ hd⟩
        all_goals
          unfold TgConf.boundSlot at hslot
          split at hslot
          · cases hslot
          · split at hslot
            · cases hslot
            · rename_i a b
              first | simpa using a | simpa using b

/-- Binding a slot changes that slot only. -/
theorem withLayer_same {α : Type} (f : TgConf → α) (hf : ∀ c x y, f { c with layer0 := x, layer1 := y } = f c)
    (c : TgConf) (i : BitVec 4) (l : Layer) : f (c.withLayer i l) = f c := by
  unfold TgConf.withLayer
  split
  · exact hf c l c.layer1
  · exact hf c c.layer0 l

/-! ### The scan -/

theorem deAct_iff (c : TgConf) (h v : Nat) : c.deAct h v = true ↔
    c.hstart ≤ h ∧ h < c.hstart + c.aw.toNat ∧ c.vstart ≤ v ∧ v < c.vstart + c.ah.toNat := decide_eq_true_iff

theorem covers_iff (l : Layer) (x y : Nat) : l.covers x y = true ↔
    l.x.toNat ≤ x ∧ x < l.x.toNat + l.w.toNat ∧ l.y.toNat ≤ y ∧ y < l.y.toNat + l.h.toNat := decide_eq_true_iff

theorem totals_lt (c : TgConf) : c.htotal < 2 ^ 18 ∧ c.vtotal < 2 ^ 18 := by
  unfold TgConf.htotal TgConf.vtotal
  have := c.hs.isLt; have := c.hbp.isLt; have := c.aw.isLt; have := c.hfp.isLt
  have := c.vs.isLt; have := c.vbp.isLt; have := c.ah.isLt; have := c.vfp.isLt
  omega

theorem nextPosition_lt (c : TgConf) (h v : Nat) (hh : h < c.htotal) (hv : v < c.vtotal) :
    (nextPosition c h v).1 < c.htotal ∧ (nextPosition c h v).2 < c.vtotal := by
  unfold nextPosition
  split
  · exact ⟨by assumption, hv⟩
  · refine ⟨by simp only; omega, ?_⟩
    simp only; split <;> omega

/-- The pins, the sample and the counters a scan step leaves; nothing else but the count of scan steps. -/
theorem scanEffect_eq (pix : Colour) (s : State) :
    scanEffect pix s =
      { s with
        tg := { s.tg with
                scan := { hcnt := BitVec.ofNat 18 (nextPosition s.tg.conf s.tg.scan.hcnt.toNat s.tg.scan.vcnt.toNat).1
                          vcnt := BitVec.ofNat 18 (nextPosition s.tg.conf s.tg.scan.hcnt.toNat s.tg.scan.vcnt.toNat).2
                          hsync := pinLevel (s.tg.conf.hsAct s.tg.scan.hcnt.toNat) s.tg.conf.hspol
                          vsync := pinLevel (s.tg.conf.vsAct s.tg.scan.vcnt.toNat) s.tg.conf.vspol
                          de := pinLevel (s.tg.conf.deAct s.tg.scan.hcnt.toNat s.tg.scan.vcnt.toNat) s.tg.conf.depol
                          pclk := s.tg.scan.pclk
                          pix := pix } }
        obs := { s.obs with
                 video := s.obs.video ++
                   [⟨pinLevel (s.tg.conf.hsAct s.tg.scan.hcnt.toNat) s.tg.conf.hspol,
                     pinLevel (s.tg.conf.vsAct s.tg.scan.vcnt.toNat) s.tg.conf.vspol,
                     pinLevel (s.tg.conf.deAct s.tg.scan.hcnt.toNat s.tg.scan.vcnt.toNat) s.tg.conf.depol,
                     s.tg.conf.pcpol, pix⟩] }
        env := { s.env with scanDraws := s.env.scanDraws + 1 } } := rfl

/-- The bind checks keep every fetch inside the framebuffer space (R144, R153). -/
theorem currentPixel_some (s : State) (hi : TgInv s.tg) : currentPixel s ≠ none := by
  unfold currentPixel scanPixel
  split
  · unfold activePixel
    split
    · rename_i l hl
      split
      · rename_i hc
        have F := hi.layer l hl
        simp only [Layer.covers, decide_eq_true_eq] at hc
        unfold memRead16
        rw [if_pos]
        · simp
        · have h1 := F.region
          simp only [Layer.pixelAddr]
          generalize s.tg.scan.hcnt.toNat - s.tg.conf.hstart = x at hc ⊢
          generalize s.tg.scan.vcnt.toNat - s.tg.conf.vstart = y at hc ⊢
          obtain ⟨hx1, hx2, hy1, hy2⟩ := hc
          obtain ⟨cx, rfl⟩ := Nat.exists_eq_add_of_le hx1
          obtain ⟨cy, rfl⟩ := Nat.exists_eq_add_of_le hy1
          simp only [Nat.add_sub_cancel_left]
          have hcx : cx < l.w.toNat := by omega
          have hcy : cy < l.h.toNat := by omega
          have : cy * l.w.toNat + cx + 1 ≤ l.w.toNat * l.h.toNat := by
            have h := Nat.mul_le_mul_right l.w.toNat (Nat.succ_le_of_lt hcy)
            rw [Nat.succ_mul] at h
            rw [Nat.mul_comm l.w.toNat]; omega
          rw [Nat.mul_assoc] at h1
          omega
      · simp
    · simp
  · simp

/-- With the bind checks kept a scan step answers a next state (R153, R164). -/
theorem scanStep_of_inv {s : State} (hi : TgInv s.tg) :
    ∃ pix, currentPixel s = some pix ∧ scanStep s = .next (scanEffect pix s) := by
  cases hc : currentPixel s with
  | none => exact absurd hc (currentPixel_some s hi)
  | some pix => exact ⟨pix, rfl, by rw [scanStep_eq, hc]⟩

/-! ### Steps at a scheduled turn -/

theorem dropSched_eq {s : State} {e : SchedEntry} {rest : List SchedEntry} (h : s.env.sched = e :: rest) :
    s.dropSched = { s with env := { s.env with sched := rest } } := by
  simp [State.dropSched, h]

theorem step_scanner_turn {s : State} {rest : List SchedEntry} (he : s.tg.conf.en = true)
    (hs : s.env.sched = .agent .scanner :: rest) :
    step s = scanStep { s with env := { s.env with sched := rest } } := by
  simp only [step, machineStep, hs, agentStep, dropSched_eq hs]
  rw [mover_scanner_turn (by exact he)]

theorem step_host_turn {s : State} {rest : List SchedEntry} (hr : HostRuns s) (hl : s.sq.pc < s.ops.length)
    (hs : s.env.sched = .agent .host :: rest) :
    step s = .next (hostEffect { s with env := { s.env with sched := rest } }) := by
  have hready : State.hostReady { s with env := { s.env with sched := rest } } = true :=
    hostReady_iff.mpr ⟨⟨hr.noFault, hr.idle⟩, hl⟩
  simp only [step, machineStep, hs, agentStep, dropSched_eq hs]
  rw [mover_host_turn hready]
  exact hostStep_of_ready hready

/-- A run of `n + 1` steps whose first answers `t`. -/
theorem run_succ {s t : State} (h : step s = .next t) (n : Nat) :
    Host.Core.run core (n + 1) s = Host.Core.run core n t := by
  simp only [Host.Core.run]
  rw [show core.step s = .next t from h]

end Sys2Proof.Machine
end

