-- ==== Sys2Proof/Laws/Commute.lean ====
section
/-! SUPPORT. The SPI side does not look at the scanner's side (10_state.md R10): an effect of the framer or the
sequencer is the same whatever the scan position, the video pins, the video trace, the count of scan steps and
the schedule are. -/

namespace Sys2Proof.Machine

/-- The scanner's own elements and the schedule replaced. -/
def withScan (g : TgScan) (v : List Vid) (n : Nat) (r : List SchedEntry) (s : State) : State :=
  { s with
    tg := { s.tg with scan := g }
    obs := { s.obs with video := v }
    env := { s.env with scanDraws := n, sched := r } }

/-- The same on both ends of a sequence of micro-steps. -/
def Progress.map (f : State → State) : Progress → Progress
  | .completed s => .completed (f s)
  | .stopped s => .stopped (f s)

variable (g : TgScan) (v : List Vid) (n : Nat) (r : List SchedEntry)

theorem takeAnswer_withScan (s : State) : (withScan g v n r s).takeAnswer = withScan g v n r s.takeAnswer := by
  rcases s with ⟨_, _, _, _, _, _, _, _, ⟨_, answers, _, _, _, _, _, _⟩⟩
  cases answers <;> rfl

theorem foldl_pulse_withScan (b : Byte) (is : List Nat) (s : State) :
    is.foldl (pulse b) (withScan g v n r s) = withScan g v n r (is.foldl (pulse b) s) := by
  induction is generalizing s with
  | nil => rfl
  | cons i is ih => exact ih (pulse b s i)

theorem transaction_withScan (k : Kind) (b : Byte) (s : State) :
    transaction k b (withScan g v n r s) = (transaction k b s).map (withScan g v n r) := by
  have hs : ∀ m, sendBits b m (beginFrame k b (withScan g v n r s)).takeAnswer =
      withScan g v n r (sendBits b m (beginFrame k b s).takeAnswer) := by
    intro m
    rw [show beginFrame k b (withScan g v n r s) = withScan g v n r (beginFrame k b s) from rfl, takeAnswer_withScan]
    exact foldl_pulse_withScan g v n r b _ _
  have ha : (withScan g v n r s).env.nextAnswer = s.env.nextAnswer := rfl
  unfold transaction
  rw [ha]
  cases s.env.nextAnswer with
  | done => simp only [hs]; rfl
  | fault m => simp only [hs]; rfl
  | stall m =>
    simp only [hs, Progress.map, Progress.stopped.injEq]
    generalize sendBits b m.val (beginFrame k b s).takeAnswer = t
    unfold stallAt
    rw [show (withScan g v n r t).par = t.par from rfl]
    cases t.par.raw.xferTimeout <;> rfl

theorem andThen_withScan (p : Progress) (k : State → Progress)
    (hk : ∀ t, k (withScan g v n r t) = (k t).map (withScan g v n r)) :
    (p.map (withScan g v n r)).andThen k = (p.andThen k).map (withScan g v n r) := by
  cases p with
  | completed t => exact hk t
  | stopped t => rfl

theorem finish_withScan (p : Progress) (k : State → State)
    (hk : ∀ t, k (withScan g v n r t) = withScan g v n r (k t)) :
    (p.map (withScan g v n r)).finish k = withScan g v n r (p.finish k) := by
  cases p with
  | completed t => exact hk t
  | stopped t => rfl

theorem sendPayload_withScan (bs : List Byte) (s : State) :
    sendPayload bs (withScan g v n r s) = (sendPayload bs s).map (withScan g v n r) := by
  induction bs generalizing s with
  | nil => rfl
  | cons b bs ih =>
    unfold sendPayload
    rw [transaction_withScan, andThen_withScan g v n r _ _ ih]

theorem runInitOp_withScan (op : InitOp) (s : State) :
    runInitOp op (withScan g v n r s) = (runInitOp op s).map (withScan g v n r) := by
  cases op with
  | settle w => rfl
  | reg sel bs =>
    unfold runInitOp
    simp only
    rw [transaction_withScan, andThen_withScan g v n r _ _ (sendPayload_withScan g v n r bs)]

theorem runProgram_withScan (es : List RomEntry) (s : State) :
    runProgram es (withScan g v n r s) = (runProgram es s).map (withScan g v n r) := by
  induction es generalizing s with
  | nil => rfl
  | cons e es ih =>
    unfold runProgram
    rw [runInitOp_withScan, andThen_withScan]
    intro t
    rw [show nextEntry (advancePanel e es (withScan g v n r t)) = withScan g v n r (nextEntry (advancePanel e es t)) from by
      unfold advancePanel; split <;> rfl]
    exact ih _

/-- Every effect but the timing generator's operations. -/
theorem effect_withScan (i : Instr) (s : State) (hc : ∀ p bg, i ≠ .tgcfg p bg) (hb : ∀ l d, i ≠ .tgbind l d)
    (he : ∀ e, i ≠ .tgen e) : effect i (withScan g v n r s) = withScan g v n r (effect i s) := by
  have one : ∀ k b, (transaction k b (withScan g v n r s)).finish (State.advance 1) =
      withScan g v n r ((transaction k b s).finish (State.advance 1)) := fun k b => by
    rw [transaction_withScan, finish_withScan]; intro t; rfl
  have sel : ∀ x info, displaySelect x info (withScan g v n r s) = withScan g v n r (displaySelect x info s) := by
    intro x info
    unfold displaySelect
    rw [show (withScan g v n r s).sq = s.sq from rfl, show (withScan g v n r s).par = s.par from rfl]
    split
    · exact one _ _
    · rfl
  cases i with
  | wrcmd x => exact one _ _
  | wrdat x => exact one _ _
  | delay x => rfl
  | init =>
    rcases Bool.eq_false_or_eq_true s.sq.inited with hi | hi
    · rw [show effect .init s = s.raise .panelAlreadyInitialised 0 from if_pos hi,
        show effect .init (withScan g v n r s) = (withScan g v n r s).raise .panelAlreadyInitialised 0 from if_pos hi]
      rfl
    · rw [effect_init hi, effect_init (s := withScan g v n r s) hi]
      have := runProgram_withScan g v n r s.par.raw.program { s with sq := { s.sq with idx := 0 } }
      rw [show ({ withScan g v n r s with sq := { (withScan g v n r s).sq with idx := 0 } } : State) =
        withScan g v n r { s with sq := { s.sq with idx := 0 } } from rfl,
        show (withScan g v n r s).par = s.par from rfl, this, finish_withScan]
      intro t; rfl
  | on => exact sel _ _
  | off => exact sel _ _
  | tgcfg p bg => exact absurd rfl (hc p bg)
  | tgbind l d => exact absurd rfl (hb l d)
  | tgen e => exact absurd rfl (he e)

/-- A scan step writes the scanner's own elements only. -/
theorem scanEffect_withScan (pix : Colour) (s : State) (r : List SchedEntry) :
    scanEffect pix { s with env := { s.env with sched := r } } =
      withScan (scanEffect pix s).tg.scan (scanEffect pix s).obs.video (s.env.scanDraws + 1) r s := rfl

end Sys2Proof.Machine
end

