-- ==== Sys2Proof/Laws/Decode.lean ====
section
/-! SUPPORT. The fields of an operation word as numbers, and the fields of a word put together from parts. -/

namespace Sys2Proof

theorem toNat_append {m n : Nat} (x : BitVec m) (y : BitVec n) :
    (x ++ y).toNat = x.toNat * 2 ^ n + y.toNat := by
  rw [BitVec.toNat_append, ← Nat.shiftLeft_add_eq_or_of_lt y.isLt, Nat.shiftLeft_eq]

theorem toNat_extract {m : Nat} (x : BitVec m) (lo n : Nat) :
    (x.extractLsb' lo n).toNat = x.toNat / 2 ^ lo % 2 ^ n := by
  rw [BitVec.extractLsb'_toNat, Nat.shiftRight_eq_div_pow]

theorem Word.field_toNat (w : Word) (lo n : Nat) : (w.field lo n).toNat = w.toNat / 2 ^ lo % 2 ^ n :=
  toNat_extract w lo n

theorem Word.major_eq (w : Word) : w.major = w.toNat / 4096 := by
  have := w.isLt
  simp only [Word.major, Word.field_toNat]
  omega

theorem Word.field_eq_zero {w : Word} {lo n : Nat} : w.field lo n = 0 ↔ w.toNat / 2 ^ lo % 2 ^ n = 0 := by
  rw [← Word.field_toNat, ← BitVec.toNat_inj]; simp

theorem Word.bit_eq (w : Word) (i : Nat) : w.getLsbD i = decide (w.toNat / 2 ^ i % 2 = 1) := by
  rw [BitVec.getLsbD, Nat.testBit_eq_decide_div_mod_eq]

/-- Two halves of a value put together again. -/
theorem append_halves {m n : Nat} (x : BitVec (m + n)) : x.extractLsb' n m ++ x.extractLsb' 0 n = x := by
  apply BitVec.eq_of_toNat_eq
  rw [toNat_append, toNat_extract, toNat_extract]
  have hx := x.isLt
  have h1 : x.toNat / 2 ^ n < 2 ^ m := by
    rw [Nat.div_lt_iff_lt_mul (Nat.two_pow_pos n)]; rw [Nat.pow_add] at hx; exact hx
  rw [Nat.mod_eq_of_lt h1]
  simp [Nat.div_add_mod']

theorem flagBit_toNat (b : Bool) : (flagBit b).toNat = if b then 1 else 0 := by cases b <;> rfl

end Sys2Proof
end

