-- ==== Sys2Proof/Laws/Frame.lean ====
section
/-! SUPPORT. Runs of scan steps: where the counters are after `n` of them, what the samples are, and which samples of
a frame are active (42_timing_generator.md R146 to R151, R162, R163). -/

namespace Sys2Proof.Machine

/-! ### Positions -/

/-- The position after `n` advances. -/
def positionAfter (c : TgConf) : Nat → Nat × Nat → Nat × Nat
  | 0, p => p
  | n + 1, p => positionAfter c n (nextPosition c p.1 p.2)

/-- The number of a position in scan order. -/
def positionIndex (c : TgConf) (p : Nat × Nat) : Nat := p.2 * c.htotal + p.1

/-- The position with a given number. -/
def positionOf (c : TgConf) (m : Nat) : Nat × Nat := (m % c.htotal, m / c.htotal)

theorem positionIndex_lt {c : TgConf} {p : Nat × Nat} (h : p.1 < c.htotal) (v : p.2 < c.vtotal) :
    positionIndex c p < c.htotal * c.vtotal := by
  have := Nat.mul_le_mul_right c.htotal (Nat.succ_le_of_lt v)
  rw [Nat.succ_mul] at this
  rw [Nat.mul_comm c.htotal]
  unfold positionIndex
  omega

theorem positionOf_index {c : TgConf} {p : Nat × Nat} (h : p.1 < c.htotal) : positionOf c (positionIndex c p) = p := by
  have h0 : 0 < c.htotal := Nat.lt_of_le_of_lt (Nat.zero_le _) h
  unfold positionOf positionIndex
  rw [Nat.add_comm, Nat.add_mul_mod_self_right, Nat.mod_eq_of_lt h, Nat.add_mul_div_right _ _ h0,
    Nat.div_eq_of_lt h, Nat.zero_add]

theorem positionIndex_next {c : TgConf} {p : Nat × Nat} (h : p.1 < c.htotal) (v : p.2 < c.vtotal) :
    positionIndex c (nextPosition c p.1 p.2) = (positionIndex c p + 1) % (c.htotal * c.vtotal) := by
  unfold nextPosition
  split
  · rename_i h1
    rw [Nat.mod_eq_of_lt]
    · rfl
    · exact positionIndex_lt (p := (p.1 + 1, p.2)) h1 v
  · rename_i h1
    have hp : p.1 + 1 = c.htotal := by omega
    have hm : positionIndex c p + 1 = (p.2 + 1) * c.htotal := by
      unfold positionIndex; rw [Nat.add_assoc, hp, Nat.succ_mul]
    rw [hm]
    split
    · rename_i v1
      have hlt := positionIndex_lt (c := c) (p := (0, p.2 + 1)) (Nat.lt_of_le_of_lt (Nat.zero_le _) h) v1
      unfold positionIndex at hlt ⊢
      rw [Nat.mod_eq_of_lt (by simpa using hlt)]
      simp
    · rename_i v1
      have : p.2 + 1 = c.vtotal := by omega
      rw [this, Nat.mul_comm c.htotal, Nat.mod_self]
      simp [positionIndex]

theorem positionAfter_eq {c : TgConf} (n : Nat) {p : Nat × Nat} (h : p.1 < c.htotal) (v : p.2 < c.vtotal) :
    positionAfter c n p = positionOf c ((positionIndex c p + n) % (c.htotal * c.vtotal)) := by
  induction n generalizing p with
  | zero => rw [Nat.add_zero, Nat.mod_eq_of_lt (positionIndex_lt h v), positionOf_index h]; rfl
  | succ n ih =>
    have hn := nextPosition_lt c _ _ h v
    rw [positionAfter, ih hn.1 hn.2, positionIndex_next h v, Nat.mod_add_mod]
    congr 2
    omega

/-! ### Runs -/

/-- The sample at a position. -/
def sampleAt (c : TgConf) (p : Nat × Nat) (pix : Colour) : Vid where
  hsync := pinLevel (c.hsAct p.1) c.hspol
  vsync := pinLevel (c.vsAct p.2) c.vspol
  de := pinLevel (c.deAct p.1 p.2) c.depol
  pclkPol := c.pcpol
  pix := pix

/-- The scanner's position. -/
def State.position (s : State) : Nat × Nat := (s.tg.scan.hcnt.toNat, s.tg.scan.vcnt.toNat)

theorem scanPixel_congr {s t : State} (h1 : s.tg.conf = t.tg.conf) (h2 : s.fb = t.fb)
    (h3 : s.env.scanDraws = t.env.scanDraws) (h v : Nat) : scanPixel s h v = scanPixel t h v := by
  unfold scanPixel activePixel borderColour
  rw [h1, h2, h3]

theorem scanEffect_inv {s : State} (pix : Colour) (he : s.tg.conf.en = true) (hi : TgInv s.tg) :
    TgInv (scanEffect pix s).tg ∧
      (scanEffect pix s).position = nextPosition s.tg.conf s.tg.scan.hcnt.toNat s.tg.scan.vcnt.toNat := by
  have hp := hi.position he
  have hn := nextPosition_lt _ _ _ hp.1 hp.2
  have ht := totals_lt s.tg.conf
  have hpos : (scanEffect pix s).position = nextPosition s.tg.conf s.tg.scan.hcnt.toNat s.tg.scan.vcnt.toNat := by
    rw [scanEffect_eq]
    simp only [State.position, BitVec.toNat_ofNat]
    rw [Nat.mod_eq_of_lt (by omega), Nat.mod_eq_of_lt (by omega)]
  refine ⟨⟨hi.counts, hi.enabled, hi.bound, hi.oneLayer, hi.layer, fun _ => ?_, fun h => ?_⟩, hpos⟩
  · have h1 := congrArg Prod.fst hpos
    have h2 := congrArg Prod.snd hpos
    simp only [State.position] at h1 h2
    rw [h1, h2]
    exact hn
  · exact absurd (h.symm.trans he) Bool.false_ne_true

/-- What one turn of an enabled scanner does. -/
theorem scanner_turn {s : State} {rest : List SchedEntry} (hi : TgInv s.tg) (he : s.tg.conf.en = true)
    (hs : s.env.sched = .agent .scanner :: rest) :
    ∃ (u : State) (p : Colour), step s = .next u ∧ TgInv u.tg ∧ u.tg.conf = s.tg.conf ∧ u.fb = s.fb ∧
      u.env.scanDraws = s.env.scanDraws + 1 ∧ u.env.sched = rest ∧
      u.position = nextPosition s.tg.conf s.position.1 s.position.2 ∧
      u.obs.video = s.obs.video ++ [sampleAt s.tg.conf s.position p] ∧
      scanPixel s s.position.1 s.position.2 = some p := by
  obtain ⟨p, hp, hx⟩ := scanStep_of_inv (s := { s with env := { s.env with sched := rest } }) hi
  have hinv := scanEffect_inv (s := { s with env := { s.env with sched := rest } }) p he hi
  exact ⟨_, p, (step_scanner_turn he hs).trans hx, hinv.1, rfl, rfl, rfl, rfl, hinv.2, rfl, hp⟩

/-- The first pixel and then the others. -/
def consPixel (p : Colour) (pix : Nat → Colour) : Nat → Colour
  | 0 => p
  | k + 1 => pix k

/-- What `n` turns of an enabled scanner do. -/
theorem run_scanner (n : Nat) (s : State) (rest : List SchedEntry) (hi : TgInv s.tg) (he : s.tg.conf.en = true)
    (hs : s.env.sched = List.replicate n (.agent .scanner) ++ rest) :
    ∃ (t : State) (pix : Nat → Colour), Host.Core.run core n s = .next t ∧
      t.tg.conf = s.tg.conf ∧ t.fb = s.fb ∧ t.position = positionAfter s.tg.conf n s.position ∧
      t.obs.video = s.obs.video ++
        (List.range n).map (fun k => sampleAt s.tg.conf (positionAfter s.tg.conf k s.position) (pix k)) ∧
      ∀ k < n, scanPixel { s with env := { s.env with scanDraws := s.env.scanDraws + k } }
        (positionAfter s.tg.conf k s.position).1 (positionAfter s.tg.conf k s.position).2 = some (pix k) := by
  induction n generalizing s with
  | zero => exact ⟨s, fun _ => 0, rfl, rfl, rfl, rfl, by simp, fun k hk => absurd hk (Nat.not_lt_zero k)⟩
  | succ n ih =>
    obtain ⟨u, p, hstep, hiu, hcu, hfu, hdu, hsu, hpu, hvu, hp⟩ := scanner_turn hi he hs
    obtain ⟨t, pix, hrun, hconf, hfb, hpos, hvid, hpix⟩ := ih u hiu (by rw [hcu]; exact he) hsu
    rw [hcu, hpu] at hpos hvid hpix
    refine ⟨t, consPixel p pix, ?_, hconf.trans hcu, hfb.trans hfu, hpos, ?_, ?_⟩
    · rw [run_succ hstep n]; exact hrun
    · rw [hvid, hvu, List.range_succ_eq_map, List.map_cons, List.map_map, List.append_assoc]
      rfl
    · intro k hk
      cases k with
      | zero =>
        simp only [consPixel, positionAfter, ← hp]
        exact scanPixel_congr rfl rfl rfl _ _
      | succ k =>
        simp only [consPixel, positionAfter, ← hpix k (Nat.lt_of_succ_lt_succ hk)]
        apply scanPixel_congr
        · exact hcu.symm
        · exact hfu.symm
        · simp only [hdu]; omega

/-! ### The active samples of a frame -/

theorem range_mul (m n : Nat) :
    List.range (m * n) = (List.range n).flatMap (fun v => (List.range m).map (fun h => v * m + h)) := by
  induction n with
  | zero => simp
  | succ n ih =>
    rw [Nat.mul_succ, List.range_add, ih, List.range_succ, List.flatMap_append]
    simp [Nat.mul_comm m n]

theorem filter_interval (a w n : Nat) (h : a + w ≤ n) :
    (List.range n).filter (fun k => decide (a ≤ k ∧ k < a + w)) = (List.range w).map (fun x => a + x) := by
  obtain ⟨r, rfl⟩ := Nat.exists_eq_add_of_le h
  rw [List.range_add, List.range_add, List.filter_append, List.filter_append, List.filter_eq_nil_iff.mpr,
    List.filter_eq_self.mpr, List.filter_eq_nil_iff.mpr]
  · rw [List.nil_append, List.append_nil]
  · intro x hx
    simp only [List.mem_map, List.mem_range] at hx
    obtain ⟨y, _, rfl⟩ := hx
    simp
  · intro x hx
    simp only [List.mem_map, List.mem_range] at hx
    obtain ⟨y, hy, rfl⟩ := hx
    simp [hy]
  · intro x hx
    simp only [List.mem_range] at hx
    simp [hx]

theorem flatMap_filter {α β : Type} (l : List α) (p : α → Bool) (f : α → List β) :
    l.flatMap (fun x => if p x then f x else []) = (l.filter p).flatMap f := by
  induction l with
  | nil => rfl
  | cons a l ih =>
    rw [List.flatMap_cons, ih, List.filter_cons]
    split <;> simp_all

/-- The numbers of the active positions of a frame, in scan order. -/
theorem active_indices (c : TgConf) :
    (List.range (c.htotal * c.vtotal)).filter
        (fun k => c.deAct (positionOf c k).1 (positionOf c k).2) =
      (List.range c.ah.toNat).flatMap (fun y =>
        (List.range c.aw.toNat).map (fun x => positionIndex c (c.hstart + x, c.vstart + y))) := by
  have hh : c.hstart + c.aw.toNat ≤ c.htotal := by unfold TgConf.hstart TgConf.htotal; omega
  have hv : c.vstart + c.ah.toNat ≤ c.vtotal := by unfold TgConf.vstart TgConf.vtotal; omega
  have row : ∀ v, ((List.range c.htotal).map (fun h => v * c.htotal + h)).filter
        (fun k => c.deAct (positionOf c k).1 (positionOf c k).2) =
      if decide (c.vstart ≤ v ∧ v < c.vstart + c.ah.toNat) then
        (List.range c.aw.toNat).map (fun x => positionIndex c (c.hstart + x, v)) else [] := by
    intro v
    have inner : ∀ h ∈ List.range c.htotal,
        ((fun k => c.deAct (positionOf c k).1 (positionOf c k).2) ∘ fun h => v * c.htotal + h) h =
          (decide (c.hstart ≤ h ∧ h < c.hstart + c.aw.toNat) && decide (c.vstart ≤ v ∧ v < c.vstart + c.ah.toNat)) := by
      intro h hm
      have := positionOf_index (c := c) (p := (h, v)) (by simpa using hm)
      simp only [positionIndex] at this
      simp only [Function.comp, this]
      simp only [TgConf.deAct, ← Bool.decide_and, and_assoc]
    rw [List.filter_map, List.filter_congr inner]
    split
    · rename_i h2
      simp only [h2, Bool.and_true]
      rw [filter_interval _ _ _ hh, List.map_map]
      rfl
    · rename_i h2
      simp [Bool.eq_false_iff.mpr h2]
  rw [range_mul, List.filter_flatMap, List.flatMap_congr (fun v _ => row v), flatMap_filter, filter_interval _ _ _ hv,
    List.flatMap_map]

end Sys2Proof.Machine
end

