-- ==== Sys2Proof/Laws/Memory.lean ====
section
/-! SUPPORT. The framebuffer's bytes: a read after a write, and the canonical form every memory operation keeps
(20_memory.md R40 to R42, R52). -/

namespace Sys2Proof.Machine

/-! ### Reading after a write -/

theorem Memory.byte?_write_same (m : Memory) (a : Nat) (v : Byte) : (m.write a v).byte? a = some v := by
  induction m with
  | nil => simp [Memory.write, Memory.byte?]
  | cons c m ih =>
    obtain ⟨k, w⟩ := c
    unfold Memory.write
    split
    · simp [Memory.byte?]
    · split
      · simp [Memory.byte?]
      · rename_i h1 h2
        simp only [Memory.byte?, h2, if_false]
        exact ih

theorem Memory.byte?_write_other (m : Memory) {a b : Nat} (v : Byte) (h : b ≠ a) :
    (m.write a v).byte? b = m.byte? b := by
  induction m with
  | nil => simp [Memory.write, Memory.byte?, h]
  | cons c m ih =>
    obtain ⟨k, w⟩ := c
    unfold Memory.write
    split
    · simp [Memory.byte?, h]
    · split
      · rename_i h1 h2
        subst h2
        simp [Memory.byte?, h]
      · simp only [Memory.byte?, ih]

/-! ### The canonical form -/

theorem Memory.risesFrom_le {lo lo' : Nat} {m : Memory} (h : Memory.risesFrom lo m = true) (hl : lo' ≤ lo) :
    Memory.risesFrom lo' m = true := by
  cases m with
  | nil => rfl
  | cons c m =>
    obtain ⟨k, w⟩ := c
    simp only [Memory.risesFrom, Bool.and_eq_true, decide_eq_true_eq] at h ⊢
    exact ⟨Nat.le_trans hl h.1, h.2⟩

theorem Memory.risesFrom_write {lo : Nat} {m : Memory} (h : Memory.risesFrom lo m = true) {a : Nat} (ha : lo ≤ a)
    (v : Byte) : Memory.risesFrom lo (m.write a v) = true := by
  induction m generalizing lo with
  | nil => simp [Memory.write, Memory.risesFrom, ha]
  | cons c m ih =>
    obtain ⟨k, w⟩ := c
    simp only [Memory.risesFrom, Bool.and_eq_true, decide_eq_true_eq] at h
    unfold Memory.write
    split
    · rename_i h1
      simp [Memory.risesFrom, ha, h.2]; omega
    · split
      · rename_i h1 h2
        subst h2
        simp [Memory.risesFrom, ha, h.2]
      · rename_i h1 h2
        simp only [Memory.risesFrom, Bool.and_eq_true, decide_eq_true_eq]
        exact ⟨h.1, ih h.2 (by omega)⟩

theorem Memory.all_write {m : Memory} {n : Nat} (h : m.all (fun c => decide (c.1 < n)) = true) {a : Nat} (ha : a < n)
    (v : Byte) : (m.write a v).all (fun c => decide (c.1 < n)) = true := by
  induction m with
  | nil => simp [Memory.write, ha]
  | cons c m ih =>
    obtain ⟨k, w⟩ := c
    simp only [List.all_cons, Bool.and_eq_true, decide_eq_true_eq] at h
    unfold Memory.write
    split
    · simp only [List.all_cons, Bool.and_eq_true, decide_eq_true_eq]; exact ⟨ha, h⟩
    · split
      · simp only [List.all_cons, Bool.and_eq_true, decide_eq_true_eq]; exact ⟨ha, h.2⟩
      · simp only [List.all_cons, Bool.and_eq_true, decide_eq_true_eq]; exact ⟨h.1, ih h.2⟩

theorem Memory.wf_write {m : Memory} (h : m.wf = true) {a : Nat} (ha : a < Config.fbBytes) (v : Byte) :
    (m.write a v).wf = true := by
  simp only [Memory.wf, Bool.and_eq_true] at h ⊢
  exact ⟨Memory.risesFrom_write h.1 (Nat.zero_le a) v, Memory.all_write h.2 ha v⟩

theorem Memory.wf_nil : Memory.wf [] = true := rfl

theorem Memory.wf_writePixel {m : Memory} (h : m.wf = true) (n : BitVec 31) (v : Word) :
    (m.writePixel n v).wf = true := by
  have hn := n.isLt
  exact Memory.wf_write (Memory.wf_write h (by simp only [Config.fbBytes]; omega) _)
    (by simp only [Config.fbBytes]; omega) _

/-! ### An outside write -/

theorem Memory.writePixel_low (m : Memory) (n : BitVec 31) (v : Word) :
    (m.writePixel n v).byte? (2 * n.toNat) = some (v.extractLsb' 0 8) := by
  unfold Memory.writePixel
  rw [Memory.byte?_write_other _ _ (by omega), Memory.byte?_write_same]

theorem Memory.writePixel_high (m : Memory) (n : BitVec 31) (v : Word) :
    (m.writePixel n v).byte? (2 * n.toNat + 1) = some (v.extractLsb' 8 8) := by
  unfold Memory.writePixel
  rw [Memory.byte?_write_same]

theorem Memory.writePixel_other (m : Memory) (n : BitVec 31) (v : Word) {a : Nat} (h : a ≠ 2 * n.toNat)
    (h' : a ≠ 2 * n.toNat + 1) : (m.writePixel n v).byte? a = m.byte? a := by
  unfold Memory.writePixel
  rw [Memory.byte?_write_other _ _ h', Memory.byte?_write_other _ _ h]

/-- A listed byte stands at an address inside `FB`. -/
theorem Memory.byte?_lt {m : Memory} (h : m.wf = true) {a : Nat} {v : Byte} (hv : m.byte? a = some v) :
    a < Config.fbBytes := by
  simp only [Memory.wf, Bool.and_eq_true] at h
  have hall := h.2
  clear h
  induction m with
  | nil => cases hv
  | cons c m ih =>
    obtain ⟨k, w⟩ := c
    simp only [List.all_cons, Bool.and_eq_true, decide_eq_true_eq] at hall
    simp only [Memory.byte?] at hv
    split at hv
    · rename_i h; subst h; exact hall.1
    · exact ih hv hall.2

end Sys2Proof.Machine
end

