-- ==== Sys2Proof/Laws/PerInstr.lean ====
section
/-! SUPPORT. Per operation: its encoding lies in its row of the opcode table (30_encoding.md R60 to R66). -/

namespace Sys2Proof.Laws

/-- A fixed field of the table: its lowest bit, its width, its value. -/
abbrev FixedField := Nat × Nat × Nat

/-- The table's fixed fields of the head word, and the length in words. -/
def tableRow : Instr → List FixedField × Nat
  | .wrcmd _ => ([(8, 8, 0)], 1)
  | .wrdat _ => ([(8, 8, 16)], 1)
  | .delay _ => ([(12, 4, 2)], 1)
  | .init => ([(0, 16, 12288)], 1)
  | .on => ([(0, 16, 12289)], 1)
  | .off => ([(0, 16, 12290)], 1)
  | .tgcfg _ _ => ([(4, 12, 1024)], 11)
  | .tgbind _ _ => ([(4, 4, 0), (12, 4, 5)], 9)
  | .tgen _ => ([(1, 15, 12288)], 1)

/-- The head word holds the row's fixed fields, and the words are as many as the row says. -/
def OpcodeRow.Statement (i : Instr) : Prop :=
  ∃ w rest, encode i = w :: rest ∧ (∀ f ∈ (tableRow i).1, w.toNat / 2 ^ f.1 % 2 ^ f.2.1 = f.2.2) ∧
    (encode i).length = (tableRow i).2 ∧ i.words = (tableRow i).2

theorem OpcodeRow.wrcmd (sel : Byte) : OpcodeRow.Statement (.wrcmd sel) := by
  have h := sel.isLt
  refine ⟨_, _, rfl, ?_, rfl, rfl⟩
  simp only [tableRow, List.forall_mem_singleton, toNat_append]
  simp; omega

theorem OpcodeRow.wrdat (byte : Byte) : OpcodeRow.Statement (.wrdat byte) := by
  have h := byte.isLt
  refine ⟨_, _, rfl, ?_, rfl, rfl⟩
  simp only [tableRow, List.forall_mem_singleton, toNat_append]
  simp; omega

theorem OpcodeRow.delay (ms : BitVec 12) : OpcodeRow.Statement (.delay ms) := by
  have h := ms.isLt
  refine ⟨_, _, rfl, ?_, rfl, rfl⟩
  simp only [tableRow, List.forall_mem_singleton, toNat_append]
  simp; omega

theorem OpcodeRow.init : OpcodeRow.Statement .init := ⟨_, _, rfl, by decide, rfl, rfl⟩

theorem OpcodeRow.on : OpcodeRow.Statement .on := ⟨_, _, rfl, by decide, rfl, rfl⟩

theorem OpcodeRow.off : OpcodeRow.Statement .off := ⟨_, _, rfl, by decide, rfl, rfl⟩

theorem OpcodeRow.tgcfg (p : TimingParams) (bg : Colour) : OpcodeRow.Statement (.tgcfg p bg) := by
  refine ⟨_, _, rfl, ?_, rfl, rfl⟩
  simp only [tableRow, List.forall_mem_singleton]
  cases p.pcpol <;> cases p.depol <;> cases p.vspol <;> cases p.hspol <;> decide

theorem OpcodeRow.tgbind (i : BitVec 4) (d : LayerDesc) : OpcodeRow.Statement (.tgbind i d) := by
  have h1 := i.isLt
  have h2 := d.pf.isLt
  refine ⟨_, _, rfl, ?_, rfl, rfl⟩
  simp only [tableRow, List.forall_mem_cons, toNat_append]
  simp; omega

theorem OpcodeRow.tgen (e : Bool) : OpcodeRow.Statement (.tgen e) := by
  cases e <;> exact ⟨_, _, rfl, by decide, rfl, rfl⟩

end Sys2Proof.Laws
end

