-- ==== Sys2Proof/Laws/Wire.lean ====
section
/-! SUPPORT. What the panel decodes (40_framer_ops.md R91) of a whole and of a broken frame. -/

namespace Sys2Proof.Machine

theorem feedAll_append (l m : List WireTuple) (d : WireScan) :
    WireScan.feedAll (l ++ m) d = (WireScan.feedAll l d).bind (WireScan.feedAll m) := by
  induction l generalizing d with
  | nil => rfl
  | cons t l ih =>
    simp only [List.cons_append, WireScan.feedAll]
    cases WireScan.feed d t with
    | none => rfl
    | some d' => simp [ih]

theorem feedAll_then {l : List WireTuple} {d d' : WireScan} (h : WireScan.feedAll l d = some d')
    (m : List WireTuple) : WireScan.feedAll (l ++ m) d = WireScan.feedAll m d' := by
  rw [feedAll_append, h, Option.bind_some]

/-- The three tuples of a bit add that bit to an open window. -/
theorem feedAll_bit (out : List WireTxn) (dc m : Level) (bits : List Bool) (p : WireTuple)
    (hcs : p.cs = false) (hsck : p.sck = false) :
    WireScan.feedAll (bitTuples dc m) ⟨out, some ⟨dc, bits⟩, p⟩ =
      some ⟨out, some ⟨dc, bits ++ [m]⟩, ⟨dc, false, false, m⟩⟩ := by
  simp [bitTuples, Config.csAssertLevel, WireScan.feedAll, WireScan.feed, sampleBits, hcs, hsck]

theorem feedAll_bits (out : List WireTxn) (dc : Level) (b : Byte) (is : List Nat) (bits : List Bool) (p : WireTuple)
    (hcs : p.cs = false) (hsck : p.sck = false) :
    ∃ q : WireTuple, q.cs = false ∧ q.sck = false ∧
      WireScan.feedAll (is.flatMap (fun i => bitTuples dc (b.getLsbD i))) ⟨out, some ⟨dc, bits⟩, p⟩ =
        some ⟨out, some ⟨dc, bits ++ is.map (fun i => b.getLsbD i)⟩, q⟩ := by
  induction is generalizing bits p with
  | nil => exact ⟨p, hcs, hsck, by simp [WireScan.feedAll]⟩
  | cons i is ih =>
    obtain ⟨q, h1, h2, h3⟩ := ih (bits ++ [b.getLsbD i]) ⟨dc, false, false, b.getLsbD i⟩ rfl rfl
    refine ⟨q, h1, h2, ?_⟩
    rw [List.flatMap_cons, feedAll_append, feedAll_bit out dc _ bits p hcs hsck]
    simpa using h3

/-- An open frame leaves a window open and finishes nothing. -/
theorem feedAll_openFrame (k : Kind) (b : Byte) (n : Nat) (m : Level) (d : WireScan) (hw : d.win = none) :
    ∃ q : WireTuple, q.cs = false ∧ q.sck = false ∧
      WireScan.feedAll (openFrame k b n m) d =
        some ⟨d.out, some ⟨k.dcLevel, (Config.bitOrder.take n).map (fun i => b.getLsbD i)⟩, q⟩ := by
  obtain ⟨q, h1, h2, h3⟩ := feedAll_bits d.out k.dcLevel b (Config.bitOrder.take n) []
    ⟨k.dcLevel, false, false, m⟩ rfl rfl
  refine ⟨q, h1, h2, ?_⟩
  have e1 : d.feed ⟨k.dcLevel, !Config.csAssertLevel, false, m⟩ =
      some { d with prev := ⟨k.dcLevel, !Config.csAssertLevel, false, m⟩ } := by
    simp [WireScan.feed, hw, Config.csAssertLevel]
  have e2 : WireScan.feed { d with prev := ⟨k.dcLevel, !Config.csAssertLevel, false, m⟩ }
      ⟨k.dcLevel, Config.csAssertLevel, false, m⟩ =
        some ⟨d.out, some ⟨k.dcLevel, []⟩, ⟨k.dcLevel, false, false, m⟩⟩ := by
    simp [WireScan.feed, hw, Config.csAssertLevel]
  unfold openFrame
  simp only [WireScan.feedAll, e1, e2, Option.bind_some]
  simpa using h3

theorem kindOfDc_dcLevel (k : Kind) : kindOfDc k.dcLevel = k := by cases k <;> rfl

/-- A number below 256 from its binary digits, most significant first. -/
theorem digits_eight (n : Nat) (h : n < 256) :
    2 * (2 * (2 * (2 * (2 * (2 * (2 * (n / 128 % 2) + n / 64 % 2) + n / 32 % 2) + n / 16 % 2) + n / 8 % 2) +
      n / 4 % 2) + n / 2 % 2) + n % 2 = n := by
  omega

theorem byteOfBits_bitOrder (b : Byte) : byteOfBits (Config.bitOrder.map (fun i => b.getLsbD i)) = b := by
  apply BitVec.eq_of_toNat_eq
  have h := b.isLt
  have hb : ∀ n : Nat, (if n % 2 = 1 then 1 else 0) = n % 2 := by intro n; split <;> omega
  simp only [byteOfBits, Config.bitOrder, List.map, List.foldl, BitVec.toNat_ofNat, BitVec.getLsbD,
    Nat.testBit_eq_decide_div_mod_eq, decide_eq_true_eq, hb, Nat.reducePow, Nat.div_one, Nat.mul_zero, Nat.zero_add]
  rw [digits_eight _ h, Nat.mod_eq_of_lt h]

/-- A whole frame is one transaction and leaves no window open. -/
theorem feedAll_wholeFrame (k : Kind) (b : Byte) (m : Level) (d : WireScan) (hw : d.win = none) :
    ∃ q : WireTuple, q.cs = true ∧ WireScan.feedAll (wholeFrame k b m) d = some ⟨d.out ++ [(k, b)], none, q⟩ := by
  obtain ⟨q, h1, h2, h3⟩ := feedAll_openFrame k b 8 m d hw
  refine ⟨⟨k.dcLevel, true, false, b.getLsbD 0⟩, rfl, ?_⟩
  unfold wholeFrame
  rw [feedAll_append, h3]
  have hb : (Config.bitOrder.take 8).map (fun i => b.getLsbD i) = Config.bitOrder.map (fun i => b.getLsbD i) := rfl
  have hl : (Config.bitOrder.map (fun i => b.getLsbD i)).length = 8 := rfl
  simp only [Option.bind_some, WireScan.feedAll, WireScan.feed, hb, sampleBits, h1, h2, Config.csAssertLevel]
  simp [hl, kindOfDc_dcLevel, byteOfBits_bitOrder]

end Sys2Proof.Machine
end

