-- ==== Sys2Proof/Tests/Slice0.lean ====
section
/-! SUPPORT. The model's own tests: ill-formed terms refused, words of the spec decoded, the spec's test vectors
(95_test_vectors.md) one step each, and for every statement with hypotheses a state and operands that meet them. -/

namespace Sys2Proof.Tests

open Sys2Proof Sys2Proof.Machine

/-! ### Small states -/

/-- After reset with the candidate parameters (41_sequencer_ops.md R118), the stream `ops` and the answers to come. -/
def start (ops : List Word) (answers : List XferAnswer) : State :=
  State.afterReset ops candidate [] { Env.start with answers := answers }

/-- The state with these answers to come and a given turn scheduled. -/
def State.atTurn (a : Agent) (s : State) : State := { s with env := { s.env with sched := [.agent a] } }

/-- The timing tuple of R159 as registers, black background. -/
def panelConf : TgConf := TgConf.afterReset.withTiming panelTiming 0

/-- The layer of 30_encoding.md R65's example. -/
def exampleLayer : LayerDesc := ⟨0, 0, 240, 320, 2, 0x00000000, 0xD0000000⟩

/-- After `TGCFG` with the panel's tuple. -/
def configured (s : State) : State := configure panelTiming 0 s

/-- The layer bound in slot 0 as well. -/
def bound (s : State) : State :=
  { configured s with tg.conf := panelConf.withLayer 0 (layerOf exampleLayer) }

/-- The scan enabled as well, at the first active position. -/
def scanning (s : State) : State :=
  { bound s with
    tg.conf := { panelConf.withLayer 0 (layerOf exampleLayer) with en := true }
    tg.scan := { (bound s).tg.scan with hcnt := 30, vcnt := 4 } }

/-- The state once the scanner has had all its free choices before the host's next. -/
def patient (s : State) : State := { s with env.scansSince := Config.patience s.env.turnDraws }

/-- The tiny configuration of vector V12. -/
def tinyTiming : TimingParams := ⟨1, 1, 1, 2, 1, 0, 1, 2, false, false, false, false⟩

/-- The tiny layer of vector V12: the border pixels transparent. -/
def tinyLayer : LayerDesc := ⟨1, 0, 1, 1, 2, 0x00000000, 0x00001000⟩

/-- Vector V12 running, at position (h, v). -/
def tiny (dcol : BitVec 32) (flags : Bool) (h v : BitVec 18) : State :=
  let p := { tinyTiming with hspol := flags, vspol := flags, depol := flags }
  let s := configure p 0x112233 (start [] [])
  { s with
    tg.conf := { s.tg.conf.withLayer 0 (layerOf { tinyLayer with dcol := dcol }) with en := true }
    tg.scan := { s.tg.scan with hcnt := h, vcnt := v }
    fb := [(0x1000, 0x1F), (0x1001, 0xF8)]
    env := { s.env with sched := [.agent .scanner] } }

/-- A property of the next state. -/
def nextHas (o : StepOutcome) (p : State → Bool) : Bool :=
  match o with
  | .next t => p t
  | .fault _ => false
  | .refused _ => false

/-- `pc`, `FLT`, `FINFO`. -/
def hostRegs (s : State) : Nat × Nat × Nat := (s.sq.pc, s.sq.flt.toNat, s.sq.finfo.toNat)

/-- The last sample's levels HSYNC, VSYNC, DE. -/
def lastLevels (s : State) : Option (Bool × Bool × Bool) := s.obs.video.getLast?.map fun q => (q.hsync, q.vsync, q.de)

/-- The last sample's pixel. -/
def lastPixel (s : State) : Option Colour := s.obs.video.getLast?.map Vid.pix

/-! ### Ill-formed terms are refused (WellFormed) -/

theorem test_wf_refuses_hs : ¬ Instr.WellFormed (.tgcfg { panelTiming with hs := 65536 } 0) := by decide
theorem test_wf_refuses_hbp : ¬ Instr.WellFormed (.tgcfg { panelTiming with hbp := 65536 } 0) := by decide
theorem test_wf_refuses_hfp : ¬ Instr.WellFormed (.tgcfg { panelTiming with hfp := 65536 } 0) := by decide
theorem test_wf_refuses_aw : ¬ Instr.WellFormed (.tgcfg { panelTiming with aw := 65536 } 0) := by decide
theorem test_wf_refuses_vs : ¬ Instr.WellFormed (.tgcfg { panelTiming with vs := 65536 } 0) := by decide
theorem test_wf_refuses_vbp : ¬ Instr.WellFormed (.tgcfg { panelTiming with vbp := 65536 } 0) := by decide
theorem test_wf_refuses_vfp : ¬ Instr.WellFormed (.tgcfg { panelTiming with vfp := 65536 } 0) := by decide
theorem test_wf_refuses_ah : ¬ Instr.WellFormed (.tgcfg { panelTiming with ah := 65536 } 0) := by decide
theorem test_wf_accepts : Instr.WellFormed (.tgcfg { panelTiming with vfp := 65535 } 0) := by decide

/-! ### Ill-formed parameters are refused (R6, R71, R112 to R116) -/

theorem test_params_odd_divisor : paramsOk { candidateRaw with brDiv := 17 } = false := by decide +kernel
theorem test_params_zero_divisor : paramsOk { candidateRaw with brDiv := 0 } = false := by decide +kernel
theorem test_params_wide_divisor : paramsOk { candidateRaw with brDiv := 256 } = true := by decide +kernel
theorem test_params_settle1 : paramsOk { candidateRaw with settle1 := 4 } = false := by decide +kernel
theorem test_params_settle2 : paramsOk { candidateRaw with settle2 := 119 } = false := by decide +kernel
theorem test_params_ngamma : paramsOk { candidateRaw with ngammaLen := 14 } = false := by decide +kernel
theorem test_params_selectors : paramsOk { candidateRaw with sel := { usualSelectors with mac := 0x2C } } = false := by
  decide +kernel
theorem test_params_first : paramsOk { candidateRaw with program := (candidateSetup ++ candidateStart).drop 1 } = false := by
  decide +kernel
theorem test_params_last : paramsOk { candidateRaw with program := (candidateSetup ++ candidateStart).dropLast } = false := by
  decide +kernel
theorem test_params_order :
    paramsOk { candidateRaw with program := candidateStart ++ candidateSetup } = false := by decide +kernel
theorem test_params_window :
    paramsOk { candidateRaw with
      program := candidateSetup.map (fun e => if e.stage = 6 then { e with op := .reg 0x2A [0, 0, 0, 0xF0] } else e) ++
        candidateStart } = false := by decide +kernel
theorem test_params_pixel_format :
    paramsOk { candidateRaw with
      program := candidateSetup ++ [⟨7, .reg 0x3A [0x55]⟩] ++ candidateStart } = true := by decide +kernel
theorem test_params_late_pixel_format :
    paramsOk { candidateRaw with
      program := candidateSetup ++ [⟨8, .reg 0x3A [0x55]⟩] ++ candidateStart } = false := by decide +kernel
theorem test_params_any_register :
    paramsOk { candidateRaw with
      program := candidateSetup ++ [⟨7, .reg 0xB7 [0x06]⟩, ⟨8, .reg 0x51 [0xFF]⟩] ++ candidateStart } = true := by decide +kernel
/-- The register `0xB7` after every settle entry and before the last entry. -/
theorem test_params_any_register_late :
    paramsOk { candidateRaw with
      program := candidateSetup ++ candidateStart.flatMap (fun e => match e.op with
        | .settle _ => [e, ⟨e.stage, .reg 0xB7 [0x06]⟩]
        | .reg _ _ => if e.stage = 12 then [⟨12, .reg 0xB7 []⟩, e] else [e]) } = true := by decide +kernel
/-- R116: "directly after". -/
theorem test_params_settle_apart :
    paramsOk { candidateRaw with
      program := candidateSetup ++ candidateStart.flatMap (fun e => match e.op with
        | .settle _ => [⟨e.stage, .reg 0xB7 [0x06]⟩, e]
        | .reg _ _ => [e]) } = false := by decide +kernel
theorem test_params_no_panel_reset :
    paramsOk { candidateRaw with
      program := candidateSetup ++ [⟨7, .reg 0x01 []⟩] ++ candidateStart } = false := by decide +kernel
theorem test_params_listed_once :
    paramsOk { candidateRaw with
      program := candidateSetup ++ [⟨7, .reg 0xF6 [0x01]⟩] ++ candidateStart } = false := by decide +kernel
theorem test_params_no_gap :
    paramsOk { candidateRaw with program := candidateSetup ++ candidateStart.filter (fun e => e.stage ≠ 10) } = false := by
  decide +kernel

/-! ### Decoding: words written out from 30_encoding.md R61 to R68 -/

theorem test_decode_wrcmd : decode [0b0000_0000_00101100] = .ok (.wrcmd 0b00101100) 1 := by decide
theorem test_decode_wrdat : decode [0b0001_0000_11000011] = .ok (.wrdat 0b11000011) 1 := by decide
theorem test_decode_delay : decode [0b0010_111111111110] = .ok (.delay 0b111111111110) 1 := by decide
theorem test_decode_init : decode [0b0011_0000000000_00] = .ok .init 1 := by decide
theorem test_decode_on : decode [0b0011_0000000000_01] = .ok .on 1 := by decide
theorem test_decode_off : decode [0b0011_0000000000_10] = .ok .off 1 := by decide
theorem test_decode_tgcfg :
    decode [0b0100_00000000_1_0_1_0, 1, 2, 3, 4, 5, 6, 7, 8, 0b00000000_00010001, 0x2233] =
      .ok (.tgcfg ⟨1, 2, 3, 4, 5, 6, 7, 8, false, true, false, true⟩ 0x112233) 11 := by decide
theorem test_decode_tgbind :
    decode [0b0101_0010_0000_0001, 1, 2, 3, 4, 0xFFAA, 0xBBCC, 0x1234, 0x5678] =
      .ok (.tgbind 1 ⟨1, 2, 3, 4, 2, 0xFFAABBCC, 0x12345678⟩) 9 := by decide
theorem test_decode_tgen : decode [0b0110_00000000000_1] = .ok (.tgen true) 1 := by decide
theorem test_decode_reserved_major : decode [0x7000] = .illegal .reservedMajor := by decide
theorem test_decode_zero_field : decode [0x0100] = .illegal .zeroField := by decide
theorem test_decode_reserved_fn : decode [0x3003] = .illegal .reservedFn := by decide
theorem test_decode_tgen_zero : decode [0x6002] = .illegal .zeroField := by decide
theorem test_decode_truncated : decode [0x4000, 0x000A, 0x0014, 0x000A, 0x00F0] = .illegal .truncated := by decide
theorem test_decode_word9 :
    decode [0x4000, 1, 1, 1, 1, 1, 1, 1, 1, 0x0100, 0] = .illegal .zeroField := by decide
theorem test_decode_table_word : decodeTableWord 16 0x002C = some (.wrcmd 0x2C) := by decide
theorem test_decode_table_long : decodeTableWord 176 0x0000_0000_0140_0004_0002_0002_00F0_000A_0014_000A_4000 =
    some (.tgcfg panelTiming 0) := by decide
theorem test_window_words : setWindow usualSelectors 240 320 =
    [.wrcmd 0x2A, .wrdat 0x00, .wrdat 0x00, .wrdat 0x00, .wrdat 0xEF,
     .wrcmd 0x2B, .wrdat 0x00, .wrdat 0x00, .wrdat 0x01, .wrdat 0x3F] := by decide

/-! ### Assembly (30_encoding.md R72, R73; the words of programs P1 and P3) -/

theorem test_setwindow_expands : (readProgram usualSelectors "SETWINDOW 240, 320").map assemble =
    some [0x002A, 0x1000, 0x1000, 0x1000, 0x10EF, 0x002B, 0x1000, 0x1000, 0x1001, 0x103F] := by decide

theorem test_tgcfg_line :
    (readProgram usualSelectors "TGCFG 10,20,10,240, 2,2,4,320, 0,0,0,0, 0x000000 ; black\nTGEN 1").map assemble =
    some [0x4000, 0x000A, 0x0014, 0x000A, 0x00F0, 0x0002, 0x0002, 0x0004, 0x0140, 0x0000, 0x0000, 0x6001] := by decide

theorem test_assembly_refuses_wide_byte : readProgram usualSelectors "WRDAT 256" = none := by decide

/-! ### The framer (vectors V1 to V6) -/

/-- A tuple `DC CS SCK MOSI`. -/
def pins (dc cs sck mosi : Nat) : WireTuple := ⟨dc == 1, cs == 1, sck == 1, mosi == 1⟩

theorem test_v1_wire : nextHas (step (start [0x002C] [.done])) (fun t => t.obs.wire ==
    [pins 0 1 0 0, pins 0 0 0 0,
     pins 0 0 0 0, pins 0 0 1 0, pins 0 0 0 0, pins 0 0 0 0, pins 0 0 1 0, pins 0 0 0 0,
     pins 0 0 0 1, pins 0 0 1 1, pins 0 0 0 1, pins 0 0 0 0, pins 0 0 1 0, pins 0 0 0 0,
     pins 0 0 0 1, pins 0 0 1 1, pins 0 0 0 1, pins 0 0 0 1, pins 0 0 1 1, pins 0 0 0 1,
     pins 0 0 0 0, pins 0 0 1 0, pins 0 0 0 0, pins 0 0 0 0, pins 0 0 1 0, pins 0 0 0 0,
     pins 0 1 0 0] && t.obs.txn == [.txn .cmd 0x2C] && t.fr.pins == pins 0 1 0 0 && hostRegs t == (1, 0, 0)) = true := by
  decide

theorem test_v2_second_byte : nextHas (execWrdat 0xC3 { start [] [.done] with fr := frAfter .cmd 0xCA 0 }) (fun t =>
    t.obs.wire ==
    [pins 1 1 0 0, pins 1 0 0 0,
     pins 1 0 0 1, pins 1 0 1 1, pins 1 0 0 1, pins 1 0 0 1, pins 1 0 1 1, pins 1 0 0 1,
     pins 1 0 0 0, pins 1 0 1 0, pins 1 0 0 0, pins 1 0 0 0, pins 1 0 1 0, pins 1 0 0 0,
     pins 1 0 0 0, pins 1 0 1 0, pins 1 0 0 0, pins 1 0 0 0, pins 1 0 1 0, pins 1 0 0 0,
     pins 1 0 0 1, pins 1 0 1 1, pins 1 0 0 1, pins 1 0 0 1, pins 1 0 1 1, pins 1 0 0 1,
     pins 1 1 0 1] && t.obs.txn == [.txn .dat 0xC3]) = true := by decide

theorem test_v4_fault_mid_byte : nextHas (step (start [0x00CA] [.fault 3])) (fun t =>
    t.obs.wire == [pins 0 1 0 0, pins 0 0 0 0, pins 0 0 0 1, pins 0 0 1 1, pins 0 0 0 1, pins 0 0 0 1, pins 0 0 1 1,
      pins 0 0 0 1, pins 0 0 0 0, pins 0 0 1 0, pins 0 0 0 0] &&
    t.obs.txn == [] && hostRegs t == (0, 1, 0x3CA) && t.fr.phase == .bitSample && t.fr.bitcnt == 5 &&
    t.fr.pins == pins 0 0 0 0) = true := by decide

/-- The candidate with a finite `XFER_TIMEOUT`. -/
def finiteParams : Params := ⟨{ candidateRaw with xferTimeout := some 100 }, by decide +kernel⟩

theorem test_v5_v6_broken_transfers :
    nextHas (step (start [0x10FF] [.fault 0])) (fun t =>
      t.obs.wire == [pins 1 1 0 0, pins 1 0 0 0] && hostRegs t == (0, 1, 0x10FF) && t.fr.phase == .csLow &&
      t.fr.bitcnt == 8) = true ∧
    nextHas (step { start [0x1000] [.stall 8] with par := finiteParams }) (fun t =>
      t.obs.wire.length == 26 && hostRegs t == (0, 2, 0x1800) && t.fr.bitcnt == 0 && t.fr.pins == pins 1 0 0 0) = true ∧
    nextHas (step (start [0x1000] [.stall 8])) (fun t => hostRegs t == (0, 0, 0) && !t.hostReady) = true := by
  decide

/-! ### The sequencer (vectors V7 to V10, program P2) -/

theorem test_v7_delay : nextHas (step (start [0x2FFF] [])) (fun t =>
    t.obs.txn == [.settle 4095] && t.obs.wire == [] && hostRegs t == (1, 0, 0)) = true := by decide

theorem test_v8_on : nextHas (step (start [0x3001] [])) (fun t =>
    hostRegs t == (0, 4, 1) && t.obs.wire == []) = true := by decide

theorem test_v8_off : nextHas (step (start [0x3002] [])) (fun t => hostRegs t == (0, 4, 2)) = true := by decide

theorem test_v9_second_init :
    nextHas (step { start [0x3000] [] with sq := { Sequencer.afterReset with inited := true } })
      (fun t => hostRegs t == (0, 5, 0)) = true := by decide

theorem test_p2_init : nextHas (step (start [0x3000] (List.replicate 106 .done))) (fun t =>
    hostRegs t == (1, 0, 0) && t.sq.inited && t.sq.idx == 0 && t.gh == .gramWriteArmed && t.obs.txn.length == 108 &&
    t.obs.txn[69]? == some (.settle 5) && t.obs.txn.drop 104 ==
      [.txn .cmd 0x11, .settle 120, .txn .cmd 0x29, .txn .cmd 0x2C]) = true := by decide +kernel

theorem test_v10_fault_inside_init :
    nextHas (step (start [0x3000] [.done, .done, .done, .done, .fault 2])) (fun t =>
      t.obs.txn == [.txn .cmd 0xCA, .txn .dat 0xC3, .txn .dat 0x08, .txn .dat 0x50] && t.obs.wire.length == 116 &&
      hostRegs t == (0, 1, 0x2CF) && t.sq.idx == 1 && !t.sq.inited && t.fr.pins == pins 0 0 0 1 && t.fr.bitcnt == 6 &&
      t.gh == .reset) = true := by decide +kernel

/-- `INIT` done. -/
def initialised (answers : List XferAnswer) : State :=
  { start [] answers with sq := { Sequencer.afterReset with inited := true }, gh := .gramWriteArmed }

theorem test_on : nextHas (execOn (initialised [.done])) (fun t =>
    t.obs.txn == [.txn .cmd 0x29] && hostRegs t == (1, 0, 0)) = true := by decide

theorem test_off : nextHas (execOff (initialised [.done])) (fun t => t.obs.txn == [.txn .cmd 0x28]) = true := by decide

/-! ### The timing generator (vectors V11 to V15) -/

theorem test_v11_expand : [0x8410, 0x0003, 0x000A, 0x0693, 0x33FC, 0xF81F].map expand565 =
    [0x848284, 0x000018, 0x000052, 0x00D39C, 0x317DE7, 0xFF00FF] := by decide

theorem test_v12_layer_pixel : nextHas (step (tiny 0 false 3 1)) (fun t =>
    lastLevels t == some (true, true, false) && lastPixel t == some 0xFF00FF &&
      t.tg.scan.hcnt == 4 && t.tg.scan.vcnt == 1) = true := by decide

theorem test_v12_border_pixel : nextHas (step (tiny 0 false 2 1)) (fun t =>
    lastLevels t == some (true, true, false) && lastPixel t == some 0x112233) = true := by decide

theorem test_v12_last_position : nextHas (step (tiny 0 false 4 3)) (fun t =>
    lastLevels t == some (true, true, true) && t.tg.scan.hcnt == 0 && t.tg.scan.vcnt == 0) = true := by decide

theorem test_v13_polarity : nextHas (step (tiny 0 true 0 0)) (fun t =>
    lastLevels t == some (true, true, false)) = true := by decide

theorem test_v14_opaque_layer_colour : nextHas (step (tiny 0xFFAABBCC false 2 1)) (fun t =>
    lastPixel t == some 0xAABBCC) = true := by decide

theorem test_tgcfg : nextHas (execTgcfg panelTiming 0x123456 (start [] [])) (fun t =>
    hostRegs t == (11, 0, 0) && t.register 8 == some 10 && t.register 15 == some 320 && t.register 20 == some 0x123456 &&
      t.tg.scan.hsync && t.register 6 == some 1) = true := by decide

theorem test_v15_second_tgcfg : nextHas (execTgcfg panelTiming 0 (configured (start [] []))) (fun t =>
    hostRegs t == (0, 7, 0)) = true := by decide

theorem test_bind :
    nextHas (execTgbind 1 { exampleLayer with fbaddr := 0xFFFDA800 } (configured (start [] []))) (fun t =>
      hostRegs t == (9, 0, 0) && t.register 40 == some 1 && t.register 47 == some 0xFFFDA800 && t.register 32 == some 0) =
      true ∧
    nextHas (execTgbind 0 exampleLayer (start [] [])) (fun t => hostRegs t == (0, 6, 0)) = true := by decide

/-- The information word with which `TGBIND i, d` is rejected. -/
def bindInfo (i : BitVec 4) (d : LayerDesc) : Option (Nat × Nat) :=
  (bindError panelConf i d).map fun e => (e.1.code.toNat, e.2)

theorem test_v15_bind_checks :
    [bindInfo 2 exampleLayer, bindInfo 0 { exampleLayer with pf := 1 }, bindInfo 0 { exampleLayer with w := 0 },
     bindInfo 0 { exampleLayer with x := 1 }, bindInfo 0 { exampleLayer with y := 1 },
     bindInfo 0 { exampleLayer with dcol := 0x80000000 }, bindInfo 0 { exampleLayer with fbaddr := 0xD0000001 },
     bindInfo 0 { exampleLayer with fbaddr := 0xFFFDA802 }, bindInfo 0 exampleLayer] =
    [some (8, 0x102), some (8, 0x25), some (8, 0x23), some (8, 0x21), some (8, 0x22), some (8, 0x26), some (8, 0x27),
     some (8, 0x27), none] := by decide

theorem test_tgen_start : nextHas (execTgen true (bound (start [] []))) (fun t =>
    hostRegs t == (1, 0, 0) && t.tg.conf.en) = true := by decide

theorem test_tgen_stop : nextHas (execTgen false (scanning (start [] []))) (fun t =>
    !t.tg.conf.en && t.tg.scan.hcnt == 0 && t.tg.scan.vcnt == 0 && t.tg.scan.de) = true := by decide

/-! ### Steps -/

theorem test_fetch_word_runs : nextHas (step (State.reset.withFetchWord 16 0x2005)) (fun t =>
    t.obs.txn == [.settle 5] && t.sq.pc == 1) = true := by decide

theorem test_illegal : nextHas (step (start [0x3003] [])) (fun t => hostRegs t == (0, 3, 0x3003)) = true := by decide

theorem test_reset_pulse :
    nextHas (step { scanning (start [0x3000] []) with env := { Env.start with sched := [.reset] } }) (fun t =>
      !t.tg.conf.configured && t.sq.pc == 0 && t.tg.scan.hsync && t.ops == [0x3000]) = true := by decide

theorem test_outside_write :
    nextHas (step { start [] [] with env := { Env.start with sched := [.fbWrite 3 0xABCD] } }) (fun t =>
      t.fb == [(6, 0xCD), (7, 0xAB)]) = true := by decide

/-! ### Every statement's hypotheses are met somewhere -/

theorem allDone_replicate (n m : Nat) (e : Env) (h : e.answers = List.replicate n .done) (hm : m ≤ n) :
    Env.allDone m e := by
  induction m generalizing n e with
  | zero => trivial
  | succ m ih =>
    obtain ⟨k, rfl⟩ : ∃ k, n = k + 1 := ⟨n - 1, by omega⟩
    have hr : e.answers = .done :: List.replicate k .done := h
    refine ⟨by simp [Env.nextAnswer, hr], ih k _ ?_ (by omega)⟩
    simp [Env.takeAnswer, hr]

theorem start_runs (ops : List Word) (answers : List XferAnswer) : HostRuns (start ops answers) := ⟨rfl, rfl⟩

theorem start_idle (ops : List Word) (answers : List XferAnswer) : FramerIdle (start ops answers).fr :=
  ⟨rfl, rfl, rfl, rfl⟩

theorem initialised_runs (answers : List XferAnswer) :
    HostRuns (initialised answers) ∧ FramerIdle (initialised answers).fr ∧ (initialised answers).sq.inited = true :=
  ⟨⟨rfl, rfl⟩, ⟨rfl, rfl, rfl, rfl⟩, rfl⟩

theorem example_fits : LayerFits panelConf (layerOf exampleLayer) :=
  ⟨by decide, by decide, by decide, by decide, by decide, by decide, by decide, by decide⟩

/-- A running scanner's invariant from facts about its configuration. -/
theorem running_inv (c : TgConf) (g : TgScan) (l : Layer)
    (hc : 1 ≤ c.hs.toNat ∧ 1 ≤ c.aw.toNat ∧ 1 ≤ c.vs.toNat ∧ 1 ≤ c.ah.toNat)
    (hf : c.configured = true ∧ c.en = true ∧ c.layer1.bound = false) (hb : c.boundLayer = some l) (hl : LayerFits c l)
    (hp : g.hcnt.toNat < c.htotal ∧ g.vcnt.toNat < c.vtotal) : TgInv { conf := c, scan := g } := by
  refine ⟨fun _ => hc, fun _ => hf.1, fun _ => hf.1, fun h => absurd (h.2.symm.trans hf.2.2) Bool.noConfusion, ?_,
    fun _ => hp, fun h => absurd (hf.2.1.symm.trans h) Bool.noConfusion⟩
  intro x hx
  cases hb.symm.trans hx
  exact hl

theorem scanning_inv (s : State) : TgInv (scanning s).tg := by
  refine running_inv { panelConf.withLayer 0 (layerOf exampleLayer) with en := true } _ (layerOf exampleLayer)
    (by decide) (by decide) rfl ?_ ⟨?_, ?_⟩
  · exact ⟨by decide, by decide, by decide, by decide, by decide, by decide, by decide, by decide⟩
  · show 30 < TgConf.htotal _; decide
  · show 4 < TgConf.vtotal _; decide

/-- The smallest configuration, one pixel shown. -/
def oneConf : TgConf :=
  { (TgConf.afterReset.withTiming ⟨1, 0, 0, 1, 1, 0, 0, 1, false, false, false, false⟩ 0).withLayer 0
      (layerOf ⟨0, 0, 1, 1, 2, 0, 0x1000⟩) with en := true }

/-- That pixel's two bytes listed; at the start of a frame. -/
def onePixel : State :=
  { start [] [] with
    tg := { conf := oneConf, scan := TgScan.afterReset 0 }
    fb := [(0x1000, 0x1F), (0x1001, 0xF8)]
    env := { Env.start with sched := List.replicate 4 (.agent .scanner) } }

theorem onePixel_inv : TgInv onePixel.tg :=
  running_inv oneConf _ (layerOf ⟨0, 0, 1, 1, 2, 0, 0x1000⟩) (by decide) (by decide) rfl
    ⟨by decide, by decide, by decide, by decide, by decide, by decide, by decide, by decide⟩
    ⟨by decide, by decide⟩

theorem witness_DecodeEncodeRoundTrip : Instr.WellFormed (.tgcfg { panelTiming with hs := 65535, ah := 0 } 0xFFFFFF) := by
  decide

theorem witness_AcceptedWordsAreTheEncoding : decode [0x2FFF, 0x0000] = .ok (.delay 4095) 1 := by decide

theorem witness_RejectedExactlyWhenIllegal :
    IllegalWords 0x7000 [] ∧ IllegalWords 0xFFFF [] ∧ IllegalWords 0x4000 (List.replicate 9 0) ∧
    IllegalWords 0x5000 (List.replicate 7 0) ∧ IllegalWords 0x0100 [] ∧ IllegalWords 0x1F00 [] ∧
    IllegalWords 0x3004 [] ∧ IllegalWords 0x3003 [] ∧ IllegalWords 0x4010 (List.replicate 10 0) ∧
    IllegalWords 0x4000 (List.replicate 8 0 ++ [0x0100, 0]) ∧ IllegalWords 0x5010 (List.replicate 8 0) ∧
    IllegalWords 0x6002 [] := by
  simp [IllegalWords, opLength]

theorem witness_StepRunsDecodedInstruction :
    HostRuns (start [0x2005] []) ∧ decode ((start [0x2005] []).ops.drop 0) = .ok (.delay 5) 1 ∧
    Instr.WellFormed (.delay 5) ∧ (start [0x2005] []).env.sched = [] ∧ (start [0x2005] []).tg.conf.en = false ∧
    (State.atTurn .host (start [0x2005] [])).env.sched = .agent .host :: [] ∧
    (State.atTurn .scanner (start [0x2005] [])).env.sched = .agent .scanner :: [] ∧
    HostRuns (scanning (start [0x2005] [])) ∧ (scanning (start [0x2005] [])).env.sched = [] ∧
    (scanning (start [0x2005] [])).tg.conf.en = true ∧
    Config.patience (patient (scanning (start [0x2005] []))).env.turnDraws ≤
      (patient (scanning (start [0x2005] []))).env.scansSince :=
  ⟨⟨rfl, rfl⟩, by decide, trivial, rfl, rfl, rfl, rfl, ⟨rfl, rfl⟩, rfl, rfl, Nat.le_refl _⟩

theorem witness_IllegalWordTakesIllegalOp :
    HostRuns (start [0x7000] []) ∧ (start [0x7000] []).ops.drop (start [0x7000] []).sq.pc = 0x7000 :: [] ∧
    IllegalWords 0x7000 [] ∧ (start [0x7000] []).env.sched = [] ∧ (start [0x7000] []).tg.conf.en = false ∧
    (State.atTurn .host (start [0x7000] [])).env.sched = .agent .host :: [] ∧
    (State.atTurn .scanner (start [0x7000] [])).env.sched = .agent .scanner :: [] ∧
    HostRuns (patient (scanning (start [0x7000] []))) ∧
    (patient (scanning (start [0x7000] []))).tg.conf.en = true ∧
    Config.patience (patient (scanning (start [0x7000] []))).env.turnDraws ≤
      (patient (scanning (start [0x7000] []))).env.scansSince :=
  ⟨⟨rfl, rfl⟩, rfl, .inl (by decide), rfl, rfl, rfl, rfl, ⟨rfl, rfl⟩, rfl, Nat.le_refl _⟩

theorem witness_EachAgentEventuallySteps :
    TgInv (scanning (start [0x002C] [.done])).tg ∧ (scanning (start [0x002C] [.done])).env.sched = [] ∧
    (scanning (start [0x002C] [.done])).tg.conf.en = true ∧ HostRuns (scanning (start [0x002C] [.done])) ∧
    (scanning (start [0x002C] [.done])).sq.pc < (scanning (start [0x002C] [.done])).ops.length :=
  ⟨scanning_inv _, rfl, rfl, ⟨rfl, rfl⟩, by decide⟩

theorem witness_FinalStateHasNoStep :
    HostRuns (start [] []) ∧ (start [] []).sq.pc ≤ (start [] []).ops.length ∧ (start [] []).env.sched = [] ∧
    (start [] []).tg.conf.en = false := ⟨⟨rfl, rfl⟩, by decide, rfl, rfl⟩

theorem witness_WrcmdCompletes :
    HostRuns (start [] [.done]) ∧ FramerIdle (start [] [.done]).fr ∧ (start [] [.done]).env.nextAnswer = .done :=
  ⟨start_runs _ _, start_idle _ _, rfl⟩

theorem witness_WrdatCompletes :
    HostRuns (start [] [.done]) ∧ FramerIdle (start [] [.done]).fr ∧ (start [] [.done]).env.nextAnswer = .done :=
  ⟨start_runs _ _, start_idle _ _, rfl⟩

/-- At the first and the last number of pulses. -/
theorem witness_TransportFaultStopsInsideTheByte :
    (HostRuns (start [] [.fault 0]) ∧ FramerIdle (start [] [.fault 0]).fr ∧
      SendsOne (start [] [.fault 0]) (.wrcmd 0xCA) .cmd 0xCA ∧ (start [] [.fault 0]).env.nextAnswer = .fault 0) ∧
    (HostRuns (start [] [.fault 8]) ∧ FramerIdle (start [] [.fault 8]).fr ∧
      SendsOne (start [] [.fault 8]) (.wrdat 0xFF) .dat 0xFF ∧ (start [] [.fault 8]).env.nextAnswer = .fault 8) :=
  ⟨⟨start_runs _ _, start_idle _ _, .wrcmd _, rfl⟩, ⟨start_runs _ _, start_idle _ _, .wrdat _, rfl⟩⟩

/-- With `XFER_TIMEOUT` infinite and with a finite one. -/
theorem witness_StallTimesOutOrHangs :
    (HostRuns (start [] [.stall 0]) ∧ FramerIdle (start [] [.stall 0]).fr ∧
      SendsOne (start [] [.stall 0]) (.wrdat 0x00) .dat 0x00 ∧ (start [] [.stall 0]).env.nextAnswer = .stall 0 ∧
      (start [] [.stall 0]).par.raw.xferTimeout = none) ∧
    (let s := { start [] [.stall 8] with par := finiteParams }
     HostRuns s ∧ FramerIdle s.fr ∧ SendsOne s (.wrcmd 0xCA) .cmd 0xCA ∧ s.env.nextAnswer = .stall 8 ∧
      ∃ ms, s.par.raw.xferTimeout = some ms) :=
  ⟨⟨start_runs _ _, start_idle _ _, .wrdat _, rfl, rfl⟩, ⟨⟨rfl, rfl⟩, ⟨rfl, rfl, rfl, rfl⟩, .wrcmd _, rfl, 100, rfl⟩⟩

theorem witness_TransactionFramesOneByte :
    HostRuns (initialised [.done]) ∧ FramerIdle (initialised [.done]).fr ∧
    SendsOne (initialised [.done]) .on .cmd 0x29 ∧ (initialised [.done]).env.nextAnswer = .done ∧
    ∃ t, exec .on (initialised [.done]) = .next t :=
  ⟨⟨rfl, rfl⟩, ⟨rfl, rfl, rfl, rfl⟩, .on rfl, rfl, _, rfl⟩

theorem start_matches (ops : List Word) (answers : List XferAnswer) : WireMatches (start ops answers) :=
  ⟨WireScan.start, rfl, rfl, fun _ => ⟨⟨rfl, rfl, rfl, rfl⟩, rfl, rfl⟩⟩

theorem witness_WireDecodesToTransactions :
    WireMatches (start [0x002C] [.done]) ∧ ∃ t, step (start [0x002C] [.done]) = .next t :=
  ⟨start_matches _ _, _, rfl⟩

theorem witness_DelayCompletes : HostRuns (start [] []) := start_runs _ _

theorem candidate_transfers : (wireTxns (programTxns candidateRaw)).length = 106 := by decide +kernel

theorem witness_InitCompletes :
    HostRuns (start [] (List.replicate 106 .done)) ∧ FramerIdle (start [] (List.replicate 106 .done)).fr ∧
    (start [] (List.replicate 106 .done)).sq.inited = false ∧
    (start [] (List.replicate 106 .done)).env.allDone
      (wireTxns (programTxns (start [] (List.replicate 106 .done)).par.raw)).length :=
  ⟨start_runs _ _, start_idle _ _, rfl, allDone_replicate 106 _ _ rfl (Nat.le_of_eq candidate_transfers)⟩

theorem witness_InitTwiceFaults : HostRuns (initialised []) ∧ (initialised []).sq.inited = true := ⟨⟨rfl, rfl⟩, rfl⟩

/-- The fifth transfer, the command `0xCF`, is the first of entry 1, of stage 1 (vector V10). -/
theorem witness_InitStopsAtABrokenTransfer :
    let s := start [] [.done, .done, .done, .done, .fault 2]
    HostRuns s ∧ FramerIdle s.fr ∧ s.sq.inited = false ∧ s.gh = .reset ∧ s.env.allDone 4 ∧
    (s.env.afterAnswers 4).nextAnswer ≠ .done ∧ (wireTxns (programTxns s.par.raw))[4]? = some (.cmd, 0xCF) ∧
    s.par.raw.program[entryOfTransfer s.par.raw 4 s.par.raw.program]? = some ⟨1, .reg 0xCF [0x00, 0xC1, 0x30]⟩ :=
  ⟨start_runs _ _, start_idle _ _, rfl, rfl, ⟨rfl, rfl, rfl, rfl, trivial⟩, by decide, by decide +kernel,
    by decide +kernel⟩

theorem witness_OnCompletes :
    HostRuns (initialised [.done]) ∧ FramerIdle (initialised [.done]).fr ∧ (initialised [.done]).sq.inited = true ∧
    (initialised [.done]).env.nextAnswer = .done := ⟨⟨rfl, rfl⟩, ⟨rfl, rfl, rfl, rfl⟩, rfl, rfl⟩

theorem witness_OffCompletes :
    HostRuns (initialised [.done]) ∧ FramerIdle (initialised [.done]).fr ∧ (initialised [.done]).sq.inited = true ∧
    (initialised [.done]).env.nextAnswer = .done := ⟨⟨rfl, rfl⟩, ⟨rfl, rfl, rfl, rfl⟩, rfl, rfl⟩

theorem witness_OnOffBeforeInitFault : HostRuns (start [] []) ∧ (start [] []).sq.inited = false := ⟨start_runs _ _, rfl⟩

theorem witness_InitProgramAdmitsOtherRegisters :
    (0xB7 : Byte) ∉ listedSels.map candidate.raw.sel.byte ∧ (0xB7 : Byte) ≠ candidate.raw.sel.softReset ∧
    ((0xB7 : Byte) = candidate.raw.sel.pixelFormat → 12 < 8) ∧
    candidate.raw.sel.pixelFormat ∉ listedSels.map candidate.raw.sel.byte ∧
    candidate.raw.sel.pixelFormat ≠ candidate.raw.sel.softReset := by decide +kernel

theorem witness_InitSequenceIsReproducible :
    HostRuns (start [] (List.replicate 106 .done)) ∧ FramerIdle (start [] (List.replicate 106 .done)).fr ∧
    (start [] (List.replicate 106 .done)).sq.inited = false ∧
    (start [] (List.replicate 106 .done)).env.allDone
      (wireTxns (programTxns (start [] (List.replicate 106 .done)).par.raw)).length ∧
    HostRuns (start [0x3000] (List.replicate 107 .done)) ∧ FramerIdle (start [0x3000] (List.replicate 107 .done)).fr ∧
    (start [0x3000] (List.replicate 107 .done)).sq.inited = false ∧
    (start [0x3000] (List.replicate 107 .done)).env.allDone
      (wireTxns (programTxns (start [0x3000] (List.replicate 107 .done)).par.raw)).length ∧
    (start [] (List.replicate 106 .done)).par = (start [0x3000] (List.replicate 107 .done)).par :=
  ⟨start_runs _ _, start_idle _ _, rfl, allDone_replicate 106 _ _ rfl (Nat.le_of_eq candidate_transfers),
    start_runs _ _, start_idle _ _, rfl,
    allDone_replicate 107 _ _ rfl (Nat.le_succ_of_le (Nat.le_of_eq candidate_transfers)), rfl⟩

theorem witness_InitOnOffScenario :
    HostRuns (start [] (List.replicate 108 .done)) ∧ FramerIdle (start [] (List.replicate 108 .done)).fr ∧
    (start [] (List.replicate 108 .done)).sq.inited = false ∧
    (start [] (List.replicate 108 .done)).env.allDone
      ((wireTxns (programTxns (start [] (List.replicate 108 .done)).par.raw)).length + 2) :=
  ⟨start_runs _ _, start_idle _ _, rfl, allDone_replicate 108 _ _ rfl
    (Nat.le_of_eq (congrArg (· + 2) candidate_transfers))⟩

theorem witness_RegisterWriteIsOneFramePerByte :
    HostRuns (start [] (List.replicate 5 .done)) ∧ FramerIdle (start [] (List.replicate 5 .done)).fr ∧
    (start [] (List.replicate 5 .done)).env.allDone ([0x00, 0x00, 0x00, 0xEF].length + 1) :=
  ⟨start_runs _ _, start_idle _ _, allDone_replicate 5 _ _ rfl (Nat.le_refl 5)⟩

theorem witness_FramerAndSequencerFrame :
    (∃ t, exec (.wrcmd 0x2C) (start [] [.done]) = .next t) ∧ (∃ t, exec .init (start [] [.fault 0]) = .next t) ∧
    (∃ t, exec (.delay 5) (start [] []) = .next t) := ⟨⟨_, rfl⟩, ⟨_, rfl⟩, ⟨_, rfl⟩⟩

theorem witness_TgcfgCompletes :
    HostRuns (start [] []) ∧ (start [] []).tg.conf.configured = false ∧ CountsAccepted panelTiming ∧
    CountsAccepted ⟨65535, 0, 0, 1, 1, 0, 0, 65535, true, true, true, true⟩ :=
  ⟨start_runs _ _, rfl, by unfold CountsAccepted; decide, by unfold CountsAccepted; decide⟩

theorem witness_TgcfgRejections :
    HostRuns (configured (start [] [])) ∧ (configured (start [] [])).tg.conf.configured = true ∧
    HostRuns (start [] []) ∧ (start [] []).tg.conf.configured = false ∧
    ({ panelTiming with ah := 65536 } : TimingParams).counts[7]? = some 65536 ∧
    (∀ i < 7, ∀ m, ({ panelTiming with ah := 65536 } : TimingParams).counts[i]? = some m → m ≤ 65535) ∧
    (∀ n ∈ ({ panelTiming with hs := 0 } : TimingParams).counts, n ≤ 65535) ∧
    (∀ n ∈ ({ panelTiming with aw := 0 } : TimingParams).counts, n ≤ 65535) ∧
    (∀ n ∈ ({ panelTiming with vs := 0 } : TimingParams).counts, n ≤ 65535) ∧
    (∀ n ∈ ({ panelTiming with ah := 0, vfp := 65535 } : TimingParams).counts, n ≤ 65535) := by
  refine ⟨⟨rfl, rfl⟩, rfl, ⟨rfl, rfl⟩, rfl, rfl, ?_, by decide, by decide, by decide, by decide⟩
  intro i hi m hm
  interval_cases i <;> cases hm <;> decide

theorem witness_TgbindCompletes :
    HostRuns (configured (start [] [])) ∧ (configured (start [] [])).tg.conf.configured = true ∧ (1#4).toNat < 2 ∧
    (configured (start [] [])).tg.conf.layer0.bound = false ∧ (configured (start [] [])).tg.conf.layer1.bound = false ∧
    LayerFits (configured (start [] [])).tg.conf (slotOf exampleLayer) :=
  ⟨⟨rfl, rfl⟩, rfl, by decide, rfl, rfl, example_fits⟩

/-- A layer bound in slot 1 instead. -/
def boundOne (s : State) : State :=
  { configured s with tg.conf := panelConf.withLayer 1 (layerOf exampleLayer) }

theorem witness_TgbindRejections :
    HostRuns (configured (start [] [])) ∧ (configured (start [] [])).tg.conf.configured = true ∧ 2 ≤ (2#4).toNat ∧
    (bound (start [] [])).tg.conf.layer0.bound = true ∧ HostRuns (bound (start [] [])) ∧
    (boundOne (start [] [])).tg.conf.layer0.bound = false ∧ (boundOne (start [] [])).tg.conf.layer1.bound = true ∧
    HostRuns (boundOne (start [] [])) ∧ panelConf.layer0.bound = false ∧ panelConf.layer1.bound = false ∧
    ({ exampleLayer with pf := 3 } : LayerDesc).pf ≠ 2 ∧ ({ exampleLayer with w := 0 } : LayerDesc).w = 0 ∧
    ({ exampleLayer with h := 0 } : LayerDesc).h = 0 ∧
    panelConf.aw.toNat < ({ exampleLayer with x := 1 } : LayerDesc).x.toNat + exampleLayer.w.toNat ∧
    panelConf.ah.toNat < ({ exampleLayer with y := 1 } : LayerDesc).y.toNat + exampleLayer.h.toNat ∧
    ({ exampleLayer with dcol := 0x01000000 } : LayerDesc).dcol.toNat / 2 ^ 24 ≠ 0x00 ∧
    ({ exampleLayer with dcol := 0x01000000 } : LayerDesc).dcol.toNat / 2 ^ 24 ≠ 0xFF ∧
    ({ exampleLayer with fbaddr := 1 } : LayerDesc).fbaddr.toNat % 2 = 1 ∧
    2 ^ 32 < ({ exampleLayer with fbaddr := 0xFFFDA802 } : LayerDesc).fbaddr.toNat +
      2 * exampleLayer.w.toNat * exampleLayer.h.toNat :=
  ⟨⟨rfl, rfl⟩, rfl, by decide, rfl, ⟨rfl, rfl⟩, rfl, rfl, ⟨rfl, rfl⟩, rfl, rfl, by decide, rfl, rfl, by decide,
    by decide, by decide, by decide, by decide, by decide⟩

theorem witness_BindAndEnableNeedConfigure : HostRuns (start [] []) ∧ (start [] []).tg.conf.configured = false :=
  ⟨start_runs _ _, rfl⟩

theorem witness_TgenCompletes :
    HostRuns (configured (start [] [])) ∧ (configured (start [] [])).tg.conf.configured = true ∧
    (configured (start [] [])).tg.conf.en = false ∧ HostRuns (scanning (start [] [])) ∧
    (scanning (start [] [])).tg.conf.configured = true ∧ (scanning (start [] [])).tg.conf.en = true :=
  ⟨⟨rfl, rfl⟩, rfl, rfl, ⟨rfl, rfl⟩, rfl, rfl⟩

theorem witness_TimingGeneratorFrame :
    (∃ t, exec (.tgcfg panelTiming 0) (start [] []) = .next t) ∧
    (∃ t, exec (.tgbind 0 exampleLayer) (configured (start [] [])) = .next t) ∧
    (∃ t, exec (.tgen true) (configured (start [] [])) = .next t) := ⟨⟨_, rfl⟩, ⟨_, rfl⟩, ⟨_, rfl⟩⟩

/-- In the line, at its end, at the frame's end, and in and out of the active region. -/
theorem witness_ScanStepDrivesPinsAndCounters :
    TgInv (State.atTurn .scanner (scanning (start [] []))).tg ∧
    (State.atTurn .scanner (scanning (start [] []))).tg.conf.en = true ∧
    (State.atTurn .scanner (scanning (start [] []))).env.sched = .agent .scanner :: [] ∧
    InActive (scanning (start [] [])).tg.conf 30 4 ∧ InActive (scanning (start [] [])).tg.conf 269 323 ∧
    ¬ InActive (scanning (start [] [])).tg.conf 29 4 ∧ ¬ InActive (scanning (start [] [])).tg.conf 270 323 ∧
    (279 < (scanning (start [] [])).tg.conf.htotal) ∧ ¬ 279 + 1 < (scanning (start [] [])).tg.conf.htotal ∧
    ¬ 327 + 1 < (scanning (start [] [])).tg.conf.vtotal :=
  ⟨scanning_inv _, rfl, rfl, by unfold InActive; decide, by unfold InActive; decide, by unfold InActive; decide,
    by unfold InActive; decide, by decide, by decide, by decide⟩

/-- The configuration of V12 with a layer colour. -/
theorem tiny_inv (h v : BitVec 18) (hp : h.toNat < 5 ∧ v.toNat < 4) : TgInv (tiny 0 false h v).tg :=
  running_inv _ _ (layerOf tinyLayer) (by decide) (by decide) rfl
    ⟨by decide, by decide, by decide, by decide, by decide, by decide, by decide, by decide⟩ hp

/-- Inside the layer's window, and outside it with a transparent and with an opaque layer colour (V12, V14). -/
theorem witness_ScanStepShowsThePixel :
    TgInv (tiny 0 false 3 1).tg ∧ (tiny 0 false 3 1).tg.conf.en = true ∧
    (tiny 0 false 3 1).env.sched = .agent .scanner :: [] ∧
    (tiny 0 false 3 1).tg.conf.boundLayer = some (layerOf tinyLayer) ∧ InWindow (layerOf tinyLayer) 1 0 ∧
    ¬ InWindow (layerOf tinyLayer) 0 0 ∧ ¬ InWindow (layerOf tinyLayer) 1 1 ∧
    TgInv (tiny 0xFFAABBCC false 2 1).tg ∧ (0xFFAABBCC#32).toNat / 2 ^ 24 = 0xFF :=
  ⟨tiny_inv _ _ (by decide), rfl, rfl, rfl, by unfold InWindow; decide, by unfold InWindow; decide,
    by unfold InWindow; decide,
    running_inv _ _ (layerOf { tinyLayer with dcol := 0xFFAABBCC }) (by decide) (by decide) rfl
      ⟨by decide, by decide, by decide, by decide, by decide, by decide, by decide, by decide⟩ (by decide), by decide⟩

/-- No layer bound (42_timing_generator.md R152). -/
theorem witness_ScanStepShowsThePixel_noLayer :
    let c : TgConf := { panelConf with en := true }
    c.boundLayer = none ∧ TgInv { conf := c, scan := { TgScan.afterReset 0 with hcnt := 30, vcnt := 4 } } := by
  refine ⟨rfl, fun _ => by decide, fun _ => rfl, fun h => absurd rfl h, by decide, fun l hl => (by cases hl),
    fun _ => by decide, fun h => absurd h (by decide)⟩

theorem witness_ScanIsPeriodic :
    TgInv onePixel.tg ∧ onePixel.tg.conf.en = true ∧
    onePixel.env.sched = List.replicate (frameSteps onePixel.tg.conf) (.agent .scanner) ++ [] :=
  ⟨onePixel_inv, rfl, rfl⟩

theorem witness_FrameHasExactlyTheActiveSamples :
    TgInv onePixel.tg ∧ onePixel.tg.conf.en = true ∧ onePixel.tg.scan.hcnt = 0 ∧ onePixel.tg.scan.vcnt = 0 ∧
    onePixel.env.sched = List.replicate (frameSteps onePixel.tg.conf) (.agent .scanner) ++ [] :=
  ⟨onePixel_inv, rfl, rfl, rfl, rfl⟩

theorem witness_FrameShowsTheFramebuffer :
    TgInv onePixel.tg ∧ onePixel.tg.conf.en = true ∧ onePixel.tg.scan.hcnt = 0 ∧ onePixel.tg.scan.vcnt = 0 ∧
    onePixel.tg.conf.boundLayer = some (layerOf ⟨0, 0, 1, 1, 2, 0, 0x1000⟩) ∧
    (layerOf ⟨0, 0, 1, 1, 2, 0, 0x1000⟩).w = onePixel.tg.conf.aw ∧
    (layerOf ⟨0, 0, 1, 1, 2, 0, 0x1000⟩).h = onePixel.tg.conf.ah ∧
    RegionListed onePixel.fb (layerOf ⟨0, 0, 1, 1, 2, 0, 0x1000⟩) ∧
    onePixel.env.sched = List.replicate (frameSteps onePixel.tg.conf) (.agent .scanner) ++ [] :=
  ⟨onePixel_inv, rfl, rfl, rfl, rfl, rfl, rfl, by unfold RegionListed; decide, rfl⟩

theorem witness_ScannerStaysInsideTheFramebuffer :
    TgInv onePixel.tg ∧ onePixel.tg.conf.en = true ∧
    onePixel.env.sched = .agent .scanner :: List.replicate 3 (.agent .scanner) := ⟨onePixel_inv, rfl, rfl⟩

theorem witness_FaultedOrHungHostHasNoStep :
    ((start [] []).raise .illegalOp 0).sq.flt ≠ 0 ∧ HostHung (beginFrame .cmd 0x2C (start [] [])) ∧
    ((start [] []).raise .illegalOp 0).env.sched = [] ∧ ((start [] []).raise .illegalOp 0).tg.conf.en = false ∧
    (beginFrame .cmd 0x2C (start [] [])).env.sched = [] ∧ (beginFrame .cmd 0x2C (start [] [])).tg.conf.en = false :=
  ⟨by decide, ⟨rfl, by decide⟩, rfl, rfl, rfl, rfl⟩

/-- A scanner that goes on behind a faulted host, and one behind a hung host. -/
theorem witness_ScannerSurvivesAHostFault :
    let s := (scanning (start [] [])).raise .illegalOp 0
    let u := beginFrame .cmd 0x2C (scanning (start [] []))
    TgInv s.tg ∧ s.sq.flt ≠ 0 ∧ s.tg.conf.en = true ∧ s.env.sched = [] ∧ TgInv u.tg ∧ HostHung u ∧
    ((State.atTurn .host s).env.sched = .agent .host :: []) := by
  refine ⟨scanning_inv _, by decide, rfl, rfl, scanning_inv _, ⟨rfl, by decide⟩, rfl⟩

theorem witness_OnlyResetClears :
    (∃ t, step (tiny 0 false 3 1) = .next t) ∧ (tiny 0 false 3 1).env.sched.head? ≠ some .reset ∧
    (tiny 0 false 3 1).tg.conf.configured = true ∧ (tiny 0 false 3 1).tg.conf.layer0.bound = true ∧
    (boundOne (start [0x2005] [])).tg.conf.layer1.bound = true ∧ (∃ t, step (boundOne (start [0x2005] [])) = .next t) ∧
    (initialised []).sq.inited = true ∧
    (∃ t, step { initialised [] with ops := [0x2005] } = .next t) ∧
    (∃ t, step { tiny 0 false 3 1 with sq := { Sequencer.afterReset with flt := 3 } } = .next t) := by
  refine ⟨⟨_, rfl⟩, by decide, rfl, rfl, rfl, ⟨_, rfl⟩, rfl, ⟨_, rfl⟩, ⟨_, rfl⟩⟩

/-- Each flag changes somewhere, by its operation. -/
theorem witness_FlagsWrittenOnlyByTheirOperation :
    nextHas (exec (.tgcfg panelTiming 0) (start [] [])) (fun t => t.tg.conf.configured) = true ∧
    nextHas (exec (.tgen true) (configured (start [] []))) (fun t => t.tg.conf.en) = true ∧
    nextHas (exec (.tgbind 0 exampleLayer) (configured (start [] []))) (fun t => t.tg.conf.layer0.bound) = true ∧
    nextHas (exec (.tgbind 1 exampleLayer) (configured (start [] []))) (fun t => t.tg.conf.layer1.bound) = true ∧
    nextHas (exec .init (start [] (List.replicate 106 .done))) (fun t => t.sq.inited) = true :=
  ⟨by decide, by decide, by decide, by decide, by decide +kernel⟩

/-- An operation that completes and one that faults. -/
theorem witness_PcAdvancesByTheLength :
    nextHas (exec (.tgcfg panelTiming 0) (start [] [])) (fun t => t.sq.flt == 0 && t.fr.phase == .idle) = true ∧
    nextHas (exec .on (start [] [])) (fun t => t.sq.flt == 4) = true := ⟨by decide, by decide⟩

theorem witness_StreamAndProgramAreImmutable : ∃ t, step (start [0x2005] []) = .next t := ⟨_, rfl⟩

theorem witness_HardwareNeverWritesTheFramebuffer :
    (∃ t, step (tiny 0 false 3 1) = .next t) ∧
    ∀ n v, (tiny 0 false 3 1).env.sched.head? ≠ some (.fbWrite n v) := ⟨⟨_, rfl⟩, fun n v h => by cases h⟩

/-- The first and the last pixel of the space. -/
theorem witness_OutsideWriteChangesOnePixel :
    (tiny 0 false 3 1).fb.wf = true ∧
    ({ tiny 0 false 3 1 with env := { Env.start with sched := [.fbWrite 0 0xABCD] } } : State).env.sched =
      .fbWrite 0 0xABCD :: [] ∧
    ({ tiny 0 false 3 1 with env := { Env.start with sched := [.fbWrite 0x7FFFFFFF 0xABCD] } } : State).env.sched =
      .fbWrite 0x7FFFFFFF 0xABCD :: [] := ⟨by decide, rfl, rfl⟩

theorem witness_HostAndScannerCommute :
    let s := scanning (start [0x002C] [.done])
    TgInv s.tg ∧ s.tg.conf.en = true ∧ HostRuns s ∧ s.sq.pc < s.ops.length ∧
    (∀ i n, decode (s.ops.drop s.sq.pc) = .ok i n → (∀ l d, i ≠ .tgbind l d) ∧ (∀ e, i ≠ .tgen e)) := by
  refine ⟨scanning_inv _, rfl, ⟨rfl, rfl⟩, by decide, fun i n h => ?_⟩
  have hd : decode [0x002C] = .ok (.wrcmd 0x2C) 1 := by decide
  cases hd.symm.trans h
  exact ⟨fun _ _ h => (by cases h), fun _ h => (by cases h)⟩

theorem witness_TimingInvariantKept : TgInv (tiny 0 false 3 1).tg ∧ ∃ t, step (tiny 0 false 3 1) = .next t :=
  ⟨tiny_inv _ _ (by decide), _, rfl⟩

theorem start_inv (ops : List Word) (answers : List XferAnswer) : HostInv (start ops answers) :=
  ⟨fun _ => ⟨rfl, rfl, rfl, rfl⟩, fun h => absurd rfl h, Nat.zero_le 9, fun _ => rfl, fun _ => rfl,
    fun h => Bool.noConfusion h, fun _ _ => rfl, Nat.zero_le _⟩

theorem witness_HostInvariantKept :
    HostInv (start [0x002C] [.fault 3]) ∧ ∃ t, step (start [0x002C] [.fault 3]) = .next t := ⟨start_inv _ _, _, rfl⟩

theorem witness_FramebufferFormKept :
    (tiny 0 false 3 1).fb.wf = true ∧ ∃ t, step (tiny 0 false 3 1) = .next t := ⟨by decide, _, rfl⟩

theorem witness_ResetValues :
    ({ scanning (start [] []) with env := { Env.start with sched := [.reset] } } : State).env.sched = .reset :: [] := rfl

theorem witness_SpicfgIsHardwired : ∃ t, step (start [0x2005] []) = .next t := ⟨_, rfl⟩

end Sys2Proof.Tests
end

section
/-! `INIT_PROGRAM` may hold a write of any other register between two stages (00_scope.md R6, 41_sequencer_ops.md R112).
The checks of R112 to R116 see a program only through the order of its stages, its two end entries and, for each stage,
what stands there up to extra entries at the stage's ends. -/

namespace Sys2Proof.Machine

/-! ### The checks from their clauses -/

/-- The registers R113's table does not name, without the two that are held back, are extra entries. -/
theorem isExtra_reg {t : Selectors} {k : Nat} {sel : Byte} (payload : List Byte) (hl : sel ∉ listedSels.map t.byte)
    (hr : sel ≠ t.softReset) (hf : sel = t.pixelFormat → k < 8) : isExtra t k (.reg sel payload) = true := by
  simp only [isExtra, Bool.and_eq_true, Bool.not_eq_true', List.contains_eq_mem, decide_eq_false_iff_not, bne_iff_ne,
    Bool.or_eq_true, decide_eq_true_eq, Selectors.byte]
  exact ⟨⟨hl, hr⟩, (em (sel = t.pixelFormat)).symm.imp_right hf⟩

/-- The converse of `selectThenSettle_split`. -/
theorem selectThenSettle_of_split {t : Selectors} {program : List RomEntry} {k : Nat} {s : Sel} {w : SettleId}
    {pre post : List InitOp} (hs : s ∈ listedSels)
    (h : stageOps program k = pre ++ [.reg (t.byte s) [], .settle w] ++ post) (hpre : Extras t k pre)
    (hpost : Extras t k post) : selectThenSettle t program k s w = true := by
  have hdrop : (stageOps program k).dropWhile (isExtra t k) = .reg (t.byte s) [] :: .settle w :: post := by
    rw [h, List.append_assoc, List.dropWhile_append_of_pos hpre]
    exact List.dropWhile_cons_of_neg (by simp [isExtra_listed hs])
  simp only [selectThenSettle, hdrop, beq_self_eq_true, Bool.true_and, List.all_eq_true]
  exact hpost

/-- The converse of `programFacts`: the clauses are all that the checks of R112 to R116 ask for. -/
theorem ProgramFacts.ok {t : Selectors} {n : Nat} {program : List RomEntry} (F : ProgramFacts t n program) :
    programOk t n program = true := by
  obtain ⟨x, y, h8, hx, hy⟩ := F.eight
  obtain ⟨g, pos, neg, h9, hpos, hneg⟩ := F.nine
  obtain ⟨u, v, h10, hu, hv⟩ := F.ten
  have hnumbers : ∀ e ∈ program, e.stage ∈ stageNumbers := fun e he => by
    have := F.numbers e he
    simp only [stageNumbers, List.mem_cons, List.not_mem_nil, or_false]
    omega
  have hany : ∀ k ∈ [1, 2, 3, 4, 5], stageInAnyOrder t program k = true := fun k hk => by
    simp only [List.mem_cons, List.not_mem_nil, or_false] at hk
    simpa only [stageInAnyOrder, Bool.and_eq_true, List.isPerm_iff] using F.anyOrder k (by omega) (by omega)
  have hnine : stage9Ok t n program = true := by simp [stage9Ok, h9, hpos, hneg, Selectors.byte, Config.pgammaLen]
  simp only [programOk, Bool.and_eq_true, stagesInOrder, firstIsUnlock, lastIsGram, stage6Ok, stage7Ok,
    stageSelectOnly, beq_iff_eq, decide_eq_true_eq, List.all_eq_true, List.contains_eq_mem]
  exact ⟨⟨⟨⟨⟨⟨⟨⟨⟨⟨⟨hnumbers, F.sorted⟩, F.first⟩, hany⟩, F.six⟩, F.seven⟩,
    selectThenSettle_of_split (by decide) h8 hx hy⟩, hnine⟩, selectThenSettle_of_split (by decide) h10 hu hv⟩,
    F.eleven⟩, F.twelve⟩, F.last⟩

/-! ### A stage with extra entries put at its ends -/

/-- `ops'` is `ops` with entries before and after it that stage `k` may hold beside the listed ones. -/
def Padded (t : Selectors) (k : Nat) (ops ops' : List InitOp) : Prop :=
  ∃ a b, ops' = a ++ ops ++ b ∧ Extras t k a ∧ Extras t k b

theorem Extras.append {t : Selectors} {k : Nat} {a b : List InitOp} (ha : Extras t k a) (hb : Extras t k b) :
    Extras t k (a ++ b) := fun op hop => (List.mem_append.mp hop).elim (ha op) (hb op)

theorem Extras.nil (t : Selectors) (k : Nat) : Extras t k [] := fun _ hop => absurd hop List.not_mem_nil

theorem Extras.allRegs_eq {t : Selectors} {k : Nat} {ops : List InitOp} (h : Extras t k ops) : allRegs ops = true :=
  allRegs_of_no_settle ops fun w hw => Bool.noConfusion (h (.settle w) hw)

theorem allRegs_append (a b : List InitOp) : allRegs (a ++ b) = (allRegs a && allRegs b) := by
  induction a with
  | nil => rfl
  | cons op a ih =>
    cases op with
    | reg sel payload => exact ih
    | settle w => rfl

theorem Padded.listedOps_eq {t : Selectors} {k : Nat} {ops ops' : List InitOp} (h : Padded t k ops ops') :
    listedOps t k ops' = listedOps t k ops := by
  obtain ⟨a, b, rfl, ha, hb⟩ := h
  simp [listedOps_append, listedOps_of_extras ha, listedOps_of_extras hb]

theorem Padded.allRegs_eq {t : Selectors} {k : Nat} {ops ops' : List InitOp} (h : Padded t k ops ops') :
    allRegs ops' = allRegs ops := by
  obtain ⟨a, b, rfl, ha, hb⟩ := h
  simp [allRegs_append, ha.allRegs_eq, hb.allRegs_eq]

/-- What stands between extra entries still does. -/
theorem Padded.split {t : Selectors} {k : Nat} {ops ops' mid : List InitOp} (h : Padded t k ops ops')
    (hmid : Padded t k mid ops) : Padded t k mid ops' := by
  obtain ⟨a, b, rfl, ha, hb⟩ := h
  obtain ⟨pre, post, rfl, hpre, hpost⟩ := hmid
  exact ⟨a ++ pre, post ++ b, by simp only [List.append_assoc], ha.append hpre, hpost.append hb⟩

/-- Extra entries at the ends of stages leave the clauses of R112 to R116 true, where the order of the stages and the
two end entries stay. -/
theorem ProgramFacts.padded {t : Selectors} {n : Nat} {program program' : List RomEntry}
    (F : ProgramFacts t n program) (hsorted : (program'.map RomEntry.stage).Pairwise (· ≤ ·))
    (hnumbers : ∀ e ∈ program', 1 ≤ e.stage ∧ e.stage < 13) (hfirst : program'.head? = program.head?)
    (hlast : program'.getLast? = program.getLast?)
    (h : ∀ k, Padded t k (stageOps program k) (stageOps program' k)) : ProgramFacts t n program' where
  sorted := hsorted
  numbers := hnumbers
  first := hfirst.trans F.first
  anyOrder k h1 h5 := by rw [(h k).allRegs_eq, (h k).listedOps_eq]; exact F.anyOrder k h1 h5
  six := by rw [(h 6).listedOps_eq]; exact F.six
  seven := by rw [(h 7).allRegs_eq, (h 7).listedOps_eq]; exact F.seven
  eight := (h 8).split F.eight
  nine := by rw [(h 9).listedOps_eq]; exact F.nine
  ten := (h 10).split F.ten
  eleven := by rw [(h 11).listedOps_eq]; exact F.eleven
  twelve := by rw [(h 12).listedOps_eq]; exact F.twelve
  last := hlast.trans F.last

/-! ### One entry put behind stage `k` -/

/-- The program with the entry `e` between the stages up to `k` and those after it. -/
def insertAfterStage (k : Nat) (e : RomEntry) (program : List RomEntry) : List RomEntry :=
  program.filter (fun x => x.stage ≤ k) ++ e :: program.filter (fun x => k < x.stage)

theorem mem_insertAfterStage {k : Nat} {e x : RomEntry} {program : List RomEntry}
    (h : x ∈ insertAfterStage k e program) : x = e ∨ x ∈ program := by
  rcases List.mem_append.mp h with hx | hx
  · exact .inr (List.mem_of_mem_filter hx)
  · exact (List.mem_cons.mp hx).imp_right List.mem_of_mem_filter

/-- An entry of stage `k` or `k + 1` put there keeps the stages in order. -/
theorem sorted_insertAfterStage {k : Nat} {e : RomEntry} {program : List RomEntry}
    (hs : (program.map RomEntry.stage).Pairwise (· ≤ ·)) (he : e.stage = k ∨ e.stage = k + 1) :
    ((insertAfterStage k e program).map RomEntry.stage).Pairwise (· ≤ ·) := by
  have hs : program.Pairwise (fun x y => x.stage ≤ y.stage) := List.pairwise_map.mp hs
  refine List.pairwise_map.mpr (List.pairwise_append.mpr ⟨hs.filter _, List.pairwise_cons.mpr ⟨?_, hs.filter _⟩, ?_⟩)
  · intro y hy
    have hy : k < y.stage := by simpa using List.of_mem_filter hy
    omega
  · intro x hx y hy
    have hx : x.stage ≤ k := by simpa using List.of_mem_filter hx
    rcases List.mem_cons.mp hy with rfl | hy
    · omega
    · have hy : k < y.stage := by simpa using List.of_mem_filter hy
      omega

theorem head?_insertAfterStage {k : Nat} {e x : RomEntry} {program : List RomEntry} (h : program.head? = some x)
    (hx : x.stage ≤ k) : (insertAfterStage k e program).head? = program.head? := by
  obtain ⟨rest, rfl⟩ := List.head?_eq_some_iff.mp h
  simp [insertAfterStage, hx]

theorem getLast?_insertAfterStage {k : Nat} {e x : RomEntry} {program : List RomEntry}
    (h : program.getLast? = some x) (hx : k < x.stage) :
    (insertAfterStage k e program).getLast? = program.getLast? := by
  obtain ⟨front, rfl⟩ := List.getLast?_eq_some_iff.mp h
  have hkept : (front ++ [x]).filter (fun y => k < y.stage) = front.filter (fun y => k < y.stage) ++ [x] := by simp [hx]
  rw [insertAfterStage, hkept, ← List.cons_append, ← List.append_assoc, List.getLast?_concat, List.getLast?_concat]

/-- Filtering by a condition that every entry of stage `m` meets leaves the stage. -/
theorem stageOps_filter_of_true {program : List RomEntry} {p : RomEntry → Bool} {m : Nat}
    (h : ∀ x, x.stage = m → p x = true) : stageOps (program.filter p) m = stageOps program m := by
  rw [stageOps, stageOps, List.filter_filter]
  refine congrArg _ (List.filter_congr fun x _ => ?_)
  by_cases hx : x.stage = m <;> simp [hx, h]

/-- Filtering by a condition that no entry of stage `m` meets empties the stage. -/
theorem stageOps_filter_of_false {program : List RomEntry} {p : RomEntry → Bool} {m : Nat}
    (h : ∀ x, x.stage = m → p x = false) : stageOps (program.filter p) m = [] := by
  rw [stageOps, List.filter_filter, List.map_eq_nil_iff, List.filter_eq_nil_iff]
  intro x _ hx
  obtain ⟨hm, hp⟩ := Bool.and_eq_true_iff.mp hx
  rw [h x (by simpa using hm)] at hp
  exact Bool.noConfusion hp

theorem stageOps_append (a b : List RomEntry) (m : Nat) : stageOps (a ++ b) m = stageOps a m ++ stageOps b m := by
  simp only [stageOps, List.filter_append, List.map_append]

/-- An extra entry put behind stage `k` stands at an end of its stage, and the other stages stay. -/
theorem padded_insertAfterStage {t : Selectors} {k : Nat} {e : RomEntry} (program : List RomEntry)
    (he : isExtra t e.stage e.op = true) (m : Nat) :
    Padded t m (stageOps program m) (stageOps (insertAfterStage k e program) m) := by
  have hextra : Extras t m (stageOps [e] m) := fun op hop => by
    obtain ⟨x, hx, rfl⟩ := List.mem_map.mp hop
    obtain ⟨hxe, hxm⟩ := List.mem_filter.mp hx
    obtain rfl := List.mem_singleton.mp hxe
    rwa [← beq_iff_eq.mp hxm]
  have hsplit : stageOps (insertAfterStage k e program) m = stageOps (program.filter (fun x => x.stage ≤ k)) m ++
      (stageOps [e] m ++ stageOps (program.filter (fun x => k < x.stage)) m) := by
    rw [← stageOps_append, ← stageOps_append]; rfl
  by_cases hm : m ≤ k
  · refine ⟨[], stageOps [e] m, ?_, Extras.nil t m, hextra⟩
    rw [hsplit, stageOps_filter_of_true fun x hx => decide_eq_true (hx ▸ hm),
      stageOps_filter_of_false fun x hx => decide_eq_false (by omega), List.append_nil, List.nil_append]
  · refine ⟨stageOps [e] m, [], ?_, hextra, Extras.nil t m⟩
    rw [hsplit, stageOps_filter_of_false fun x hx => decide_eq_false (hx ▸ hm),
      stageOps_filter_of_true fun x hx => decide_eq_true (by omega), List.append_nil, List.nil_append]

/-- An extra entry of stage `k` or `k + 1` put behind stage `k` keeps the clauses of R112 to R116. -/
theorem ProgramFacts.insert {t : Selectors} {n k : Nat} {e : RomEntry} {program : List RomEntry}
    (F : ProgramFacts t n program) (h1 : 1 ≤ k) (h11 : k ≤ 11) (hj : e.stage = k ∨ e.stage = k + 1)
    (he : isExtra t e.stage e.op = true) : ProgramFacts t n (insertAfterStage k e program) := by
  refine F.padded (sorted_insertAfterStage F.sorted hj) (fun x hx => ?_) (head?_insertAfterStage F.first h1)
    (getLast?_insertAfterStage F.last (Nat.lt_succ_of_le h11)) (padded_insertAfterStage program he)
  rcases mem_insertAfterStage hx with rfl | hx
  · omega
  · exact F.numbers x hx

/-- A program that meets the clauses of R112 to R116 may take the place of the parameters' own. -/
theorem paramsOk_with_program (p : Params) {program : List RomEntry}
    (F : ProgramFacts p.raw.sel p.raw.ngammaLen program) : paramsOk { p.raw with program := program } = true :=
  Bool.and_eq_true_iff.mpr ⟨(Bool.and_eq_true_iff.mp p.ok).1, F.ok⟩

/-- Settles O60: the write is an extra entry at an end of its stage, and the checks do not see those. -/
theorem initProgramAdmitsOtherRegisters : Obligations.InitProgramAdmitsOtherRegisters := by
  unfold Obligations.InitProgramAdmitsOtherRegisters
  intro p k j sel payload h1 h11 hj hlisted hreset hformat
  have hextra : isExtra p.raw.sel j (.reg sel payload) = true := isExtra_reg payload hlisted hreset hformat
  have F := (paramFacts p).program.insert (e := ⟨j, .reg sel payload⟩) h1 h11 hj hextra
  exact ⟨⟨_, paramsOk_with_program p F⟩, rfl⟩

end Sys2Proof.Machine
end

section
/-! Rules of the whole machine (10_state.md): who writes a status flag, where `pc` stands after an operation, what no
step changes, and that host and scanner share no written element. -/

namespace Sys2Proof.Machine

/-! ### What an operation does to the configuration registers -/

theorem SpiOnly.conf {s t : State} (h : SpiOnly s t) : t.tg.conf = s.tg.conf := congrArg TimingGen.conf h.tg

theorem Raised.inited {s t : State} (h : Raised s t) : t.sq.inited = s.sq.inited := by
  obtain ⟨f, info, rfl⟩ := h
  rfl

theorem setEnable_conf (e : Bool) (s : State) : (setEnable e s).tg.conf = { s.tg.conf with en := e } := by
  rcases s with ⟨_, _, ⟨⟨_, en, _, _, _, _, _, _, _, _, _, _, _, _, _, _, _⟩, _⟩, _, _, _, _, _, _⟩
  cases e <;> cases en <;> rfl

/-- An accepted `TGBIND` names slot 0 or slot 1 (R144), and fills that one. -/
theorem withLayer_of_bindError_none {c : TgConf} {k : BitVec 4} {d : LayerDesc} (h : bindError c k d = none) :
    (k = 0 ∧ c.withLayer k (layerOf d) = { c with layer0 := layerOf d }) ∨
    (k = 1 ∧ c.withLayer k (layerOf d) = { c with layer1 := layerOf d }) := by
  have hk : k.toNat < 2 := (bindError_none h).1
  obtain rfl | rfl : k = 0 ∨ k = 1 := by bv_omega
  · exact .inl ⟨rfl, rfl⟩
  · exact .inr ⟨rfl, rfl⟩

/-- One transaction and then `pc + 1` or a stop: the SPI side only, and not `INITED`. -/
theorem sendOne_spi (k : Kind) (b : Byte) (s : State) :
    SpiOnly s ((transaction k b s).finish (State.advance 1)) ∧
      ((transaction k b s).finish (State.advance 1)).sq.inited = s.sq.inited := by
  rcases sendOne_cases k b s with ⟨hd, hq, -⟩ | ⟨hs, -, -⟩
  · exact ⟨hd.spi, by rw [hq]⟩
  · exact ⟨hs.spi, hs.inited⟩

theorem displaySelect_spi (sel : Sel) (info : BitVec 32) (s : State) :
    SpiOnly s (displaySelect sel info s) ∧ (displaySelect sel info s).sq.inited = s.sq.inited := by
  rcases displaySelect_cases sel info s with ⟨-, hr⟩ | ⟨-, he⟩
  · exact ⟨hr.spi, hr.inited⟩
  · rw [he]; exact sendOne_spi .cmd _ s

/-- The operations of the framer and the sequencer touch the SPI side only. -/
theorem effect_spi (i : Instr) (s : State) (hp : s.fr.phase = .idle) (hc : ∀ p bg, i ≠ .tgcfg p bg)
    (hb : ∀ l d, i ≠ .tgbind l d) (he : ∀ e, i ≠ .tgen e) : SpiOnly s (effect i s) := by
  cases i with
  | wrcmd sel => exact (sendOne_spi .cmd sel s).1
  | wrdat b => exact (sendOne_spi .dat b s).1
  | delay ms => exact ⟨rfl, rfl, rfl, rfl, rfl, rfl, rfl, rfl, rfl, rfl⟩
  | init =>
    rcases effect_init_cases s hp with ⟨-, h⟩ | ⟨-, h, -⟩ | ⟨-, h⟩
    · exact h.spi
    · exact h.spi
    · exact h.spi
  | on => exact (displaySelect_spi .displayOn 1 s).1
  | off => exact (displaySelect_spi .displayOff 2 s).1
  | tgcfg p bg => exact absurd rfl (hc p bg)
  | tgbind l d => exact absurd rfl (hb l d)
  | tgen e => exact absurd rfl (he e)

/-- Everything an operation can do to the configuration registers. -/
theorem effect_conf_cases (i : Instr) (s : State) (hp : s.fr.phase = .idle) :
    (effect i s).tg.conf = s.tg.conf ∨
    (∃ p bg, i = .tgcfg p bg ∧ (effect i s).tg.conf = s.tg.conf.withTiming p bg) ∨
    (∃ d, i = .tgbind 0 d ∧ (effect i s).tg.conf = { s.tg.conf with layer0 := layerOf d }) ∨
    (∃ d, i = .tgbind 1 d ∧ (effect i s).tg.conf = { s.tg.conf with layer1 := layerOf d }) ∨
    (∃ e, i = .tgen e ∧ (effect i s).tg.conf = { s.tg.conf with en := e }) := by
  by_cases hc : ∃ p bg, i = .tgcfg p bg
  · obtain ⟨p, bg, rfl⟩ := hc
    rcases effect_tgcfg_cases p bg s with h | ⟨-, -, h⟩
    · exact .inl h.spi.conf
    · exact .inr (.inl ⟨p, bg, rfl, by rw [h]; rfl⟩)
  by_cases hb : ∃ k d, i = .tgbind k d
  · obtain ⟨k, d, rfl⟩ := hb
    rcases effect_tgbind_cases k d s with h | ⟨-, hn, h⟩
    · exact .inl h.spi.conf
    · have hl : (effect (.tgbind k d) s).tg.conf = s.tg.conf.withLayer k (layerOf d) := by rw [h]; rfl
      rcases withLayer_of_bindError_none hn with ⟨rfl, hw⟩ | ⟨rfl, hw⟩
      · exact .inr (.inr (.inl ⟨d, rfl, hl.trans hw⟩))
      · exact .inr (.inr (.inr (.inl ⟨d, rfl, hl.trans hw⟩)))
  by_cases he : ∃ e, i = .tgen e
  · obtain ⟨e, rfl⟩ := he
    rcases effect_tgen_cases e s with h | ⟨-, h⟩
    · exact .inl h.spi.conf
    · exact .inr (.inr (.inr (.inr ⟨e, rfl, by rw [h]; exact setEnable_conf e s⟩)))
  exact .inl (effect_spi i s hp (fun p bg h => hc ⟨p, bg, h⟩) (fun l d h => hb ⟨l, d, h⟩) (fun e h => he ⟨e, h⟩)).conf

/-- No operation but `INIT` writes `INITED` (10_state.md R19). -/
theorem effect_inited (i : Instr) (s : State) (hi : i ≠ .init) : (effect i s).sq.inited = s.sq.inited := by
  cases i with
  | wrcmd sel => exact (sendOne_spi .cmd sel s).2
  | wrdat b => exact (sendOne_spi .dat b s).2
  | delay ms => rfl
  | init => exact absurd rfl hi
  | on => exact (displaySelect_spi .displayOn 1 s).2
  | off => exact (displaySelect_spi .displayOff 2 s).2
  | tgcfg p bg =>
    rcases effect_tgcfg_cases p bg s with h | ⟨-, -, h⟩
    · exact h.inited
    · rw [h]; rfl
  | tgbind k d =>
    rcases effect_tgbind_cases k d s with h | ⟨-, -, h⟩
    · exact h.inited
    · rw [h]; rfl
  | tgen e =>
    rcases effect_tgen_cases e s with h | ⟨-, h⟩
    · exact h.inited
    · rw [h, setEnable_tg]; rfl

/-- Settles O44: the configuration registers are written in four ways only, each by its own operation, and `INITED`
by `INIT` only. -/
theorem flagsWrittenOnlyByTheirOperation : Obligations.FlagsWrittenOnlyByTheirOperation := by
  unfold Obligations.FlagsWrittenOnlyByTheirOperation
  intro s t i h
  obtain ⟨hr, ht⟩ := exec_next h
  have hinited : i ≠ .init → t.sq.inited = s.sq.inited := ht ▸ effect_inited i s
  have hconf := effect_conf_cases i s hr.idle
  rw [← ht] at hconf
  refine ⟨fun hne => by_contra fun hi => hne (hinited hi), ?_⟩
  rcases hconf with hc | ⟨p, bg, rfl, hc⟩ | ⟨d, rfl, hc⟩ | ⟨d, rfl, hc⟩ | ⟨e, rfl, hc⟩
  · simp [hc]
  · simp [hc, TgConf.withTiming]
  · simp [hc]
  · simp [hc]
  · simp [hc]

/-! ### The operation pointer -/

/-- An operation completes and moves `pc` behind its words, or stops and leaves `pc` (10_state.md R16,
60_exceptions.md R193). -/
theorem effect_pc_cases (i : Instr) {s : State} (hr : HostRuns s) :
    (HostRuns (effect i s) ∧ (effect i s).sq.pc = s.sq.pc + i.words) ∨
    (¬ HostRuns (effect i s) ∧ (effect i s).sq.pc = s.sq.pc) := by
  rcases effect_cases i s hr.idle with ⟨f, info, h⟩ | h | h | h
  · rw [h]; exact .inr ⟨fun hr' => f.code_ne_zero hr'.noFault, rfl⟩
  · exact .inl ⟨⟨h.flt.trans hr.noFault, h.phase⟩, h.pc⟩
  · exact .inr ⟨fun hr' => h.phase hr'.idle, h.pc⟩
  · exact .inl ⟨⟨by rw [h.sq]; exact hr.noFault, by rw [h.fr]; exact hr.idle⟩, by rw [h.sq]⟩

/-- Settles O45: an operation leaves a host that runs exactly when it moves `pc`. -/
theorem pcAdvancesByTheLength : Obligations.PcAdvancesByTheLength := by
  unfold Obligations.PcAdvancesByTheLength
  intro s t i h
  obtain ⟨hr, rfl⟩ := exec_next h
  rcases effect_pc_cases i hr with ⟨hrun, hpc⟩ | ⟨hstop, hpc⟩
  · exact ⟨fun _ => hpc, fun hn => absurd ⟨hrun.noFault, hrun.idle⟩ hn⟩
  · exact ⟨fun ⟨hf, hi⟩ => absurd ⟨hf, hi⟩ hstop, fun _ => hpc⟩

/-! ### What no step changes -/

theorem TurnTaken.ops_par {s u : State} (h : TurnTaken s u) : u.ops = s.ops ∧ u.par = s.par := by
  rw [h.eq]
  exact ⟨rfl, rfl⟩

theorem step_ops_par {s s' : State} (h : step s = .next s') : s'.ops = s.ops ∧ s'.par = s.par := by
  rcases step_cases h with ⟨u, hu, hready, rfl⟩ | ⟨u, pix, hu, -, -, rfl⟩ | ⟨rest, -, rfl⟩ | ⟨n, v, rest, -, rfl⟩
  · have hh := hostEffect_hostOnly u (hostReady_iff.mp hready).1.idle
    exact ⟨hh.ops.trans hu.ops_par.1, hh.par.trans hu.ops_par.2⟩
  · exact hu.ops_par
  · exact ⟨rfl, rfl⟩
  · exact ⟨rfl, rfl⟩

/-- Settles O46: neither agent, nor a reset pulse, nor an outside write changes them. -/
theorem streamAndProgramAreImmutable : Obligations.StreamAndProgramAreImmutable := by
  unfold Obligations.StreamAndProgramAreImmutable
  exact fun _ _ h => step_ops_par h

/-- `SPICFG` as a number: its three parts side by side. -/
theorem spicfg_toNat (s : State) :
    s.spicfg.toNat = ((brField s.par.raw.brDiv).toNat * 2 + spicfgBit7.toNat) * 128 + 0x23 := by
  simp only [State.spicfg, toNat_append, BitVec.reduceToNat, Nat.reducePow]

theorem brField_toNat {d : Nat} (h : d < 256) : (brField d).toNat = d := by
  simp [brField, h, Nat.mod_eq_of_lt h]

/-- Settles O56: the parts of `SPICFG` are constants and a parameter, and no step changes the parameters. -/
theorem spicfgIsHardwired : Obligations.SpicfgIsHardwired := by
  unfold Obligations.SpicfgIsHardwired
  refine ⟨fun s => ?_, fun s s' h => by rw [State.spicfg, (step_ops_par h).2, State.spicfg]⟩
  obtain ⟨htwo, heven⟩ := (paramFacts s.par).divisor
  have hbit : spicfgBit7.toNat < 2 := spicfgBit7.isLt
  rw [spicfg_toNat]
  refine ⟨by omega, fun hd => ?_, heven, htwo⟩
  rw [brField_toNat hd]
  omega

/-! ### Host and scanner (10_state.md R10) -/

/-- The operation `pc` points at is neither `TGBIND` nor `TGEN`. -/
def NoBindNoEnable (s : State) : Prop :=
  ∀ i n, decode s.fetch = .ok i n → (∀ l d, i ≠ .tgbind l d) ∧ (∀ e, i ≠ .tgen e)

theorem effect_tgcfg_of_configured {s : State} (h : s.tg.conf.configured = true) (p : TimingParams) (bg : Colour) :
    effect (.tgcfg p bg) s = s.raise .tgAlreadyConfigured 0 := if_pos h

/-- Once the timing generator is configured, a host step other than `TGBIND` and `TGEN` touches the SPI side only and
does not look at the scanner's side: `TGCFG` faults then (42_timing_generator.md R142). -/
theorem hostEffect_spi {s : State} (hp : s.fr.phase = .idle) (hcfg : s.tg.conf.configured = true)
    (hd : NoBindNoEnable s) :
    SpiOnly s (hostEffect s) ∧
      ∀ g v n r, hostEffect (withScan g v n r s) = withScan g v n r (hostEffect s) := by
  have hfetch : ∀ g v n r, (withScan g v n r s).fetch = s.fetch := fun _ _ _ _ => rfl
  unfold hostEffect
  simp only [hfetch]
  cases hi : decode s.fetch with
  | illegal e => exact ⟨⟨rfl, rfl, rfl, rfl, rfl, rfl, rfl, rfl, rfl, rfl⟩, fun _ _ _ _ => rfl⟩
  | ok i m =>
    obtain ⟨hb, he⟩ := hd i m hi
    by_cases hc : ∃ p bg, i = .tgcfg p bg
    · obtain ⟨p, bg, rfl⟩ := hc
      have fault := effect_tgcfg_of_configured hcfg p bg
      refine ⟨Raised.spi ⟨_, _, fault⟩, fun g v n r => ?_⟩
      calc effect (.tgcfg p bg) (withScan g v n r s)
          _ = (withScan g v n r s).raise .tgAlreadyConfigured 0 :=
            effect_tgcfg_of_configured (s := withScan g v n r s) hcfg p bg
          _ = withScan g v n r (effect (.tgcfg p bg) s) := by rw [fault]; rfl
    · have hc : ∀ p bg, i ≠ .tgcfg p bg := fun p bg h => hc ⟨p, bg, h⟩
      exact ⟨effect_spi i s hp hc hb he, fun g v n r => effect_withScan g v n r i s hc hb he⟩

/-- The schedule replaced. -/
def State.withSched (r : List SchedEntry) (s : State) : State := { s with env := { s.env with sched := r } }

/-- What a scan step showing `pix` writes from `s`, put into another state, with the schedule `r`. -/
def putScan (s : State) (pix : Colour) (r : List SchedEntry) : State → State :=
  withScan (scanEffect pix s).tg.scan (scanEffect pix s).obs.video (s.env.scanDraws + 1) r

/-- The scanner's elements of `s` are those of a state that differs on the SPI side only. -/
theorem SpiOnly.withScan_eq {s t : State} (h : SpiOnly s t) (r : List SchedEntry) :
    withScan s.tg.scan s.obs.video s.env.scanDraws r t = t.withSched r := by
  rw [← h.tg, ← h.video, ← h.scanDraws]
  rfl

/-- The scanner reads nothing the SPI side writes. -/
theorem SpiOnly.scanEffect_eq_putScan {s t : State} (h : SpiOnly s t) (pix : Colour) (r : List SchedEntry) :
    scanEffect pix (t.withSched r) = putScan s pix r t := by
  rw [State.withSched, scanEffect_withScan, putScan]
  simp only [scanEffect_eq, h.tg, h.video, h.scanDraws]

theorem SpiOnly.currentPixel_eq {s t : State} (h : SpiOnly s t) (r : List SchedEntry) :
    currentPixel (t.withSched r) = currentPixel s := by
  have hscan : (t.withSched r).tg.scan = s.tg.scan := congrArg TimingGen.scan h.tg
  rw [currentPixel, hscan, currentPixel]
  exact scanPixel_congr h.conf h.fb h.scanDraws _ _

/-- A scheduled turn of an enabled scanner, from a state that differs from `s` on the SPI side only. -/
theorem SpiOnly.scanner_turn {s t : State} {pix : Colour} {r : List SchedEntry} (h : SpiOnly s t)
    (he : s.tg.conf.en = true) (hpix : currentPixel s = some pix) :
    step (t.withSched (.agent .scanner :: r)) = .next (putScan s pix r t) := by
  have hen : t.tg.conf.en = true := h.tg ▸ he
  calc step (t.withSched (.agent .scanner :: r))
      _ = scanStep (t.withSched r) := step_scanner_turn hen rfl
      _ = .next (scanEffect pix (t.withSched r)) := by rw [scanStep_eq, h.currentPixel_eq r, hpix]
      _ = .next (putScan s pix r t) := by rw [h.scanEffect_eq_putScan pix r]

theorem run_two {s t u : State} (h : step s = .next t) (k : step t = .next u) : Host.Core.run core 2 s = .next u :=
  (run_succ h 1).trans (run_succ k 0)

/-- Settles O49: either order leaves the host's effect with the scanner's elements of one scan step from `s`. -/
theorem hostAndScannerCommute : Obligations.HostAndScannerCommute := by
  unfold Obligations.HostAndScannerCommute
  intro s rest hinv hen hrun hpc hop
  obtain ⟨pix, hpix, -⟩ := scanStep_of_inv hinv
  obtain ⟨hspi, hcomm⟩ := hostEffect_spi hrun.idle (hinv.enabled hen) hop
  refine ⟨putScan s pix rest (hostEffect s), run_two ?_ (hspi.scanner_turn hen hpix),
    run_two ((SpiOnly.refl s).scanner_turn hen hpix) ?_⟩
  · calc step (s.withSched (.agent .host :: .agent .scanner :: rest))
        _ = .next (hostEffect (s.withSched (.agent .scanner :: rest))) :=
          step_host_turn ⟨hrun.noFault, hrun.idle⟩ hpc rfl
        _ = .next ((hostEffect s).withSched (.agent .scanner :: rest)) :=
          congrArg Host.Outcome.next ((hcomm _ _ _ _).trans (hspi.withScan_eq _))
  · calc step (putScan s pix (.agent .host :: rest) s)
        _ = .next (hostEffect (putScan s pix rest s)) := step_host_turn ⟨hrun.noFault, hrun.idle⟩ hpc rfl
        _ = .next (putScan s pix rest (hostEffect s)) := congrArg Host.Outcome.next (hcomm _ _ _ _)

end Sys2Proof.Machine
end

section
/-! The framebuffer's bytes in a step (20_memory.md R40 to R44, R52): only an outside write changes them, and it changes
one pixel. -/

namespace Sys2Proof.Machine

/-! ### An outside write -/

/-- A scheduled outside write runs and leaves the schedule behind it. -/
theorem step_fbWrite {s : State} {n : BitVec 31} {v : Word} {rest : List SchedEntry}
    (h : s.env.sched = .fbWrite n v :: rest) :
    step s = .next { s with fb := s.fb.writePixel n v, env := { s.env with sched := rest } } := by
  simp only [step, machineStep, h, outsideWrite, State.dropSched, List.tail_cons]

theorem lowByte_toNat (v : Word) : (v.extractLsb' 0 8).toNat = v.toNat % 256 := by
  rw [BitVec.extractLsb'_toNat, Nat.shiftRight_zero]

theorem highByte_toNat (v : Word) : (v.extractLsb' 8 8).toNat = v.toNat / 256 := by
  have hv : v.toNat < 65536 := v.isLt
  rw [BitVec.extractLsb'_toNat, Nat.shiftRight_eq_div_pow]
  omega

/-- Settles O48: the bytes are those of `Memory.writePixel`, and the turn takes the entry off the schedule. -/
theorem outsideWriteChangesOnePixel : Obligations.OutsideWriteChangesOnePixel := by
  unfold Obligations.OutsideWriteChangesOnePixel
  intro s n v rest _ hsched
  refine ⟨s.fb.writePixel n v, step_fbWrite hsched, ?_, ?_, fun a => Memory.writePixel_other s.fb n v⟩
  · rw [Memory.writePixel_low, Option.map_some, lowByte_toNat]
  · rw [Memory.writePixel_high, Option.map_some, highByte_toNat]

/-! ### Every step -/

theorem TurnTaken.fb {s u : State} (h : TurnTaken s u) : u.fb = s.fb := by
  rw [h.eq]

/-- Everything a step can do to the framebuffer: nothing, or a scheduled outside write. -/
theorem step_fb_cases {s s' : State} (h : step s = .next s') :
    s'.fb = s.fb ∨ ∃ n v rest, s.env.sched = .fbWrite n v :: rest ∧ s'.fb = s.fb.writePixel n v := by
  rcases step_cases h with ⟨u, hu, hready, rfl⟩ | ⟨u, pix, hu, -, -, rfl⟩ | ⟨rest, -, rfl⟩ | ⟨n, v, rest, hs, rfl⟩
  · exact .inl ((hostEffect_hostOnly u (hostReady_iff.mp hready).1.idle).fb.trans hu.fb)
  · exact .inl hu.fb
  · exact .inl rfl
  · exact .inr ⟨n, v, rest, hs, rfl⟩

/-- Settles O52: an outside write puts its two bytes at their places in the list, and no other step changes it. -/
theorem framebufferFormKept : Obligations.FramebufferFormKept := by
  unfold Obligations.FramebufferFormKept
  intro s s' hwf h
  rcases step_fb_cases h with hfb | ⟨n, v, rest, -, hfb⟩
  · exact hfb ▸ hwf
  · exact hfb ▸ Memory.wf_writePixel hwf n v

end Sys2Proof.Machine
end

section
/-! The encoding of operation words (30_encoding.md R60 to R68): decoding an encoding, what an accepted word list is,
and which word lists are rejected. Each is said once for a format and put together along the major opcode. -/

namespace Sys2Proof

/-! ### The major opcode selects the format (R60, R67) -/

/-- The decoder of the format a major opcode selects. -/
def decodeAs (major : Nat) (w : Word) (rest : List Word) : Decoded :=
  match major with
  | 0 => decodeB .wrcmd w
  | 1 => decodeB .wrdat w
  | 2 => decodeT w
  | 3 => decodeS w
  | 4 => decodeC w rest
  | 5 => decodeL w rest
  | 6 => decodeE w
  | _ => .illegal .reservedMajor

theorem decode_cons (w : Word) (rest : List Word) : decode (w :: rest) = decodeAs (w.toNat / 4096) w rest := by
  rw [← Word.major_eq]
  rfl

theorem decode_of_major {m : Nat} {w : Word} (h : w.toNat / 4096 = m) (rest : List Word) :
    decode (w :: rest) = decodeAs m w rest := by
  rw [decode_cons, h]

/-! ### A format's check -/

theorem ok_of_check {c : Prop} [Decidable c] {i j : Instr} {n k : Nat} {e : DecodeError}
    (h : (if c then Decoded.ok j k else .illegal e) = .ok i n) : c ∧ i = j ∧ n = k := by
  split at h
  · next hc => cases h; exact ⟨hc, rfl, rfl⟩
  · cases h

theorem illegal_check {c : Prop} [Decidable c] {i : Instr} {n : Nat} {e : DecodeError} :
    (∃ e', (if c then Decoded.ok i n else .illegal e) = .illegal e') ↔ ¬ c := by
  by_cases h : c <;> simp [h]

/-! ### Decoding an encoding (R61 to R66) -/

/-- The head word of format B: a byte whose high digit is the major opcode, then the operand. -/
theorem byteHead_major (c b : Byte) : (c ++ b).toNat / 4096 = c.toNat / 16 := by
  have hb := b.isLt
  rw [toNat_append]
  omega

theorem decodeB_append (mk : Byte → Instr) {c : Byte} (b : Byte) (hc : c.toNat % 16 = 0) :
    decodeB mk (c ++ b) = .ok (mk b) 1 := by
  have hb := b.isLt
  have hzero : Word.field (c ++ b) 8 4 = 0 := by
    rw [Word.field_eq_zero, toNat_append]
    omega
  have himm : Word.field (c ++ b) 0 8 = b := BitVec.extractLsb'_append_eq_right
  rw [decodeB, if_pos hzero, himm]

theorem decodeT_append (c : BitVec 4) (ms : BitVec 12) : decodeT (c ++ ms) = .ok (.delay ms) 1 := by
  have hms : Word.field (c ++ ms) 0 12 = ms := BitVec.extractLsb'_append_eq_right
  rw [decodeT, hms]

theorem countWord_toNat {n : Nat} (h : CountFits n) : (countWord n).toNat = n :=
  Nat.mod_eq_of_lt h

theorem countWord_of_toNat (w : Word) : countWord w.toNat = w := BitVec.ofNat_toNat 16 w

theorem getLsbD_flagBit (b : Bool) : (flagBit b).getLsbD 0 = b := by cases b <;> rfl

/-- The head word of `TGCFG` from its four polarity flags. -/
def tgcfgHead (pcpol depol vspol hspol : Bool) : Word :=
  0x400#12 ++ flagBit pcpol ++ flagBit depol ++ flagBit vspol ++ flagBit hspol

theorem tgcfgHead_toNat (a b c d : Bool) : (tgcfgHead a b c d).toNat =
    0x4000 + (flagBit a).toNat * 8 + (flagBit b).toNat * 4 + (flagBit c).toNat * 2 + (flagBit d).toNat := by
  simp only [tgcfgHead, toNat_append, BitVec.reduceToNat]
  ring

theorem tgcfgHead_bits (a b c d : Bool) : (tgcfgHead a b c d).getLsbD 0 = d ∧ (tgcfgHead a b c d).getLsbD 1 = c ∧
    (tgcfgHead a b c d).getLsbD 2 = b ∧ (tgcfgHead a b c d).getLsbD 3 = a := by
  simp only [tgcfgHead, BitVec.getLsbD_append, Nat.reduceLT, Nat.reduceSub, if_true, if_false, getLsbD_flagBit,
    and_self]

theorem tgcfgHead_zero (a b c d : Bool) : (tgcfgHead a b c d).field 4 8 = 0 := by
  have ha := (flagBit a).isLt
  have hb := (flagBit b).isLt
  have hc := (flagBit c).isLt
  have hd := (flagBit d).isLt
  rw [Word.field_eq_zero, tgcfgHead_toNat]
  omega

theorem decode_encode_tgcfg (p : TimingParams) (bg : Colour) (rest : List Word) (hp : Instr.WellFormed (.tgcfg p bg)) :
    decode (encode (.tgcfg p bg) ++ rest) = .ok (.tgcfg p bg) 11 := by
  have hcounts : ∀ n ∈ p.counts, (countWord n).toNat = n := fun n hn => countWord_toNat (hp n hn)
  simp only [TimingParams.counts, List.forall_mem_cons] at hcounts
  have hmajor : (tgcfgHead p.pcpol p.depol p.vspol p.hspol).toNat / 4096 = 4 := by
    rw [tgcfgHead_toNat]
    omega
  have hzero : Word.field (0x00#8 ++ bg.extractLsb' 16 8) 8 8 = 0 := BitVec.extractLsb'_append_eq_left
  have hred : Word.field (0x00#8 ++ bg.extractLsb' 16 8) 0 8 = bg.extractLsb' 16 8 := BitVec.extractLsb'_append_eq_right
  have hbg : bg.extractLsb' 16 8 ++ bg.extractLsb' 0 16 = bg := append_halves (m := 8) (n := 16) bg
  rw [encode, ← tgcfgHead, List.cons_append, decode_of_major hmajor]
  simp only [decodeAs, List.cons_append, List.nil_append, decodeC, tgcfgHead_zero, hzero, and_self, if_true,
    tgcfgHead_bits, hcounts, hred, hbg]

theorem decode_encode_tgbind (k : BitVec 4) (d : LayerDesc) (rest : List Word) :
    decode (encode (.tgbind k d) ++ rest) = .ok (.tgbind k d) 9 := by
  have hk := k.isLt
  have hpf := d.pf.isLt
  have hmajor : (0x5#4 ++ d.pf ++ 0x0#4 ++ k).toNat / 4096 = 5 := by
    simp only [toNat_append, BitVec.reduceToNat]
    omega
  have hzero : Word.field (0x5#4 ++ d.pf ++ 0x0#4 ++ k) 4 4 = 0 := by
    rw [Word.field_eq_zero]
    simp only [toNat_append, BitVec.reduceToNat]
    omega
  have hidx : Word.field (0x5#4 ++ d.pf ++ 0x0#4 ++ k) 0 4 = k := BitVec.extractLsb'_append_eq_right
  have hformat : Word.field (0x5#4 ++ d.pf ++ 0x0#4 ++ k) 8 4 = d.pf := by
    apply BitVec.eq_of_toNat_eq
    simp only [Word.field_toNat, toNat_append, BitVec.reduceToNat]
    omega
  have hdcol : d.dcol.extractLsb' 16 16 ++ d.dcol.extractLsb' 0 16 = d.dcol := append_halves (m := 16) (n := 16) d.dcol
  have haddr : d.fbaddr.extractLsb' 16 16 ++ d.fbaddr.extractLsb' 0 16 = d.fbaddr :=
    append_halves (m := 16) (n := 16) d.fbaddr
  rw [encode, List.cons_append, decode_of_major hmajor]
  simp only [decodeAs, List.cons_append, List.nil_append, decodeL, hzero, if_true, hidx, hformat, hdcol, haddr]

theorem decode_encode (i : Instr) (rest : List Word) (hi : i.WellFormed) :
    decode (encode i ++ rest) = .ok i i.words := by
  cases i with
  | wrcmd sel => exact (decode_of_major (byteHead_major 0x00#8 sel) rest).trans (decodeB_append .wrcmd sel rfl)
  | wrdat byte => exact (decode_of_major (byteHead_major 0x10#8 byte) rest).trans (decodeB_append .wrdat byte rfl)
  | delay ms =>
    have hms := ms.isLt
    have hmajor : (0x2#4 ++ ms).toNat / 4096 = 2 := by
      simp only [toNat_append, BitVec.reduceToNat]
      omega
    exact (decode_of_major hmajor rest).trans (decodeT_append 0x2#4 ms)
  | init => rfl
  | on => rfl
  | off => rfl
  | tgcfg p bg => exact decode_encode_tgcfg p bg rest hi
  | tgbind k d => exact decode_encode_tgbind k d rest
  | tgen e => cases e <;> rfl

theorem encode_length (i : Instr) : (encode i).length = i.words := by
  cases i <;> rfl

/-- Settles O2: format by format, the decoder reads back every field the encoder wrote. -/
theorem decodeEncodeRoundTrip : Obligations.DecodeEncodeRoundTrip := by
  unfold Obligations.DecodeEncodeRoundTrip
  exact fun i rest hi => ⟨decode_encode i rest hi, encode_length i⟩

/-! ### Accepted word lists (R67, R68) -/

/-- An accepted word list spells a well-formed operation whose length the major opcode `m` gives (R60, R67). -/
structure Spells (m : Nat) (words : List Word) (i : Instr) (n : Nat) : Prop where
  wellFormed : i.WellFormed
  length : n = i.words
  major : n = opLength m
  words : words.take n = encode i

theorem take_one_of_eq {w v : Word} (rest : List Word) (h : w = v) : (w :: rest).take 1 = [v] := by
  rw [h, List.take_succ_cons, List.take_zero]

theorem byteHead_eq {w : Word} {c : Nat} (hm : w.toNat / 4096 = c) (hz : w.field 8 4 = 0) :
    w = BitVec.ofNat 8 (16 * c) ++ w.field 0 8 := by
  rw [Word.field_eq_zero] at hz
  have hw := w.isLt
  apply BitVec.eq_of_toNat_eq
  simp only [toNat_append, Word.field_toNat, BitVec.toNat_ofNat]
  omega

/-- Format B for either of its operations `mk`, with the major opcode `c`. -/
theorem decodeB_spells {mk : Byte → Instr} {c : Nat} {w : Word} {rest : List Word} {i : Instr} {n : Nat}
    (hmk : ∀ b, Spells c [BitVec.ofNat 8 (16 * c) ++ b] (mk b) 1) (hm : w.toNat / 4096 = c)
    (h : decodeB mk w = .ok i n) : Spells c (w :: rest) i n := by
  obtain ⟨hz, rfl, rfl⟩ := ok_of_check h
  have hs := hmk (w.field 0 8)
  rw [← byteHead_eq hm hz] at hs
  exact ⟨hs.wellFormed, hs.length, hs.major, hs.words⟩

theorem decodeT_spells {w : Word} {rest : List Word} {i : Instr} {n : Nat} (hm : w.toNat / 4096 = 2)
    (h : decodeT w = .ok i n) : Spells 2 (w :: rest) i n := by
  have hw : w = 0x2#4 ++ w.field 0 12 := by
    apply BitVec.eq_of_toNat_eq
    simp only [toNat_append, Word.field_toNat, BitVec.toNat_ofNat]
    omega
  cases h
  exact ⟨trivial, rfl, rfl, take_one_of_eq rest hw⟩

theorem decodeS_spells {w : Word} {rest : List Word} {i : Instr} {n : Nat} (hm : w.toNat / 4096 = 3)
    (h : decodeS w = .ok i n) : Spells 3 (w :: rest) i n := by
  unfold decodeS at h
  split at h
  · next hz =>
    rw [Word.field_eq_zero] at hz
    have hw : ∀ k, (w.field 0 2).toNat = k → w = BitVec.ofNat 16 (0x3000 + k) := by
      intro k hk
      rw [Word.field_toNat] at hk
      apply BitVec.eq_of_toNat_eq
      rw [BitVec.toNat_ofNat]
      omega
    split at h
    · next hk => cases h; exact ⟨trivial, rfl, rfl, take_one_of_eq rest (hw 0 hk)⟩
    · next hk => cases h; exact ⟨trivial, rfl, rfl, take_one_of_eq rest (hw 1 hk)⟩
    · next hk => cases h; exact ⟨trivial, rfl, rfl, take_one_of_eq rest (hw 2 hk)⟩
    · cases h
  · cases h

theorem toNat_flagBit_getLsbD (w : Word) (k : Nat) : (flagBit (w.getLsbD k)).toNat = w.toNat / 2 ^ k % 2 := by
  rw [flagBit_toNat, Word.bit_eq]
  rcases Nat.mod_two_eq_zero_or_one (w.toNat / 2 ^ k) with h | h <;> simp [h]

theorem decodeC_spells {w : Word} {rest : List Word} {i : Instr} {n : Nat} (hm : w.toNat / 4096 = 4)
    (h : decodeC w rest = .ok i n) : Spells 4 (w :: rest) i n := by
  unfold decodeC at h
  split at h
  · next w1 w2 w3 w4 w5 w6 w7 w8 w9 w10 tail =>
    obtain ⟨⟨hz, hz9⟩, rfl, rfl⟩ := ok_of_check h
    have hhead : w = tgcfgHead (w.getLsbD 3) (w.getLsbD 2) (w.getLsbD 1) (w.getLsbD 0) := by
      rw [Word.field_eq_zero] at hz
      apply BitVec.eq_of_toNat_eq
      simp only [tgcfgHead_toNat, toNat_flagBit_getLsbD]
      omega
    have hw9 : 0x00#8 ++ w9.field 0 8 = w9 := by
      rw [← show w9.field 8 8 = 0x00#8 from hz9]
      exact append_halves (m := 8) (n := 8) w9
    have hhi : (w9.field 0 8 ++ w10).extractLsb' 16 8 = w9.field 0 8 := BitVec.extractLsb'_append_eq_left
    have hlo : (w9.field 0 8 ++ w10).extractLsb' 0 16 = w10 := BitVec.extractLsb'_append_eq_right
    refine ⟨?_, rfl, rfl, ?_⟩
    · simp only [Instr.WellFormed, TimingParams.counts, List.forall_mem_cons]
      exact ⟨w1.isLt, w2.isLt, w3.isLt, w4.isLt, w5.isLt, w6.isLt, w7.isLt, w8.isLt, by simp⟩
    · rw [encode, ← tgcfgHead, ← hhead]
      simp only [countWord_of_toNat, hhi, hlo, hw9, List.take_succ_cons, List.take_zero]
  · cases h

theorem decodeL_spells {w : Word} {rest : List Word} {i : Instr} {n : Nat} (hm : w.toNat / 4096 = 5)
    (h : decodeL w rest = .ok i n) : Spells 5 (w :: rest) i n := by
  unfold decodeL at h
  split at h
  · next w1 w2 w3 w4 w5 w6 w7 w8 tail =>
    obtain ⟨hz, rfl, rfl⟩ := ok_of_check h
    have hhead : 0x5#4 ++ w.field 8 4 ++ 0x0#4 ++ w.field 0 4 = w := by
      rw [Word.field_eq_zero] at hz
      apply BitVec.eq_of_toNat_eq
      simp only [toNat_append, Word.field_toNat, BitVec.reduceToNat]
      omega
    have hhi : ∀ a b : Word, (a ++ b).extractLsb' 16 16 = a := fun a b => BitVec.extractLsb'_append_eq_left
    have hlo : ∀ a b : Word, (a ++ b).extractLsb' 0 16 = b := fun a b => BitVec.extractLsb'_append_eq_right
    refine ⟨trivial, rfl, rfl, ?_⟩
    simp only [encode, hhead, hhi, hlo, List.take_succ_cons, List.take_zero]
  · cases h

theorem decodeE_spells {w : Word} {rest : List Word} {i : Instr} {n : Nat} (hm : w.toNat / 4096 = 6)
    (h : decodeE w = .ok i n) : Spells 6 (w :: rest) i n := by
  obtain ⟨hz, rfl, rfl⟩ := ok_of_check h
  have hhead : w = 0x3000#15 ++ flagBit (w.getLsbD 0) := by
    rw [Word.field_eq_zero] at hz
    apply BitVec.eq_of_toNat_eq
    simp only [toNat_append, toNat_flagBit_getLsbD, BitVec.reduceToNat]
    omega
  exact ⟨trivial, rfl, rfl, take_one_of_eq rest hhead⟩

theorem decode_spells {w : Word} {rest : List Word} {i : Instr} {n : Nat} (h : decode (w :: rest) = .ok i n) :
    Spells (w.toNat / 4096) (w :: rest) i n := by
  rw [decode_cons] at h
  match hm : w.toNat / 4096, h with
  | 0, h => exact decodeB_spells (fun b => ⟨trivial, rfl, rfl, rfl⟩) hm h
  | 1, h => exact decodeB_spells (fun b => ⟨trivial, rfl, rfl, rfl⟩) hm h
  | 2, h => exact decodeT_spells hm h
  | 3, h => exact decodeS_spells hm h
  | 4, h => exact decodeC_spells hm h
  | 5, h => exact decodeL_spells hm h
  | 6, h => exact decodeE_spells hm h
  | _ + 7, h => cases h

/-- Settles O3: the checked fields and the operands are all the bits of the words. -/
theorem acceptedWordsAreTheEncoding : Obligations.AcceptedWordsAreTheEncoding := by
  unfold Obligations.AcceptedWordsAreTheEncoding
  intro w0 rest i n h
  obtain ⟨hwf, hlength, hmajor, hwords⟩ := decode_spells h
  exact ⟨hwf, hlength, hmajor, hwords⟩

/-! ### Rejected word lists (R68) -/

theorem decodeB_illegal (mk : Byte → Instr) (w : Word) :
    (∃ e, decodeB mk w = .illegal e) ↔ w.toNat / 256 % 16 ≠ 0 :=
  illegal_check.trans (not_congr Word.field_eq_zero)

theorem decodeS_illegal (w : Word) :
    (∃ e, decodeS w = .illegal e) ↔ w.toNat / 4 % 1024 ≠ 0 ∨ w.toNat % 4 = 3 := by
  have hzero : w.field 2 10 = 0 ↔ w.toNat / 4 % 1024 = 0 := Word.field_eq_zero
  have hfn : (w.field 0 2).toNat = w.toNat % 4 := by simp [Word.field_toNat]
  rw [decodeS, hfn, ne_eq, ← hzero]
  by_cases h : w.field 2 10 = 0
  · simp only [h, not_true_eq_false, false_or]
    match w.toNat % 4, Nat.mod_lt w.toNat (show 4 > 0 by decide) with
    | 0, _ => simp
    | 1, _ => simp
    | 2, _ => simp
    | 3, _ => simp
  · exact iff_of_true ⟨_, if_neg h⟩ (.inl h)

/-- A list that has no ten first words is shorter. -/
theorem length_lt_ten {l : List Word}
    (h : ∀ a b c d e f g i j k tail, l = a :: b :: c :: d :: e :: f :: g :: i :: j :: k :: tail → False) :
    l.length < 10 := by
  by_contra hl
  have hl : 10 ≤ l.length := by omega
  exact h l[0] l[1] l[2] l[3] l[4] l[5] l[6] l[7] l[8] l[9] (l.drop 10)
    (by simp only [List.getElem_cons_drop, List.drop_zero])

theorem length_lt_eight {l : List Word}
    (h : ∀ a b c d e f g i tail, l = a :: b :: c :: d :: e :: f :: g :: i :: tail → False) : l.length < 8 := by
  by_contra hl
  have hl : 8 ≤ l.length := by omega
  exact h l[0] l[1] l[2] l[3] l[4] l[5] l[6] l[7] (l.drop 8) (by simp only [List.getElem_cons_drop, List.drop_zero])

theorem decodeC_illegal (w : Word) (rest : List Word) :
    (∃ e, decodeC w rest = .illegal e) ↔
      rest.length + 1 < 11 ∨ w.toNat / 16 % 256 ≠ 0 ∨ ∃ w9, rest[8]? = some w9 ∧ w9.toNat / 256 ≠ 0 := by
  unfold decodeC
  split
  · next w1 w2 w3 w4 w5 w6 w7 w8 w9 w10 tail =>
    have hz : w.field 4 8 = 0 ↔ w.toNat / 16 % 256 = 0 := Word.field_eq_zero
    have hz9 : w9.field 8 8 = 0 ↔ w9.toNat / 256 = 0 := by
      have hlt := w9.isLt
      rw [Word.field_eq_zero]
      omega
    rw [illegal_check, hz, hz9, not_and_or]
    simp
  · next hshort => exact iff_of_true ⟨_, rfl⟩ (.inl (Nat.succ_lt_succ (length_lt_ten hshort)))

theorem decodeL_illegal (w : Word) (rest : List Word) :
    (∃ e, decodeL w rest = .illegal e) ↔ rest.length + 1 < 9 ∨ w.toNat / 16 % 16 ≠ 0 := by
  unfold decodeL
  split
  · have hz : w.field 4 4 = 0 ↔ w.toNat / 16 % 16 = 0 := Word.field_eq_zero
    rw [illegal_check, hz]
    simp
  · next hshort => exact iff_of_true ⟨_, rfl⟩ (.inl (Nat.succ_lt_succ (length_lt_eight hshort)))

theorem decodeE_illegal (w : Word) : (∃ e, decodeE w = .illegal e) ↔ w.toNat / 2 % 2048 ≠ 0 :=
  illegal_check.trans (not_congr Word.field_eq_zero)

theorem decode_illegal_iff (w : Word) (rest : List Word) :
    (∃ e, decode (w :: rest) = .illegal e) ↔ IllegalWords w rest := by
  rw [decode_cons]
  unfold IllegalWords
  match w.toNat / 4096 with
  | 0 => simpa [opLength, decodeAs] using decodeB_illegal .wrcmd w
  | 1 => simpa [opLength, decodeAs] using decodeB_illegal .wrdat w
  | 2 => simp [opLength, decodeAs, decodeT]
  | 3 => simpa [opLength, decodeAs] using decodeS_illegal w
  | 4 => simpa [opLength, decodeAs] using decodeC_illegal w rest
  | 5 => simpa [opLength, decodeAs] using decodeL_illegal w rest
  | 6 => simpa [opLength, decodeAs] using decodeE_illegal w
  | m + 7 => simp [decodeAs]

/-- Settles O4: each format's checks, as numbers, are the clauses of R68 for its major opcodes. -/
theorem rejectedExactlyWhenIllegal : Obligations.RejectedExactlyWhenIllegal := by
  unfold Obligations.RejectedExactlyWhenIllegal
  exact decode_illegal_iff

/-! ### The spec's own words -/

/-- Settles O1: the decoder runs on each list. -/
theorem specWordsDecode : Obligations.SpecWordsDecode := by
  unfold Obligations.SpecWordsDecode
  decide

end Sys2Proof
end

section
/-! The host's step over the words at `pc` (30_encoding.md R67, R68; 10_state.md R10): whenever the turn is the host's,
it runs the operation they decode to, or takes `IllegalOp`. -/

namespace Sys2Proof.Machine

/-! ### The host's turn -/

theorem pc_lt_of_fetch {s : State} {w : Word} {rest : List Word} (h : s.fetch = w :: rest) :
    s.sq.pc < s.ops.length := by
  by_contra hge
  rw [State.fetch, List.drop_eq_nil_of_le (Nat.not_lt.mp hge)] at h
  cases h

theorem hostReady_of_fetch {s : State} {w : Word} {rest : List Word} (hr : HostRuns s) (h : s.fetch = w :: rest) :
    s.hostReady = true :=
  hostReady_iff.mpr ⟨hr, pc_lt_of_fetch h⟩

theorem agentStep_host_turn {s : State} (h : s.hostReady = true) : agentStep .host s = hostStep s := by
  rw [agentStep, mover_host_turn h]

theorem agentStep_host_alone {s : State} (a : Agent) (h : s.hostReady = true) (he : s.tg.conf.en = false) :
    agentStep a s = hostStep s := by
  rw [agentStep, mover_host h he]

theorem step_agent_turn {s : State} {a : Agent} {rest : List SchedEntry} (hs : s.env.sched = .agent a :: rest) :
    step s = agentStep a { s with env := { s.env with sched := rest } } := by
  rw [← dropSched_eq hs]
  simp only [step, machineStep, hs]

/-- The four ways the host's turn comes, each with the state the host then steps from (10_state.md R10, log 8). -/
inductive HostTurn (s : State) : State → Prop where
  | alone (hs : s.env.sched = []) (he : s.tg.conf.en = false) : HostTurn s s
  | scheduled {rest : List SchedEntry} (hs : s.env.sched = .agent .host :: rest) :
      HostTurn s { s with env := { s.env with sched := rest } }
  | onlyHost {a : Agent} {rest : List SchedEntry} (hs : s.env.sched = .agent a :: rest) (he : s.tg.conf.en = false) :
      HostTurn s { s with env := { s.env with sched := rest } }
  | chosen (hs : s.env.sched = []) (he : s.tg.conf.en = true)
      (hp : Config.patience s.env.turnDraws ≤ s.env.scansSince) : HostTurn s s.hostChosen

/-- At the host's turn a host that has a step takes it. -/
theorem HostTurn.step_eq {s u : State} (h : HostTurn s u) (hh : s.hostReady = true) : step s = hostStep u := by
  cases h with
  | alone hs he => exact step_host_alone hs hh he
  | scheduled hs => exact (step_agent_turn hs).trans (agentStep_host_turn hh)
  | onlyHost hs he => exact (step_agent_turn hs).trans (agentStep_host_alone _ hh he)
  | chosen hs he hp => exact step_host_chosen hs hh he hp

theorem HostTurn.fetch_eq {s u : State} (h : HostTurn s u) : u.fetch = s.fetch := by
  cases h <;> rfl

theorem HostTurn.runs {s u : State} (h : HostTurn s u) (hr : HostRuns s) : HostRuns u := by
  cases h <;> exact ⟨hr.noFault, hr.idle⟩

/-! ### The two things a host step does -/

theorem hostStep_of_ok {s : State} {i : Instr} {n : Nat} (h : decode s.fetch = .ok i n) : hostStep s = exec i s := by
  rw [hostStep, h]

theorem fetch_cons_of_ok {s : State} {i : Instr} {n : Nat} (h : decode s.fetch = .ok i n) :
    ∃ w rest, s.fetch = w :: rest := by
  cases hf : s.fetch with
  | nil => rw [hf] at h; cases h
  | cons w rest => exact ⟨w, rest, rfl⟩

/-- Settles O5: the host's turn in its four forms, and the scanner's free choices until then. -/
theorem stepRunsDecodedInstruction : Obligations.StepRunsDecodedInstruction := by
  unfold Obligations.StepRunsDecodedInstruction
  intro s i n hr hd _
  obtain ⟨w, rest, hf⟩ := fetch_cons_of_ok hd
  have hh := hostReady_of_fetch hr hf
  have exec_at : ∀ {u}, HostTurn s u → step s = exec i u := fun hu => by
    rw [hu.step_eq hh]
    exact hostStep_of_ok ((congrArg decode hu.fetch_eq).trans hd)
  exact ⟨fun hs he => exec_at (.alone hs he), fun _ hs => exec_at (.scheduled hs),
    fun _ _ hs he => exec_at (.onlyHost hs he),
    fun hs he => ⟨fun hp => exec_at (.chosen hs he hp), step_scanner_chosen hs hh he⟩⟩

theorem hostStep_of_illegal {s : State} {w : Word} {rest : List Word} (hr : HostRuns s) (hf : s.fetch = w :: rest)
    (hw : IllegalWords w rest) : hostStep s = .next { s with sq := faultedSq s.sq 3 w.toNat } := by
  obtain ⟨e, he⟩ := (decode_illegal_iff w rest).mpr hw
  rw [hostStep, hf, he]
  have hinfo : headInfo (w :: rest) = BitVec.ofNat 32 w.toNat := (BitVec.ofNat_toNat 32 w).symm
  simp only [whenHostRuns_of_runs hr, hinfo]
  rfl

/-- Settles O6: the host's turn in its four forms, with words the decoder rejects by `decode_illegal_iff`. -/
theorem illegalWordTakesIllegalOp : Obligations.IllegalWordTakesIllegalOp := by
  unfold Obligations.IllegalWordTakesIllegalOp
  intro s w0 rest hr hf hw
  have hh := hostReady_of_fetch hr hf
  have fault_at : ∀ {u}, HostTurn s u → step s = .next { u with sq := faultedSq u.sq 3 w0.toNat } := fun hu => by
    rw [hu.step_eq hh]
    exact hostStep_of_illegal (hu.runs hr) (hu.fetch_eq.trans hf) hw
  exact ⟨fun hs he => fault_at (.alone hs he), fun _ hs => fault_at (.scheduled hs),
    fun _ _ hs he => fault_at (.onlyHost hs he), fun hs he hp => fault_at (.chosen hs he hp)⟩

end Sys2Proof.Machine
end

section
/-! The framer's operations with every transfer `Done` (40_framer_ops.md R82 to R87): the state one transaction leaves,
its frame on the wire, and a register write as one frame per byte. -/

namespace Sys2Proof.Machine

/-! ### One transaction -/

/-- An operation that is one transaction sends it and then adds 1 to `pc`. -/
theorem SendsOne.effect_eq {s : State} {i : Instr} {k : Kind} {b : Byte} (h : SendsOne s i k b) :
    effect i s = (transaction k b s).finish (State.advance 1) := by
  cases h with
  | wrcmd => rfl
  | wrdat => rfl
  | on hi => exact if_pos hi
  | off hi => exact if_pos hi

/-- The whole next state of an operation that is one transaction, its transfer answered `Done` (R84). -/
theorem SendsOne.exec_done {s : State} {i : Instr} {k : Kind} {b : Byte} (h : SendsOne s i k b) (hr : HostRuns s)
    (hf : FramerIdle s.fr) (ha : s.env.nextAnswer = .done) :
    exec i s = .next { afterTxn k b (rxAfter Config.bitOrder s.env.misoDraws s.fr.rxsr) s with
      sq := { s.sq with pc := s.sq.pc + 1 } } := by
  rw [exec_of_runs i hr, h.effect_eq, transaction_done k b s hf ha]
  rfl

/-- `SendsOne.exec_done` with `RXSR` as R90 describes it. -/
theorem SendsOne.exec_sampled {s : State} {i : Instr} {k : Kind} {b : Byte} (h : SendsOne s i k b) (hr : HostRuns s)
    (hf : FramerIdle s.fr) (ha : s.env.nextAnswer = .done) :
    ∃ rx, RxSampled s.fr.rxsr s.env.misoDraws 8 rx ∧
      exec i s = .next { afterTxn k b rx s with sq := { s.sq with pc := s.sq.pc + 1 } } :=
  ⟨_, rxAfter_sampled s.fr.rxsr s.env.misoDraws 8 (Nat.le_refl 8), h.exec_done hr hf ha⟩

/-- Settles O8: `WRCMD` is one command transaction. -/
theorem wrcmdCompletes : Obligations.WrcmdCompletes := by
  unfold Obligations.WrcmdCompletes
  exact fun sel _ hr hf ha => (SendsOne.wrcmd sel).exec_sampled hr hf ha

/-- Settles O9: `WRDAT` is one data transaction. -/
theorem wrdatCompletes : Obligations.WrdatCompletes := by
  unfold Obligations.WrdatCompletes
  exact fun b _ hr hf ha => (SendsOne.wrdat b).exec_sampled hr hf ha

/-! ### The frame of one byte (R85, R86) -/

theorem wholeFrame_dc (k : Kind) (b : Byte) (m : Level) :
    (wholeFrame k b m).map WireTuple.dc = .replicate 27 k.dcLevel := rfl

/-- CS is asserted behind the first tuple and deasserted with the last. -/
theorem wholeFrame_cs (k : Kind) (b : Byte) (m : Level) :
    (wholeFrame k b m).map WireTuple.cs = true :: .replicate 25 false ++ [true] := rfl

/-- SCK is low but in the middle tuple of each bit. -/
theorem wholeFrame_sck (k : Kind) (b : Byte) (m : Level) :
    (wholeFrame k b m).map WireTuple.sck =
      [false, false] ++ (List.replicate 8 [false, true, false]).flatten ++ [false] := rfl

/-- Settles O12: the 27 tuples are those of `wholeFrame`, whose levels of DC, CS and SCK do not depend on the byte. -/
theorem transactionFramesOneByte : Obligations.TransactionFramesOneByte := by
  unfold Obligations.TransactionFramesOneByte
  intro s t i k b hr hf hi ha ht
  obtain rfl := Host.Outcome.next.inj ((hi.exec_done hr hf ha).symm.trans ht)
  have hcs : (s.fr.pins :: wholeFrame k b s.fr.mosi).map WireTuple.cs = true :: true :: .replicate 25 false ++ [true] :=
    congrArg₂ List.cons hf.cs (wholeFrame_cs k b s.fr.mosi)
  have hsck : (s.fr.pins :: wholeFrame k b s.fr.mosi).map WireTuple.sck =
      false :: [false, false] ++ (List.replicate 8 [false, true, false]).flatten ++ [false] :=
    congrArg₂ List.cons hf.sck (wholeFrame_sck k b s.fr.mosi)
  refine ⟨wholeFrame k b s.fr.mosi, rfl, length_wholeFrame k b s.fr.mosi, fun x hx => ?_, ?_, ?_, ?_⟩
  · have hdc : x.dc ∈ (wholeFrame k b s.fr.mosi).map WireTuple.dc := List.mem_map_of_mem hx
    exact List.eq_of_mem_replicate (wholeFrame_dc k b s.fr.mosi ▸ hdc)
  · rw [hcs]; decide
  · rw [hcs]; decide
  · rw [hsck]; decide

/-! ### A register write (R87) -/

/-- `exec_done` as an entry sent: what a run of several transactions is put together from. -/
theorem SendsOne.exec_sent {s : State} {i : Instr} {k : Kind} {b : Byte} (h : SendsOne s i k b) (hr : HostRuns s)
    (hf : FramerIdle s.fr) (ha : s.env.nextAnswer = .done) :
    ∃ t, exec i s = .next t ∧ SentFrom s t [.txn k b] ∧ HostRuns t ∧
      t.sq = { s.sq with pc := s.sq.pc + 1 } ∧ t.gh = s.gh :=
  ⟨_, h.exec_done hr hf ha, (sentFrom_afterTxn k b s).of_sq_gh s.sq _ s.gh s.gh, ⟨hr.noFault, rfl⟩, rfl, rfl⟩

theorem execAll_cons {i : Instr} {s t : State} (h : exec i s = .next t) (rest : List Instr) :
    execAll (i :: rest) s = execAll rest t := by
  simp only [execAll, h]

/-- Data bytes one operation each, every transfer `Done`: one transaction per byte. -/
theorem execAll_wrdat_sent (bs : List Byte) (s : State) (hr : HostRuns s) (hf : FramerIdle s.fr)
    (hd : s.env.allDone bs.length) :
    ∃ t, execAll (bs.map .wrdat) s = .next t ∧ SentFrom s t (bs.map (.txn .dat)) ∧
      t.sq = { s.sq with pc := s.sq.pc + bs.length } ∧ t.gh = s.gh := by
  induction bs generalizing s with
  | nil => exact ⟨s, rfl, SentFrom.refl s, rfl, rfl⟩
  | cons b bs ih =>
    obtain ⟨t, hexec, hsent, hrt, hsq, hgh⟩ := (SendsOne.wrdat b).exec_sent hr hf hd.1
    rw [List.length_cons, Nat.add_comm] at hd
    obtain ⟨u, hrun, hsent', hsq', hgh'⟩ := ih t hrt (hsent.idle hf) (hsent.allDone hd)
    refine ⟨u, (execAll_cons hexec _).trans hrun, hsent.trans hsent', ?_, hgh'.trans hgh⟩
    rw [hsq', hsq, List.length_cons, Nat.add_assoc, Nat.add_comm 1]

/-- Settles O25: the command's transaction and then one for each payload byte, each a frame of its own. -/
theorem registerWriteIsOneFramePerByte : Obligations.RegisterWriteIsOneFramePerByte := by
  unfold Obligations.RegisterWriteIsOneFramePerByte
  intro sel payload s hr hf hd
  obtain ⟨t, hexec, hsent, hrt, hsq, hgh⟩ := (SendsOne.wrcmd sel).exec_sent hr hf hd.1
  rw [Nat.add_comm] at hd
  obtain ⟨u, hrun, hsent', hsq', hgh'⟩ := execAll_wrdat_sent payload t hrt (hsent.idle hf) (hsent.allDone hd)
  have hall : SentFrom s u (.txn .cmd sel :: payload.map (.txn .dat)) := hsent.trans hsent'
  refine ⟨u, (execAll_cons hexec _).trans hrun, hall, ?_, ?_, hgh'.trans hgh⟩
  · rw [hall.wire, List.length_append, length_framesOf, wireTxns, List.length_cons, wireTxns_payload]
  · rw [hsq', hsq, Nat.add_assoc, Nat.add_comm 1]

end Sys2Proof.Machine
end

section
/-! What the framer's and the sequencer's operations leave alone (40_framer_ops.md R82, R83; 41_sequencer_ops.md R110
to R119). -/

namespace Sys2Proof.Machine

/-- `INITED`, `IDX` and the Panel State are the same. -/
structure SamePanel (s t : State) : Prop where
  inited : t.sq.inited = s.sq.inited
  idx : t.sq.idx = s.sq.idx
  gh : t.gh = s.gh

theorem Raised.samePanel {s t : State} (h : Raised s t) : SamePanel s t := by
  obtain ⟨f, info, rfl⟩ := h
  exact ⟨rfl, rfl, rfl⟩

theorem sendOne_samePanel (k : Kind) (b : Byte) (s : State) :
    SamePanel s ((transaction k b s).finish (State.advance 1)) := by
  rcases sendOne_cases k b s with ⟨-, hsq, hgh⟩ | ⟨hstop, hidx, hgh⟩
  · exact ⟨by rw [hsq], by rw [hsq], hgh⟩
  · exact ⟨hstop.inited, hidx, hgh⟩

theorem displaySelect_samePanel (sel : Sel) (info : BitVec 32) (s : State) :
    SamePanel s (displaySelect sel info s) := by
  rcases displaySelect_cases sel info s with ⟨-, hr⟩ | ⟨-, he⟩
  · exact hr.samePanel
  · rw [he]; exact sendOne_samePanel .cmd _ s

/-- Only `INIT` works on the panel's initialisation (41_sequencer_ops.md R111, R120). -/
theorem effect_samePanel (i : Instr) (s : State) (hi : i ≠ .init) : SamePanel s (effect i s) := by
  cases i with
  | wrcmd sel => exact sendOne_samePanel .cmd sel s
  | wrdat b => exact sendOne_samePanel .dat b s
  | delay ms => exact ⟨rfl, rfl, rfl⟩
  | init => exact absurd rfl hi
  | on => exact displaySelect_samePanel .displayOn 1 s
  | off => exact displaySelect_samePanel .displayOff 2 s
  | tgcfg p bg =>
    rcases effect_tgcfg_cases p bg s with h | ⟨-, -, h⟩
    · exact h.samePanel
    · rw [h]; exact ⟨rfl, rfl, rfl⟩
  | tgbind k d =>
    rcases effect_tgbind_cases k d s with h | ⟨-, -, h⟩
    · exact h.samePanel
    · rw [h]; exact ⟨rfl, rfl, rfl⟩
  | tgen e =>
    rcases effect_tgen_cases e s with h | ⟨-, h⟩
    · exact h.samePanel
    · rw [h, setEnable_tg]; exact ⟨rfl, rfl, rfl⟩

/-- Settles O26: the SPI side is all these operations touch, and of them only `INIT` works on the panel's
initialisation. -/
theorem framerAndSequencerFrame : Obligations.FramerAndSequencerFrame := by
  unfold Obligations.FramerAndSequencerFrame
  intro s t i hi ht
  obtain ⟨hr, rfl⟩ := exec_next ht
  have hspi : SpiOnly s (effect i s) :=
    effect_spi i s hr.idle (fun _ _ h => by simp [h] at hi) (fun _ _ h => by simp [h] at hi)
      (fun _ h => by simp [h] at hi)
  refine ⟨hspi.tg, hspi.video, hspi.ops, hspi.par, fun a => by rw [hspi.fb], hspi.sched, hspi.scanDraws, ?_, ?_⟩
  · intro hne
    obtain ⟨hinited, hidx, hgh⟩ := effect_samePanel i s hne
    exact ⟨hinited, hidx, hgh⟩
  · rintro ⟨ms, rfl⟩
    exact ⟨rfl, rfl, rfl, rfl⟩

end Sys2Proof.Machine
end

section
/-! An operation is put together from a few moves of the SPI side (40_framer_ops.md R84, R88), so a predicate these
moves keep is kept by every step: said once, for any predicate. -/

namespace Sys2Proof.Machine

/-! ### Predicates the moves of the SPI side keep -/

/-- The framer, the fault registers and the traces of the SPI side are the same. -/
structure SameSpi (s t : State) : Prop where
  fr : t.fr = s.fr
  flt : t.sq.flt = s.sq.flt
  finfo : t.sq.finfo = s.sq.finfo
  txn : t.obs.txn = s.obs.txn
  wire : t.obs.wire = s.obs.wire

/-- `P` looks at the SPI side only, has idle pins between operations, and is kept by a complete and by a broken
transaction, a settle period, a fault between transactions, and a reset. -/
structure KeptBySpi (P : State → Prop) : Prop where
  pins : ∀ {s}, P s → s.fr.phase = .idle → FramerIdle s.fr
  frame : ∀ {s t}, P s → SameSpi s t → P t
  done : ∀ {s} k b rx, HostRuns s → P s → P (afterTxn k b rx s)
  broken : ∀ {s} k b n rx a, HostRuns s → P s →
    P { brokenTxn k b n rx s with sq := brokenSq s.par.raw s.sq k b a }
  wait : ∀ {s} ms, P s → P (waitAtLeast ms s)
  raised : ∀ {s} f info, HostRuns s → P s → P (s.raise f info)
  reset : ∀ ops par fb env, P (State.afterReset ops par fb env)

/-- A sequence of micro-steps completes in a state with `P` or stops in one with `Q`. -/
def Progress.Ends (P Q : State → Prop) : Progress → Prop
  | .completed s => P s
  | .stopped s => Q s

theorem Progress.Ends.andThen {P P' Q : State → Prop} {p : Progress} {k : State → Progress} (h : p.Ends P Q)
    (hk : ∀ t, P t → (k t).Ends P' Q) : (p.andThen k).Ends P' Q := by
  cases p with
  | completed t => exact hk t h
  | stopped t => exact h

theorem Progress.Ends.finish {P Q : State → Prop} {p : Progress} {k : State → State} (h : p.Ends P Q)
    (hk : ∀ t, P t → Q (k t)) : Q (p.finish k) := by
  cases p with
  | completed t => exact hk t h
  | stopped t => exact h

/-- The host runs, in a state with `P`. -/
def RunsWith (P : State → Prop) (s : State) : Prop := HostRuns s ∧ P s

theorem SameSpi.runs {s t : State} (h : SameSpi s t) (hr : HostRuns s) : HostRuns t :=
  ⟨h.flt.trans hr.noFault, by rw [h.fr, hr.idle]⟩

theorem sameSpi_advance (n : Nat) (s : State) : SameSpi s (s.advance n) := ⟨rfl, rfl, rfl, rfl, rfl⟩

theorem sameSpi_endInit (s : State) : SameSpi s ((endInit s).advance 1) := ⟨rfl, rfl, rfl, rfl, rfl⟩

theorem sameSpi_nextEntry (e : RomEntry) (rest : List RomEntry) (s : State) :
    SameSpi s (nextEntry (advancePanel e rest s)) := by
  rw [advancePanel_eq]
  exact ⟨rfl, rfl, rfl, rfl, rfl⟩

namespace KeptBySpi

variable {P : State → Prop} (hP : KeptBySpi P)
include hP

theorem runsWith_frame {s t : State} (hs : RunsWith P s) (h : SameSpi s t) : RunsWith P t :=
  ⟨h.runs hs.1, hP.frame hs.2 h⟩

/-! ### Every operation -/

theorem transaction_ends (k : Kind) (b : Byte) {s : State} (hs : RunsWith P s) :
    (transaction k b s).Ends (RunsWith P) P := by
  obtain ⟨hr, hp⟩ := hs
  have hf : FramerIdle s.fr := hP.pins hp hr.idle
  by_cases ha : s.env.nextAnswer = .done
  · rw [transaction_done k b s hf ha]
    exact ⟨⟨hr.noFault, rfl⟩, hP.done k b _ hr hp⟩
  · rw [transaction_broken k b s hf ha]
    exact hP.broken k b _ _ _ hr hp

theorem sendPayload_ends (bs : List Byte) {s : State} (hs : RunsWith P s) : (sendPayload bs s).Ends (RunsWith P) P := by
  induction bs generalizing s with
  | nil => exact hs
  | cons b bs ih => exact (hP.transaction_ends .dat b hs).andThen fun _ ht => ih ht

theorem runInitOp_ends (op : InitOp) {s : State} (hs : RunsWith P s) : (runInitOp op s).Ends (RunsWith P) P := by
  cases op with
  | settle w => exact ⟨⟨hs.1.noFault, hs.1.idle⟩, hP.wait _ hs.2⟩
  | reg sel payload => exact (hP.transaction_ends .cmd sel hs).andThen fun _ ht => hP.sendPayload_ends payload ht

theorem runProgram_ends (es : List RomEntry) {s : State} (hs : RunsWith P s) :
    (runProgram es s).Ends (RunsWith P) P := by
  induction es generalizing s with
  | nil => exact hs
  | cons e es ih =>
    exact (hP.runInitOp_ends e.op hs).andThen fun t ht => ih (hP.runsWith_frame ht (sameSpi_nextEntry e es t))

theorem sendOne (k : Kind) (b : Byte) {s : State} (hs : RunsWith P s) :
    P ((transaction k b s).finish (State.advance 1)) :=
  (hP.transaction_ends k b hs).finish fun t ht => hP.frame ht.2 (sameSpi_advance 1 t)

theorem raised_of {s t : State} (h : Raised s t) (hs : RunsWith P s) : P t := by
  obtain ⟨f, info, rfl⟩ := h
  exact hP.raised f info hs.1 hs.2

theorem displaySelect (sel : Sel) (info : BitVec 32) {s : State} (hs : RunsWith P s) :
    P (displaySelect sel info s) := by
  rcases displaySelect_cases sel info s with ⟨-, hr⟩ | ⟨-, he⟩
  · exact hP.raised_of hr hs
  · rw [he]; exact hP.sendOne .cmd _ hs

theorem init {s : State} (hs : RunsWith P s) : P (effect .init s) := by
  rcases Bool.eq_false_or_eq_true s.sq.inited with hi | hi
  · exact hP.raised_of ⟨_, _, if_pos hi⟩ hs
  · rw [effect_init hi]
    have start : RunsWith P { s with sq := { s.sq with idx := 0 } } :=
      hP.runsWith_frame hs ⟨rfl, rfl, rfl, rfl, rfl⟩
    exact (hP.runProgram_ends s.par.raw.program start).finish fun t ht => hP.frame ht.2 (sameSpi_endInit t)

theorem effect (i : Instr) {s : State} (hs : RunsWith P s) : P (effect i s) := by
  cases i with
  | wrcmd sel => exact hP.sendOne .cmd sel hs
  | wrdat b => exact hP.sendOne .dat b hs
  | delay ms => exact hP.frame (hP.wait ms.toNat hs.2) (sameSpi_advance 1 _)
  | init => exact hP.init hs
  | on => exact hP.displaySelect .displayOn 1 hs
  | off => exact hP.displaySelect .displayOff 2 hs
  | tgcfg p bg =>
    rcases effect_tgcfg_cases p bg s with h | ⟨-, -, h⟩
    · exact hP.raised_of h hs
    · rw [h]; exact hP.frame hs.2 ⟨rfl, rfl, rfl, rfl, rfl⟩
  | tgbind k d =>
    rcases effect_tgbind_cases k d s with h | ⟨-, -, h⟩
    · exact hP.raised_of h hs
    · rw [h]; exact hP.frame hs.2 ⟨rfl, rfl, rfl, rfl, rfl⟩
  | tgen e =>
    rcases effect_tgen_cases e s with h | ⟨-, h⟩
    · exact hP.raised_of h hs
    · rw [h, setEnable_tg]; exact hP.frame hs.2 ⟨rfl, rfl, rfl, rfl, rfl⟩

/-! ### Every step -/

theorem hostEffect {s : State} (hs : RunsWith P s) : P (hostEffect s) := by
  rcases hostEffect_cases s with ⟨i, n, -, h⟩ | h
  · rw [h]; exact hP.effect i hs
  · exact hP.raised_of h hs

theorem step {s s' : State} (hs : P s) (h : step s = .next s') : P s' := by
  have turn : ∀ {u}, TurnTaken s u → P u := fun hu => by
    rw [hu.eq]; exact hP.frame hs ⟨rfl, rfl, rfl, rfl, rfl⟩
  rcases step_cases h with ⟨u, hu, hready, rfl⟩ | ⟨u, pix, hu, -, -, rfl⟩ | ⟨rest, -, rfl⟩ | ⟨n, v, rest, -, rfl⟩
  · exact hP.hostEffect ⟨(hostReady_iff.mp hready).1, turn hu⟩
  · exact hP.frame (turn hu) ⟨rfl, rfl, rfl, rfl, rfl⟩
  · exact hP.reset ..
  · exact hP.frame hs ⟨rfl, rfl, rfl, rfl, rfl⟩

end KeptBySpi

end Sys2Proof.Machine
end

section
/-! The panel's decode of the wire yields the transactions recorded in `txn` (40_framer_ops.md R91). -/

namespace Sys2Proof.Machine

theorem brokenTxn_phase (k : Kind) (b : Byte) (n : Nat) (rx : Byte) (s : State) :
    (brokenTxn k b n rx s).fr.phase = .csLow ∨ (brokenTxn k b n rx s).fr.phase = .bitSample := by
  by_cases hn : n = 0
  · exact .inl (if_pos hn)
  · exact .inr (if_neg hn)

theorem brokenTxn_not_idle (k : Kind) (b : Byte) (n : Nat) (rx : Byte) (s : State) :
    (brokenTxn k b n rx s).fr.phase ≠ .idle := by
  rcases brokenTxn_phase k b n rx s with h | h <;> rw [h] <;> decide

/-- A whole frame after the panel's window is closed is the transaction recorded. -/
theorem WireMatches.afterTxn {s : State} (k : Kind) (b rx : Byte) (hi : s.fr.phase = .idle) (h : WireMatches s) :
    WireMatches (afterTxn k b rx s) := by
  obtain ⟨d, hfeed, hout, hrest⟩ := h
  obtain ⟨-, hwin, -⟩ := hrest hi
  obtain ⟨q, hcs, hframe⟩ := feedAll_wholeFrame k b s.fr.mosi d hwin
  refine ⟨_, (feedAll_then hfeed _).trans hframe, ?_, fun _ => ⟨FramerIdle.afterTxn k b rx s, rfl, hcs⟩⟩
  rw [hout]
  exact (wireTxns_append s.obs.txn [.txn k b]).symm

/-- A frame broken off records no transaction, and the panel has finished none. -/
theorem WireMatches.brokenTxn {s : State} (k : Kind) (b : Byte) (n : Nat) (rx : Byte) (q : Sequencer)
    (hi : s.fr.phase = .idle) (h : WireMatches s) : WireMatches { brokenTxn k b n rx s with sq := q } := by
  obtain ⟨d, hfeed, hout, hrest⟩ := h
  obtain ⟨-, hwin, -⟩ := hrest hi
  obtain ⟨p, -, -, hframe⟩ := feedAll_openFrame k b n s.fr.mosi d hwin
  exact ⟨_, (feedAll_then hfeed _).trans hframe, hout, fun hp => absurd hp (brokenTxn_not_idle k b n rx s)⟩

theorem WireMatches.frame {s t : State} (hs : WireMatches s) (h : SameSpi s t) : WireMatches t := by
  unfold WireMatches
  rw [h.fr, h.txn, h.wire]
  exact hs

/-- A settle period is no transaction and moves no pin. -/
theorem WireMatches.waitAtLeast {s : State} (ms : Nat) (h : WireMatches s) : WireMatches (waitAtLeast ms s) := by
  obtain ⟨d, hfeed, hout, hrest⟩ := h
  refine ⟨d, hfeed, hout.trans ?_, hrest⟩
  rw [waitAtLeast_obs, wireTxns_append]
  exact (List.append_nil _).symm

theorem framerIdle_afterReset (n : Nat) : FramerIdle (Framer.afterReset n) := ⟨rfl, rfl, rfl, rfl⟩

theorem wireMatches_keptBySpi : KeptBySpi WireMatches where
  pins := fun ⟨_, _, _, hrest⟩ hi => (hrest hi).1
  frame := WireMatches.frame
  done := fun k b rx hr h => h.afterTxn k b rx hr.idle
  broken := fun k b n rx _ hr h => h.brokenTxn k b n rx _ hr.idle
  wait := fun ms h => h.waitAtLeast ms
  raised := fun _ _ _ h => h
  reset := fun _ _ _ env => ⟨WireScan.start, rfl, rfl, fun _ => ⟨framerIdle_afterReset env.resets, rfl, rfl⟩⟩

/-- Settles O13: the moves of the SPI side keep `WireMatches`, so every step does. -/
theorem wireDecodesToTransactions : Obligations.WireDecodesToTransactions := by
  unfold Obligations.WireDecodesToTransactions
  exact fun _ _ hs h => wireMatches_keptBySpi.step hs h

end Sys2Proof.Machine
end

section
/-! What every step keeps of the framer and the host (40_framer_ops.md R88; 10_state.md R16 to R18, R30;
41_sequencer_ops.md R120). -/

namespace Sys2Proof.Machine

/-! ### The framer and the fault registers (R88; 10_state.md R30; 60_exceptions.md R181) -/

/-- The clauses of `HostInv` about the framer and the fault registers. -/
structure FramerInv (s : State) : Prop where
  idle : s.fr.phase = .idle → FramerIdle s.fr
  openTxn : s.fr.phase ≠ .idle →
    s.fr.cs = Config.csAssertLevel ∧ s.fr.sck = false ∧ (s.fr.phase = .csLow ∨ s.fr.phase = .bitSample) ∧
    s.sq.flt.toNat ≤ 2
  code : s.sq.flt.toNat ≤ 9
  noInfo : s.sq.flt = 0 → s.sq.finfo = 0

theorem HostInv.framer {s : State} (h : HostInv s) : FramerInv s := ⟨h.idle, h.openTxn, h.code, h.noInfo⟩

/-- With idle pins the clause about an open transaction says nothing. -/
theorem FramerInv.of_idle {s : State} (hf : FramerIdle s.fr) (hflt : s.sq.flt.toNat ≤ 9)
    (hinfo : s.sq.flt = 0 → s.sq.finfo = 0) : FramerInv s :=
  ⟨fun _ => hf, fun hne => absurd hf.phase hne, hflt, hinfo⟩

theorem FramerInv.frame {s t : State} (hs : FramerInv s) (h : SameSpi s t) : FramerInv t where
  idle := by rw [h.fr]; exact hs.idle
  openTxn := by rw [h.fr, h.flt]; exact hs.openTxn
  code := by rw [h.flt]; exact hs.code
  noInfo := by rw [h.flt, h.finfo]; exact hs.noInfo

/-- A broken transaction leaves `FLT` and `FINFO` as they were, or raises code 1 or 2 (60_exceptions.md R182, R183,
R201). -/
theorem brokenSq_cases (r : RawParams) (q : Sequencer) (k : Kind) (b : Byte) (a : XferAnswer) :
    brokenSq r q k b a = q ∨ (brokenSq r q k b a).flt = 1 ∨ (brokenSq r q k b a).flt = 2 := by
  cases a with
  | done => exact .inl rfl
  | fault n => exact .inr (.inl rfl)
  | stall n =>
    by_cases hr : r.xferTimeout = none
    · exact .inl (if_pos hr)
    · exact .inr (.inr (congrArg Sequencer.flt (if_neg hr)))

/-- A transaction broken off leaves CS asserted and SCK low, behind a transport fault, a timeout or a hang. -/
theorem FramerInv.brokenTxn {s : State} (k : Kind) (b : Byte) (n : Nat) (rx : Byte) (a : XferAnswer)
    (hr : HostRuns s) (h : FramerInv s) :
    FramerInv { brokenTxn k b n rx s with sq := brokenSq s.par.raw s.sq k b a } := by
  have hsq : (brokenSq s.par.raw s.sq k b a).flt.toNat ≤ 2 ∧
      ((brokenSq s.par.raw s.sq k b a).flt = 0 → (brokenSq s.par.raw s.sq k b a).finfo = 0) := by
    rcases brokenSq_cases s.par.raw s.sq k b a with hq | hq | hq
    · rw [hq, hr.noFault]; exact ⟨by decide, fun _ => h.noInfo hr.noFault⟩
    · rw [hq]; exact ⟨by decide, fun h0 => absurd h0 (by decide)⟩
    · rw [hq]; exact ⟨by decide, fun h0 => absurd h0 (by decide)⟩
  exact ⟨fun hi => absurd hi (brokenTxn_not_idle k b n rx s),
    fun _ => ⟨rfl, rfl, brokenTxn_phase k b n rx s, hsq.1⟩, Nat.le_trans hsq.1 (by decide), hsq.2⟩

theorem framerInv_keptBySpi : KeptBySpi FramerInv where
  pins := FramerInv.idle
  frame := FramerInv.frame
  done := fun k b rx _ h => .of_idle (FramerIdle.afterTxn k b rx _) h.code h.noInfo
  broken := fun k b n rx a hr h => h.brokenTxn k b n rx a hr
  wait := fun _ h => ⟨h.idle, h.openTxn, h.code, h.noInfo⟩
  raised := fun f _ hr h => .of_idle (h.idle hr.idle) f.code_le fun h0 => absurd h0 f.code_ne_zero
  reset := fun _ _ _ env => .of_idle (framerIdle_afterReset env.resets) (Nat.zero_le _) fun _ => rfl

/-! ### The sequencer's registers (10_state.md R17; 41_sequencer_ops.md R120) -/

/-- The clauses of `HostInv` about `IDX`, `INITED` and the Panel State. -/
structure PanelInv (s : State) : Prop where
  index : s.fr.phase = .idle → s.sq.idx = 0
  armed : s.sq.inited = true → s.gh = .gramWriteArmed
  fresh : s.sq.inited = false → s.fr.phase = .idle → s.gh = .reset

theorem HostInv.panel {s : State} (h : HostInv s) : PanelInv s := ⟨h.index, h.armed, h.fresh⟩

/-- From a state between transactions the clauses go on where the registers stay. -/
theorem PanelInv.of_samePanel {s t : State} (h : PanelInv s) (hi : s.fr.phase = .idle) (hst : SamePanel s t) :
    PanelInv t where
  index _ := hst.idx.trans (h.index hi)
  armed ht := hst.gh.trans (h.armed (hst.inited.symm.trans ht))
  fresh ht _ := hst.gh.trans (h.fresh (hst.inited.symm.trans ht) hi)

theorem panelInv_effect {s : State} (i : Instr) (h : PanelInv s) (hi : s.fr.phase = .idle) :
    PanelInv (effect i s) := by
  by_cases hinit : i = .init
  · subst hinit
    rcases effect_init_cases s hi with ⟨-, hr⟩ | ⟨-, -, hinited, hidx, hgh⟩ | ⟨hno, hstop⟩
    · exact h.of_samePanel hi hr.samePanel
    · exact ⟨fun _ => hidx, fun _ => hgh, fun hf => Bool.noConfusion (hinited.symm.trans hf)⟩
    · have hno : (effect .init s).sq.inited = false := hstop.inited.trans hno
      exact ⟨fun hp => absurd hp hstop.phase, fun ht => Bool.noConfusion (hno.symm.trans ht),
        fun _ hp => absurd hp hstop.phase⟩
  · exact h.of_samePanel hi (effect_samePanel i s hinit)

theorem panelInv_hostEffect {s : State} (h : PanelInv s) (hi : s.fr.phase = .idle) : PanelInv (hostEffect s) := by
  rcases hostEffect_cases s with ⟨i, n, -, he⟩ | hr
  · rw [he]; exact panelInv_effect i h hi
  · exact h.of_samePanel hi hr.samePanel

/-! ### The operation pointer (10_state.md R16) -/

/-- The words of an operation stand inside the stream (30_encoding.md R60, R67). -/
theorem pc_add_words_le {s : State} {i : Instr} {n : Nat} (h : decode s.fetch = .ok i n)
    (hpc : s.sq.pc ≤ s.ops.length) : s.sq.pc + i.words ≤ s.ops.length := by
  obtain ⟨w, rest, hf⟩ := fetch_cons_of_ok h
  have hs := decode_spells (hf ▸ h)
  have hlen : (s.fetch.take i.words).length = i.words := by
    rw [hf, ← hs.length, hs.words, encode_length, hs.length]
  rw [List.length_take, State.fetch, List.length_drop] at hlen
  omega

theorem hostEffect_pc_le {s : State} (hr : HostRuns s) (hpc : s.sq.pc ≤ s.ops.length) :
    (hostEffect s).sq.pc ≤ (hostEffect s).ops.length := by
  rw [(hostEffect_hostOnly s hr.idle).ops]
  rcases hostEffect_cases s with ⟨i, n, hd, h⟩ | ⟨f, info, h⟩
  · rw [h]
    rcases effect_pc_cases i hr with ⟨-, he⟩ | ⟨-, he⟩
    · rw [he]; exact pc_add_words_le hd hpc
    · rw [he]; exact hpc
  · rw [h]; exact hpc

/-! ### The whole invariant -/

theorem HostInv.of_parts {s : State} (hf : FramerInv s) (hp : PanelInv s) (hpc : s.sq.pc ≤ s.ops.length) : HostInv s :=
  ⟨hf.idle, hf.openTxn, hf.code, hf.noInfo, hp.index, hp.armed, hp.fresh, hpc⟩

/-- A step keeps the sequencer's clauses and `pc` inside the stream. -/
theorem panelInv_pc_step {s s' : State} (hp : PanelInv s) (hpc : s.sq.pc ≤ s.ops.length) (h : step s = .next s') :
    PanelInv s' ∧ s'.sq.pc ≤ s'.ops.length := by
  have turn : ∀ {u}, TurnTaken s u → PanelInv u ∧ u.sq.pc ≤ u.ops.length := fun hu => by
    rw [hu.eq]; exact ⟨⟨hp.index, hp.armed, hp.fresh⟩, hpc⟩
  rcases step_cases h with ⟨u, hu, hready, rfl⟩ | ⟨u, pix, hu, -, -, rfl⟩ | ⟨rest, -, rfl⟩ | ⟨n, v, rest, -, rfl⟩
  · have hr := (hostReady_iff.mp hready).1
    exact ⟨panelInv_hostEffect (turn hu).1 hr.idle, hostEffect_pc_le hr (turn hu).2⟩
  · obtain ⟨hpu, hpcu⟩ := turn hu
    exact ⟨⟨hpu.index, hpu.armed, hpu.fresh⟩, hpcu⟩
  · exact ⟨⟨fun _ => rfl, fun h => Bool.noConfusion h, fun _ _ => rfl⟩, Nat.zero_le _⟩
  · exact ⟨⟨hp.index, hp.armed, hp.fresh⟩, hpc⟩

/-- Settles O51: the moves of the SPI side keep the framer's clauses, and each operation the sequencer's. -/
theorem hostInvariantKept : Obligations.HostInvariantKept := by
  unfold Obligations.HostInvariantKept
  intro s s' hs h
  obtain ⟨hpanel, hpc⟩ := panelInv_pc_step hs.panel hs.stream h
  exact .of_parts (framerInv_keptBySpi.step hs.framer h) hpanel hpc

end Sys2Proof.Machine
end

section
/-! The sequencer's operations (41_sequencer_ops.md R110, R111, R117, R119 to R121): `DELAY`, `INIT` with every transfer
`Done` and with one that breaks, `ON` and `OFF` after it. -/

namespace Sys2Proof.Machine

/-! ### DELAY, ON and OFF -/

/-- Settles O14: where the host runs, `DELAY` is its entry in `txn` and one word further. -/
theorem delayCompletes : Obligations.DelayCompletes := by
  unfold Obligations.DelayCompletes
  exact fun ms _ hr => exec_of_runs (.delay ms) hr

/-- Settles O18: after `INIT`, `ON` is one command transaction. -/
theorem onCompletes : Obligations.OnCompletes := by
  unfold Obligations.OnCompletes
  exact fun _ hr hf hi ha => (SendsOne.on hi).exec_sampled hr hf ha

/-- Settles O19: after `INIT`, `OFF` is one command transaction. -/
theorem offCompletes : Obligations.OffCompletes := by
  unfold Obligations.OffCompletes
  exact fun _ hr hf hi ha => (SendsOne.off hi).exec_sampled hr hf ha

/-! ### INIT with every transfer `Done` -/

/-- `INIT` with every transfer `Done` sends the whole program (R111) and leaves the panel armed (R120). -/
theorem exec_init_sent {s : State} (hr : HostRuns s) (hf : FramerIdle s.fr) (hi : s.sq.inited = false)
    (hd : s.env.allDone (wireTxns (programTxns s.par.raw)).length) :
    ∃ t, exec .init s = .next t ∧ SentFrom s t (programTxns s.par.raw) ∧
      t.sq = { s.sq with pc := s.sq.pc + 1, idx := 0, inited := true } ∧ t.gh = .gramWriteArmed := by
  obtain ⟨u, hrun, hsent, hsq, hgh⟩ :=
    runProgram_sent s.par.raw.program { s with sq := { s.sq with idx := 0 } } hf hd
  refine ⟨(endInit u).advance 1, ?_, hsent.of_sq_gh s.sq _ s.gh u.gh, ?_, ?_⟩
  · rw [exec_of_runs .init hr, effect_init hi, hrun, Progress.finish]
  · simp [hsq]
  · exact hgh.trans (panel_after_program s.par s.gh)

/-- Settles O15: the statement is the rule of `INIT` itself. -/
theorem initCompletes : Obligations.InitCompletes := by
  unfold Obligations.InitCompletes
  exact fun _ hr hf hi hd => exec_init_sent hr hf hi hd

/-- Settles O24: `INIT` leaves a state in which `ON` sends its one command, and `ON` one in which `OFF` does. -/
theorem initOnOffScenario : Obligations.InitOnOffScenario := by
  unfold Obligations.InitOnOffScenario
  intro s hr hf hi hd
  obtain ⟨t, hinit, hst, hsq, -⟩ := exec_init_sent hr hf hi ((Env.allDone_add _ _ _).mp hd).1
  have hft : FramerIdle t.fr := hst.idle hf
  have hdt : t.env.allDone 2 := hst.allDone hd
  have hrt : HostRuns t := ⟨by rw [hsq]; exact hr.noFault, hft.phase⟩
  have hit : t.sq.inited = true := by rw [hsq]
  obtain ⟨u, hon, htu, hru, hsqu, -⟩ := (SendsOne.on hit).exec_sent hrt hft hdt.1
  have hiu : u.sq.inited = true := by rw [hsqu]; exact hit
  have hdu : u.env.allDone 1 := htu.allDone hdt
  obtain ⟨v, hoff, huv, -⟩ := (SendsOne.off hiu).exec_sent hru (htu.idle hft) hdu.1
  refine ⟨t, u, v, hinit, hon, hoff, ?_⟩
  rw [((hst.trans htu).trans huv).txn, htu.par, hst.par]
  simp

/-! ### INIT with a transfer that breaks (R121) -/

/-- Before transfer number `j` stand `j` transfers. -/
theorem length_wireTxns_beforeTransfer (l : List TxnEntry) (j : Nat) (h : j ≤ (wireTxns l).length) :
    (wireTxns (beforeTransfer j l)).length = j := by
  induction l generalizing j with
  | nil => exact (Nat.le_zero.mp h).symm
  | cons e l ih =>
    cases e with
    | settle ms => rw [beforeTransfer]; exact ih j h
    | txn k b =>
      cases j with
      | zero => rfl
      | succ j => exact congrArg (· + 1) (ih j (Nat.le_of_succ_le_succ h))

/-- Settles O17: the run of the program stops inside transfer `j`, and `INIT` adds nothing to a run that stopped. -/
theorem initStopsAtABrokenTransfer : Obligations.InitStopsAtABrokenTransfer := by
  unfold Obligations.InitStopsAtABrokenTransfer
  intro s j k b e hr hf hi hg hd ha hj he
  obtain ⟨u, rx, hsent, hrx, hstop⟩ :=
    runProgram_stoppedAt s.par.raw.program { s with sq := { s.sq with idx := 0 } } j k b hf hd ha hj
  have hlen : (wireTxns (beforeTransfer j (programTxns s.par.raw))).length = j :=
    length_wireTxns_beforeTransfer _ j (Nat.le_of_lt (List.getElem?_eq_some_iff.mp hj).1)
  have hanswer : u.env.nextAnswer = (s.env.afterAnswers j).nextAnswer := by
    have := hsent.afterAnswers 0
    rwa [Nat.add_zero, ← programTxns, hlen] at this
  have hpanel : panelUpTo s.gh s.par.raw.program (entryOfTransfer s.par.raw j s.par.raw.program) =
      panelAfter (e.stage - 1) := by
    rw [hg]; exact panel_before_entry s.par _ e he
  refine ⟨u, rx, hsent.of_sq_gh s.sq u.sq s.gh u.gh, ?_, ?_⟩
  · rw [hanswer]; exact hrx
  · rw [exec_of_runs .init hr, effect_init hi, hstop, Progress.finish, hanswer, hpanel, Nat.zero_add]

end Sys2Proof.Machine
end

section
/-! What every admissible initialization program sends (41_sequencer_ops.md R112 to R116, R123): its two end entries,
the addressing window, and the twelve stages in order with their settle periods. -/

namespace Sys2Proof.Machine

/-! ### The two ends of the program (R114) -/

/-- The program begins with the unlock of stage 1 and ends with the GRAM select of stage 12, so it has both. -/
theorem program_ends (p : Params) :
    ∃ mid, p.raw.program = ⟨1, .reg 0xCA unlockBytes⟩ :: mid ++ [⟨12, .reg 0x2C []⟩] := by
  obtain ⟨front, hfront⟩ := program_ends_twelve p
  have hfirst := (paramFacts p).program.first
  rw [hfront] at hfirst ⊢
  cases front with
  | nil => simp at hfirst
  | cons e mid => exact ⟨mid, by rw [Option.some.inj hfirst]⟩

theorem programTxns_unlockFirstGramLast (p : Params) : UnlockFirstGramLast (programTxns p.raw) := by
  obtain ⟨mid, hmid⟩ := program_ends p
  refine ⟨mid.flatMap (entryTxns p.raw), ?_⟩
  rw [programTxns, hmid, List.flatMap_append, List.flatMap_cons]
  rfl

/-- Settles O21: the program has both end entries, whatever stands between them. -/
theorem initFirstAndLastEntries : Obligations.InitFirstAndLastEntries := by
  unfold Obligations.InitFirstAndLastEntries
  exact programTxns_unlockFirstGramLast

/-- Settles O58: what `INIT` appends depends on the parameters alone. -/
theorem initSequenceIsReproducible : Obligations.InitSequenceIsReproducible := by
  unfold Obligations.InitSequenceIsReproducible
  intro s u hrs hfs his hds hru hfu hiu hdu hpar
  obtain ⟨t, ht, hst, -⟩ := exec_init_sent hrs hfs his hds
  obtain ⟨v, hv, huv, -⟩ := exec_init_sent hru hfu hiu hdu
  exact ⟨programTxns s.par.raw, t, v, ht, hv, hst.txn, by rw [hpar]; exact huv.txn,
    programTxns_unlockFirstGramLast s.par⟩

/-! ### The entries that select a listed register (R112, R113) -/

theorem stage_of_mem_stageEntries {l : List RomEntry} {k : Nat} {e : RomEntry} (h : e ∈ stageEntries l k) :
    e.stage = k := beq_iff_eq.mp (List.mem_filter.mp h).2

/-- The entries of a stage from what they do: their tag is the stage's number. -/
theorem stageEntries_eq_map (l : List RomEntry) (k : Nat) : stageEntries l k = (stageOps l k).map (RomEntry.mk k) := by
  have hself : ∀ e ∈ stageEntries l k, e = RomEntry.mk k e.op := fun e he => by
    rw [← stage_of_mem_stageEntries he]
  rw [stageOps, List.map_map]
  exact (List.map_id _).symm.trans (List.map_congr_left hself)

/-- The entries of stage `k` that select a listed register are among those that are not extra. -/
theorem filter_selectsReg_stageEntries {t : Selectors} {s : Sel} (hs : s ∈ listedSels) (l : List RomEntry) (k : Nat) :
    (stageEntries l k).filter (selectsReg (t.byte s)) =
      ((listedOps t k (stageOps l k)).map (RomEntry.mk k)).filter (selectsReg (t.byte s)) := by
  have hextra : ∀ op, selectsReg (t.byte s) ⟨k, op⟩ = true → isExtra t k op = false := by
    intro op h
    cases op with
    | settle w => rfl
    | reg sel payload =>
      obtain rfl := beq_iff_eq.mp h
      exact isExtra_listed hs k payload
  rw [stageEntries_eq_map, listedOps, List.filter_map, List.filter_map, List.filter_filter]
  refine congrArg _ (List.filter_congr fun op _ => ?_)
  cases h : selectsReg (t.byte s) ⟨k, op⟩ with
  | false => simp [h]
  | true => simp [h, hextra op h]

/-- A stage whose row of R113's table does not name a listed register holds no write of it. -/
theorem filter_selectsReg_stageEntries_eq_nil (p : Params) {s : Sel} (hs : s ∈ listedSels) {k : Nat} (h1 : 1 ≤ k)
    (h12 : k < 13) (hk : s ∉ stageSels k) :
    (stageEntries p.raw.program k).filter (selectsReg (p.raw.sel.byte s)) = [] := by
  rw [filter_selectsReg_stageEntries hs, List.filter_eq_nil_iff]
  intro e he hsel
  obtain ⟨op, hop, rfl⟩ := List.mem_map.mp he
  cases op with
  | settle w => cases hsel
  | reg sel payload =>
    obtain rfl := beq_iff_eq.mp hsel
    obtain ⟨s', hs', heq⟩ := List.mem_map.mp (((paramFacts p).program.listed k h1 h12).mem_iff.mp (mem_regSels hop))
    exact hk (selector_inj p heq ▸ hs')

/-- A register that stage 6 alone lists is written where stage 6 writes it. -/
theorem filter_selectsReg_program_of_six (p : Params) {s : Sel} (hs : s ∈ listedSels)
    (honly : ∀ k ∈ List.range' 1 12, k ≠ 6 → s ∉ stageSels k) :
    p.raw.program.filter (selectsReg (p.raw.sel.byte s)) =
      [(⟨6, .reg p.raw.sel.columnAddr (windowBytes Config.panelW)⟩ : RomEntry),
        ⟨6, .reg p.raw.sel.pageAddr (windowBytes Config.panelH)⟩].filter (selectsReg (p.raw.sel.byte s)) := by
  have hnil : ∀ k ∈ List.range' 1 12, k ≠ 6 →
      (stageEntries p.raw.program k).filter (selectsReg (p.raw.sel.byte s)) = [] := fun k hk h6 =>
    have hb := List.mem_range'_1.mp hk
    filter_selectsReg_stageEntries_eq_nil p hs hb.1 hb.2 (honly k hk h6)
  have hsix : (stageEntries p.raw.program 6).filter (selectsReg (p.raw.sel.byte s)) = _ :=
    (filter_selectsReg_stageEntries hs _ 6).trans (by rw [(paramFacts p).program.six])
  conv => lhs; rw [program_stages p]
  simp (disch := decide) [List.range'_succ, hnil, hsix]

/-- Settles O22: the two window registers are written in stage 6 and nowhere else. -/
theorem initWindowIsThePanel : Obligations.InitWindowIsThePanel := by
  unfold Obligations.InitWindowIsThePanel
  intro p
  have hne : p.raw.sel.columnAddr ≠ p.raw.sel.pageAddr := fun h =>
    Sel.noConfusion (selector_inj p (a := .columnAddr) (b := .pageAddr) h)
  have hwidth : windowBytes Config.panelW = [0x00, 0x00, 0x00, 0xEF] := by decide
  have hheight : windowBytes Config.panelH = [0x00, 0x00, 0x01, 0x3F] := by decide
  refine ⟨?_, ?_, ?_, ?_⟩
  · rw [(paramFacts p).program.first]; rfl
  · rw [(paramFacts p).program.last]; rfl
  · refine (filter_selectsReg_program_of_six p (s := .columnAddr) (by decide) (by decide)).trans ?_
    simp [selectsReg, Selectors.byte, hne.symm, hwidth]
  · refine (filter_selectsReg_program_of_six p (s := .pageAddr) (by decide) (by decide)).trans ?_
    simp [selectsReg, Selectors.byte, hne, hheight]

/-! ### Stages 8 to 12: fixed pieces with writes of other registers around them (R113, R115, R116) -/

/-- Writes of registers that R113's table does not name. -/
def OtherWrites (t : Selectors) (l : List TxnEntry) : Prop :=
  ∃ regs, l = registerTxns regs ∧ ∀ e ∈ regs, OtherRegister t e.1

/-- The pieces `ms` in order, with writes of other registers before, between and after them. -/
def WithOthers (t : Selectors) : List (List TxnEntry) → List TxnEntry → Prop
  | [], l => OtherWrites t l
  | m :: ms, l => ∃ a rest, l = a ++ m ++ rest ∧ OtherWrites t a ∧ WithOthers t ms rest

theorem OtherWrites.nil (t : Selectors) : OtherWrites t [] := ⟨[], rfl, fun _ h => absurd h List.not_mem_nil⟩

theorem OtherWrites.append {t : Selectors} {a b : List TxnEntry} (ha : OtherWrites t a) (hb : OtherWrites t b) :
    OtherWrites t (a ++ b) := by
  obtain ⟨x, rfl, hx⟩ := ha
  obtain ⟨y, rfl, hy⟩ := hb
  exact ⟨x ++ y, List.flatMap_append.symm, List.forall_mem_append.mpr ⟨hx, hy⟩⟩

/-- From stage 8 on an extra entry is no write of `SEL_PIXEL_FORMAT` either. -/
theorem Extras.otherWrites {r : RawParams} {k : Nat} {ops : List InitOp} (h : Extras r.sel k ops) (h8 : 8 ≤ k) :
    OtherWrites r.sel (ops.flatMap (opTxns r)) := by
  obtain ⟨regs, rfl, hregs⟩ := h.registers
  refine ⟨regs, List.flatMap_map .., fun e he => ?_⟩
  obtain ⟨hlisted, hreset, hformat⟩ := hregs e he
  exact ⟨hlisted, hreset, fun heq => Nat.not_lt.mpr h8 (hformat heq)⟩

theorem WithOthers.append {t : Selectors} {ms ns : List (List TxnEntry)} {l l' : List TxnEntry}
    (h : WithOthers t ms l) (h' : WithOthers t ns l') : WithOthers t (ms ++ ns) (l ++ l') := by
  induction ms generalizing l with
  | nil =>
    cases ns with
    | nil => exact OtherWrites.append h h'
    | cons n ns =>
      obtain ⟨a, rest, rfl, ha, hrest⟩ := h'
      exact ⟨l ++ a, rest, by simp only [List.append_assoc], OtherWrites.append h ha, hrest⟩
  | cons m ms ih =>
    obtain ⟨a, rest, rfl, ha, hrest⟩ := h
    exact ⟨a, rest ++ l', by simp only [List.append_assoc], ha, ih hrest⟩

/-- A stage from 8 on sends its listed entries, each a piece of its own. -/
theorem withOthers_listedOps (r : RawParams) {k : Nat} (h8 : 8 ≤ k) (ops : List InitOp) :
    WithOthers r.sel ((listedOps r.sel k ops).map (opTxns r)) (ops.flatMap (opTxns r)) := by
  induction ops with
  | nil => exact OtherWrites.nil r.sel
  | cons op ops ih =>
    rw [List.flatMap_cons, listedOps, List.filter_cons]
    by_cases hop : isExtra r.sel k op = true
    · have hone : Extras r.sel k [op] := fun _ hx => List.mem_singleton.mp hx ▸ hop
      have hwrite : OtherWrites r.sel (opTxns r op) := by simpa using hone.otherWrites (r := r) h8
      rw [if_neg (by simp [hop])]
      exact WithOthers.append (ms := []) hwrite ih
    · rw [if_pos (by simpa using hop)]
      exact ⟨[], _, rfl, OtherWrites.nil r.sel, ih⟩

/-- Entries that stand together between extra ones are one piece. -/
theorem Padded.withOthers {r : RawParams} {k : Nat} {mid ops : List InitOp} (h : Padded r.sel k mid ops)
    (h8 : 8 ≤ k) : WithOthers r.sel [mid.flatMap (opTxns r)] (ops.flatMap (opTxns r)) := by
  obtain ⟨pre, post, rfl, hpre, hpost⟩ := h
  exact ⟨_, _, by simp only [List.flatMap_append], hpre.otherWrites h8, hpost.otherWrites h8⟩

/-- Stages 8 to 12: five stages' fixed pieces, the last of them the GRAM select with nothing after it. -/
theorem lateStages_withOthers (p : Params) :
    ∃ g pos neg : List Byte, pos.length = 15 ∧ neg.length = p.raw.ngammaLen ∧
      ∃ l, (List.range' 8 5).flatMap (stageTxns p.raw) = l ++ [.txn .cmd 0x2C] ∧
        WithOthers p.raw.sel [[.txn .cmd 0x2C, .settle p.raw.settle1],
          .txn .cmd p.raw.sel.gamma :: g.map (.txn .dat), .txn .cmd p.raw.sel.pgamma :: pos.map (.txn .dat),
          .txn .cmd p.raw.sel.ngamma :: neg.map (.txn .dat), [.txn .cmd p.raw.sel.sleepOut, .settle p.raw.settle2],
          [.txn .cmd p.raw.sel.displayOn]] l := by
  have F := (paramFacts p).program
  obtain ⟨g, pos, neg, hnine, hpos, hneg⟩ := F.nine
  obtain ⟨pre, htwelve, hpre⟩ := stage_twelve p
  have h8 := Padded.withOthers (r := p.raw) F.eight (by decide)
  have h9 := withOthers_listedOps p.raw (k := 9) (by decide) (stageOps p.raw.program 9)
  have h10 := Padded.withOthers (r := p.raw) F.ten (by decide)
  have h11 := withOthers_listedOps p.raw (k := 11) (by decide) (stageOps p.raw.program 11)
  have h12 : WithOthers p.raw.sel [] (pre.flatMap (opTxns p.raw)) := hpre.otherWrites (by decide)
  rw [hnine] at h9
  rw [F.eleven] at h11
  refine ⟨g, pos, neg, hpos, hneg, _, ?_, (((h8.append h9).append h10).append h11).append h12⟩
  simp [List.range'_succ, stageTxns, htwelve, opTxns]

/-! ### The twelve stages (R113) -/

/-- Stage 1 begins with the unlock. -/
theorem head?_stage_one (p : Params) :
    (stageEntries p.raw.program 1).head? = some ⟨1, .reg 0xCA unlockBytes⟩ := by
  obtain ⟨mid, hmid⟩ := program_ends p
  rw [hmid]
  rfl

/-- The registers a stage sends of those R113's table names are those of its own row. -/
theorem sentRegisters_perm (p : Params) (k : Nat) (h1 : 1 ≤ k) (h12 : k < 13) :
    (sentRegisters p.raw (stageEntries p.raw.program k)).Perm ((stageSels k).map p.raw.sel.byte) :=
  sentRegisters_stage p k h1 h12 ▸ (paramFacts p).program.listed k h1 h12

/-- What stages 1 to 7 send holds no settle period (R116). -/
theorem setup_no_settle (p : Params) (ms : Nat) :
    TxnEntry.settle ms ∉ (List.range' 1 7).flatMap (stageTxns p.raw) := by
  intro h
  obtain ⟨k, hk, hms⟩ := List.mem_flatMap.mp h
  have hb := List.mem_range'_1.mp hk
  exact no_settle_of_allRegs p.raw _ (setup_allRegs p k hb.1 (by omega)) ms hms

theorem stageEntries_flatMap_entryTxns (r : RawParams) (ks : List Nat) :
    (ks.flatMap (stageEntries r.program)).flatMap (entryTxns r) = ks.flatMap (stageTxns r) := by
  rw [List.flatMap_assoc]
  exact List.flatMap_congr fun k _ => stageTxns_eq r k

/-- What the `k`-th of some lists holds, one of them holds. -/
theorem mem_getD_nil {α : Type} {xs : List (List α)} {k : Nat} {a : α} (h : a ∈ xs.getD k []) : ∃ x ∈ xs, a ∈ x := by
  by_cases hk : k < xs.length
  · rw [List.getD_eq_getElem _ _ hk] at h
    exact ⟨xs[k], List.getElem_mem hk, h⟩
  · rw [List.getD_eq_default _ _ (Nat.le_of_not_lt hk)] at h
    exact absurd h List.not_mem_nil

/-- Settles O23: the parts are the program's entries by stage; the gaps of `lateStages_withOthers` are `x 0` to `x 6`. -/
theorem initStagesInOrder : Obligations.InitStagesInOrder := by
  unfold Obligations.InitStagesInOrder
  intro p
  have F := paramFacts p
  have hsent := sentRegisters_perm p
  obtain ⟨g, pos, neg, hpos, hneg, l, hlate, hl⟩ := lateStages_withOthers p
  obtain ⟨_, _, rfl, ⟨x0, rfl, h0⟩, _, _, rfl, ⟨x1, rfl, h1⟩, _, _, rfl, ⟨x2, rfl, h2⟩, _, _, rfl, ⟨x3, rfl, h3⟩,
    _, _, rfl, ⟨x4, rfl, h4⟩, _, _, rfl, ⟨x5, rfl, h5⟩, x6, rfl, h6⟩ := hl
  refine ⟨stageEntries p.raw.program, g, pos, neg, ([x0, x1, x2, x3, x4, x5, x6].getD · []), program_stages p,
    fun k e he => stage_of_mem_stageEntries he, by rw [head?_stage_one p]; rfl, hsent 1 (by decide) (by decide),
    hsent 2 (by decide) (by decide), hsent 3 (by decide) (by decide), hsent 4 (by decide) (by decide),
    hsent 5 (by decide) (by decide), ?_, ?_, ?_, ?_, ?_, hpos, hneg, F.settle1, F.settle2⟩
  · exact (sentRegisters_stage p 6 (by decide) (by decide)).trans (by rw [F.program.six]; rfl)
  · exact (sentRegisters_stage p 7 (by decide) (by decide)).trans F.program.seven.2
  · rw [stageEntries_flatMap_entryTxns, programTxns_stages, ← List.range'_append_1 (s := 1) (m := 7) (n := 5),
      List.flatMap_append, hlate]
    simp
  · have hgaps : ∀ x ∈ [x0, x1, x2, x3, x4, x5, x6], ∀ e ∈ x, OtherRegister p.raw.sel e.1 := by
      simp only [List.forall_mem_cons]
      exact ⟨h0, h1, h2, h3, h4, h5, h6, fun _ h => absurd h List.not_mem_nil⟩
    intro k e he
    obtain ⟨x, hx, hex⟩ := mem_getD_nil he
    exact hgaps x hx e hex
  · rw [stageEntries_flatMap_entryTxns]; exact setup_no_settle p

end Sys2Proof.Machine
end

section
/-! The timing generator's operations (42_timing_generator.md R141 to R145): the checks of `TGCFG` and `TGBIND` as
conditions on their operands, the registers an accepted operation fills, and what the three leave alone. -/

namespace Sys2Proof.Machine

/-! ### Taking a fault -/

/-- A fault in the terms the statements use (60_exceptions.md R193). -/
theorem raise_eq_faultedSq (f : HwFault) (info : Nat) (s : State) :
    s.raise f (BitVec.ofNat 32 info) = { s with sq := faultedSq s.sq f.code.toNat info } := by
  cases f <;> rfl

/-! ### TGCFG: the checks of R142 -/

/-- The first count that does not fit is the one reported. -/
theorem firstTooLarge_of_first {l : List Nat} {j n : Nat} (k : Nat) (hj : l[j]? = some n) (hn : 65535 < n)
    (hfit : ∀ i < j, ∀ m, l[i]? = some m → m ≤ 65535) : firstTooLarge k l = some (k + j) := by
  induction l generalizing j k with
  | nil => simp at hj
  | cons a l ih =>
    cases j with
    | zero =>
      obtain rfl : a = n := by simpa using hj
      exact if_neg (Nat.not_lt.mpr hn)
    | succ j =>
      have ha : a < Config.countBound := Nat.lt_succ_of_le (hfit 0 (Nat.succ_pos j) a rfl)
      have hrest : firstTooLarge (k + 1) l = some (k + 1 + j) :=
        ih (k + 1) hj fun i hi m hm => hfit (i + 1) (Nat.succ_lt_succ hi) m hm
      rw [firstTooLarge, if_pos ha, hrest, Nat.add_assoc, Nat.add_comm 1]

theorem firstTooLarge_of_fits {l : List Nat} (k : Nat) (h : ∀ n ∈ l, n ≤ 65535) : firstTooLarge k l = none := by
  induction l generalizing k with
  | nil => rfl
  | cons a l ih =>
    have ha : a < Config.countBound := Nat.lt_succ_of_le (h a List.mem_cons_self)
    rw [firstTooLarge, if_pos ha]
    exact ih (k + 1) fun n hn => h n (List.mem_cons_of_mem a hn)

/-- Where every count fits, the checks left are those for zero. -/
theorem timingError_of_fits {p : TimingParams} (h : ∀ n ∈ p.counts, n ≤ 65535) :
    timingError p = if p.hs = 0 then some 8 else if p.aw = 0 then some 11 else if p.vs = 0 then some 12
      else if p.ah = 0 then some 15 else none := by
  rw [timingError, firstTooLarge_of_fits 8 h]

theorem timingError_of_tooLarge {p : TimingParams} {k : Nat} (h : firstTooLarge 8 p.counts = some k) :
    timingError p = some k := by
  rw [timingError, h]

theorem timingError_of_accepted {p : TimingParams} (h : CountsAccepted p) : timingError p = none := by
  obtain ⟨hfit, hhs, haw, hvs, hah⟩ := h
  rw [timingError_of_fits hfit, if_neg (by omega), if_neg (by omega), if_neg (by omega), if_neg (by omega)]

theorem exec_tgcfg_of_timingError {p : TimingParams} {s : State} {k : Nat} (bg : Colour) (hr : HostRuns s)
    (hc : s.tg.conf.configured = false) (he : timingError p = some k) :
    exec (.tgcfg p bg) s = .next { s with sq := faultedSq s.sq 8 k } := by
  have heff : effect (.tgcfg p bg) s = s.raise .tgBadParam (BitVec.ofNat 32 k) := by simp [effect, hc, he]
  rw [exec_of_runs _ hr, heff, raise_eq_faultedSq]
  rfl

/-- Settles O28: the fault is that of `timingError`, which finds the first count too large, else the first zero. -/
theorem tgcfgRejections : Obligations.TgcfgRejections := by
  unfold Obligations.TgcfgRejections
  intro p bg s hr
  refine ⟨fun hc => ?_, fun hc => ?_⟩
  · rw [exec_of_runs _ hr, effect_tgcfg_of_configured hc]
    rfl
  have fault : ∀ {k}, timingError p = some k → _ := exec_tgcfg_of_timingError bg hr hc
  refine ⟨fun j n hj hn hfirst => fault (timingError_of_tooLarge (firstTooLarge_of_first 8 hj hn hfirst)),
    fun hfit => ⟨fun hhs => fault ?_, fun hhs haw => fault ?_, fun hhs haw hvs => fault ?_,
      fun hhs haw hvs hah => fault ?_⟩⟩
  · rw [timingError_of_fits hfit, if_pos hhs]
  · rw [timingError_of_fits hfit, if_neg hhs, if_pos haw]
  · rw [timingError_of_fits hfit, if_neg hhs, if_neg haw, if_pos hvs]
  · rw [timingError_of_fits hfit, if_neg hhs, if_neg haw, if_neg hvs, if_pos hah]

/-! ### TGCFG: the registers it fills (R141) -/

/-- The eight count registers in the order of their indices (10_state.md R21). -/
def TgConf.countRegisters (c : TgConf) : List Nat :=
  [c.hs.toNat, c.hbp.toNat, c.hfp.toNat, c.aw.toNat, c.vs.toNat, c.vbp.toNat, c.vfp.toNat, c.ah.toNat]

theorem withTiming_countRegisters (c : TgConf) {p : TimingParams} (bg : Colour) (h : ∀ n ∈ p.counts, n < 65536) :
    (c.withTiming p bg).countRegisters = p.counts := by
  have fits : ∀ n ∈ p.counts, (BitVec.ofNat 16 n).toNat = n := fun n hn => by
    rw [BitVec.toNat_ofNat, Nat.mod_eq_of_lt (h n hn)]
  calc (c.withTiming p bg).countRegisters
      _ = p.counts.map (fun n => (BitVec.ofNat 16 n).toNat) := rfl
      _ = p.counts.map id := List.map_congr_left fits
      _ = p.counts := List.map_id _

/-- Indices 8 to 15 name the count registers. -/
theorem register_count {s : State} : ∀ {j n : Nat}, s.tg.conf.countRegisters[j]? = some n →
    s.register (8 + j) = some n
  | 0, _, h | 1, _, h | 2, _, h | 3, _, h | 4, _, h | 5, _, h | 6, _, h | 7, _, h => h
  | _ + 8, _, h => by simp [TgConf.countRegisters] at h

theorem exec_tgcfg_accepted {p : TimingParams} {s : State} (bg : Colour) (hr : HostRuns s)
    (hc : s.tg.conf.configured = false) (he : timingError p = none) :
    exec (.tgcfg p bg) s = .next ((configure p bg s).advance 11) := by
  rw [exec_of_runs _ hr]
  simp [effect, hc, he]

/-- Settles O27: an accepted `TGCFG` is `configure`, and a count that fits is stored exactly. -/
theorem tgcfgCompletes : Obligations.TgcfgCompletes := by
  unfold Obligations.TgcfgCompletes
  intro p bg s hr hc hacc
  have hcounts : (s.tg.conf.withTiming p bg).countRegisters = p.counts :=
    withTiming_countRegisters _ bg fun n hn => Nat.lt_succ_of_le (hacc.1 n hn)
  exact ⟨_, _, exec_tgcfg_accepted bg hr hc (timingError_of_accepted hacc), rfl, rfl, hcounts,
    fun j n hj => register_count (hcounts ▸ hj), rfl, rfl, rfl, rfl, rfl, rfl⟩

/-! ### TGBIND: the checks of R144 -/

/-- The alpha of a layer's colour as a number. -/
theorem alpha_eq_iff (v : BitVec 32) (a : BitVec 8) : v.extractLsb' 24 8 = a ↔ v.toNat / 2 ^ 24 = a.toNat := by
  have hv : v.toNat < 2 ^ 32 := v.isLt
  rw [← BitVec.toNat_inj, toNat_extract, Nat.mod_eq_of_lt (by omega)]

theorem lowBit_iff (v : BitVec 32) : v.getLsbD 0 = true ↔ v.toNat % 2 = 1 := by
  rw [BitVec.getLsbD, Nat.testBit_zero, decide_eq_true_iff]

/-- Checks 3 to 10 over the operand's fields as numbers; the last two report the same field. -/
theorem descriptorError_eq (c : TgConf) (d : LayerDesc) :
    descriptorError c d =
      if d.pf ≠ 2 then some 5
      else if d.w = 0 then some 3
      else if d.h = 0 then some 4
      else if c.aw.toNat < d.x.toNat + d.w.toNat then some 1
      else if c.ah.toNat < d.y.toNat + d.h.toNat then some 2
      else if ¬ (d.dcol.toNat / 2 ^ 24 = 0x00 ∨ d.dcol.toNat / 2 ^ 24 = 0xFF) then some 6
      else if d.fbaddr.toNat % 2 = 1 ∨ 2 ^ 32 < d.fbaddr.toNat + 2 * d.w.toNat * d.h.toNat then some 7
      else none := by
  have zero : ∀ v : Word, v.toNat = 0 ↔ v = 0 := fun v => by rw [← BitVec.toNat_inj]; rfl
  have merge : ∀ (a b : Prop) [Decidable a] [Decidable b],
      (if a then some 7 else if b then some 7 else none) = if a ∨ b then some 7 else none := by
    intro a b _ _
    by_cases ha : a <;> simp [ha]
  simp only [descriptorError, merge, zero, alpha_eq_iff, lowBit_iff, Nat.not_le]
  rfl

theorem descriptorError_of_fits {c : TgConf} {d : LayerDesc} (h : LayerFits c (slotOf d)) :
    descriptorError c d = none := by
  obtain ⟨hpf, hw, hh, hx, hy, halpha, heven, hregion⟩ := h
  simp only [slotOf, Config.pfRgb565, Config.fbBytes, alpha_eq_iff] at hpf hw hh hx hy halpha heven hregion
  have hw0 : d.w ≠ 0 := fun h0 => by simp [h0] at hw
  have hh0 : d.h ≠ 0 := fun h0 => by simp [h0] at hh
  have halpha : d.dcol.toNat / 2 ^ 24 = 0x00 ∨ d.dcol.toNat / 2 ^ 24 = 0xFF := halpha
  rw [descriptorError_eq, if_neg (not_not.mpr hpf), if_neg hw0, if_neg hh0, if_neg (by omega), if_neg (by omega),
    if_neg (not_not.mpr halpha), if_neg (by omega)]

theorem boundSlot_eq_none {c : TgConf} (h0 : c.layer0.bound = false) (h1 : c.layer1.bound = false) :
    c.boundSlot = none := by
  simp [TgConf.boundSlot, h0, h1]

/-- With a valid slot index and no slot bound, what is left are the checks of the descriptor. -/
theorem bindError_of_unbound {c : TgConf} {i : BitVec 4} (d : LayerDesc) (hi : i.toNat < 2)
    (h0 : c.layer0.bound = false) (h1 : c.layer1.bound = false) :
    bindError c i d = (descriptorError c d).map fun k => (.tgBadParam, layerIndex i.toNat k) := by
  rw [bindError, if_neg (fun hn => hn hi), boundSlot_eq_none h0 h1]
  cases descriptorError c d <;> rfl

theorem bindError_of_bound {c : TgConf} {i : BitVec 4} {j : Nat} (d : LayerDesc) (hi : i.toNat < 2)
    (h : c.boundSlot = some j) : bindError c i d = some (.tgLayerBusy, j) := by
  rw [bindError, if_neg (fun hn => hn hi), h]

theorem exec_tgbind_of_bindError {i : BitVec 4} {d : LayerDesc} {s : State} {f : HwFault} {k : Nat}
    (hr : HostRuns s) (hc : s.tg.conf.configured = true) (he : bindError s.tg.conf i d = some (f, k)) :
    exec (.tgbind i d) s = .next { s with sq := faultedSq s.sq f.code.toNat k } := by
  have heff : effect (.tgbind i d) s = s.raise f (BitVec.ofNat 32 k) := by simp [effect, hc, he]
  rw [exec_of_runs _ hr, heff, raise_eq_faultedSq]

/-- Settles O30: the fault is that of `bindError`, whose checks stand in the order of R144. -/
theorem tgbindRejections : Obligations.TgbindRejections := by
  unfold Obligations.TgbindRejections
  intro i d s hr hc rejected k c
  have fault : ∀ {f k}, bindError c i d = some (f, k) → rejected f.code.toNat k := exec_tgbind_of_bindError hr hc
  refine ⟨fun hi => fault (if_pos (Nat.not_lt.mpr hi)), fun hi => ⟨fun h0 => ?_, fun h0 h1 => ?_, fun h0 h1 => ?_⟩⟩
  · exact fault (bindError_of_bound d hi (if_pos h0))
  · exact fault (bindError_of_bound d hi (by simp [TgConf.boundSlot, h0, h1]))
  have bad : ∀ {m}, descriptorError c d = some m → rejected 8 (k + m) := fun hm =>
    fault (f := .tgBadParam) (by rw [bindError_of_unbound d hi h0 h1, hm]; rfl)
  rw [descriptorError_eq] at bad
  refine ⟨fun hpf => bad (if_pos hpf), fun hpf => ?_, fun hpf hw => ?_, fun hpf hw hh => ?_⟩ <;>
    rw [if_neg (not_not.mpr hpf)] at bad
  · exact fun hw => bad (if_pos hw)
  · rw [if_neg hw] at bad
    exact fun hh => bad (if_pos hh)
  rw [if_neg hw, if_neg hh] at bad
  refine ⟨fun hx => bad (if_pos hx), fun hx => ?_⟩
  rw [if_neg (Nat.not_lt.mpr hx)] at bad
  refine ⟨fun hy => bad (if_pos hy), fun hy => ?_⟩
  rw [if_neg (Nat.not_lt.mpr hy)] at bad
  refine ⟨fun hne0 hneFF => bad (if_pos (not_or.mpr ⟨hne0, hneFF⟩)), fun halpha hregion => ?_⟩
  rw [if_neg (not_not.mpr halpha)] at bad
  exact bad (if_pos hregion)

/-! ### TGBIND: the slot it fills (R143) -/

theorem exec_tgbind_accepted {i : BitVec 4} {d : LayerDesc} {s : State} (hr : HostRuns s)
    (hc : s.tg.conf.configured = true) (he : bindError s.tg.conf i d = none) :
    exec (.tgbind i d) s =
      .next ({ s with tg := { s.tg with conf := s.tg.conf.withLayer i (layerOf d) } }.advance 9) := by
  rw [exec_of_runs _ hr]
  simp [effect, hc, he]

/-- The fields of a bound slot in the order of their indices (10_state.md R24). -/
theorem field_layerOf {d : LayerDesc} : ∀ {k v : Nat},
    [1, d.x.toNat, d.y.toNat, d.w.toNat, d.h.toNat, d.pf.toNat, d.dcol.toNat, d.fbaddr.toNat][k]? = some v →
    (layerOf d).field k = some v
  | 0, _, h | 1, _, h | 2, _, h | 3, _, h | 4, _, h | 5, _, h | 6, _, h | 7, _, h => h
  | _ + 8, _, h => by simp at h

theorem Layer.field_lt {l : Layer} {k v : Nat} (h : l.field k = some v) : k < 8 := by
  by_contra hk
  obtain ⟨m, rfl⟩ := Nat.exists_eq_add_of_le' (Nat.not_lt.mp hk)
  simp [Layer.field] at h

theorem register_layer0 {s : State} {k v : Nat} (h : s.tg.conf.layer0.field k = some v) :
    s.register (32 + k) = some v := by
  have hk := Layer.field_lt h
  interval_cases k <;> exact h

theorem register_layer1 {s : State} {k v : Nat} (h : s.tg.conf.layer1.field k = some v) :
    s.register (40 + k) = some v := by
  have hk := Layer.field_lt h
  interval_cases k <;> exact h

/-- Settles O29: a descriptor that fits passes every check, and the slot it fills is the one named. -/
theorem tgbindCompletes : Obligations.TgbindCompletes := by
  unfold Obligations.TgbindCompletes
  intro i d s hr hc hi h0 h1 hfits
  have hnone : bindError s.tg.conf i d = none := by
    rw [bindError_of_unbound d hi h0 h1, descriptorError_of_fits hfits]
    rfl
  refine ⟨_, exec_tgbind_accepted hr hc hnone, rfl, fun k v hk => ?_⟩
  obtain ⟨rfl, -⟩ | ⟨rfl, -⟩ := withLayer_of_bindError_none hnone
  · exact register_layer0 (field_layerOf hk)
  · exact register_layer1 (field_layerOf hk)

/-! ### TGEN (R145) -/

theorem setEnable_of_same {e : Bool} {s : State} (h : s.tg.conf.en = e) : setEnable e s = s := by
  cases e <;> simp [setEnable, h]

theorem setEnable_true {s : State} (h : s.tg.conf.en = false) : setEnable true s = startScan s := by
  simp [setEnable, h]

theorem setEnable_false {s : State} (h : s.tg.conf.en = true) : setEnable false s = stopScan s := by
  simp [setEnable, h]

theorem exec_tgen_of_configured {s : State} (e : Bool) (hr : HostRuns s) (hc : s.tg.conf.configured = true) :
    exec (.tgen e) s = .next ((setEnable e s).advance 1) := by
  rw [exec_of_runs _ hr]
  exact congrArg Host.Outcome.next (if_pos hc)

/-- Settles O32: the scan starts, stops, or stays as it is. -/
theorem tgenCompletes : Obligations.TgenCompletes := by
  unfold Obligations.TgenCompletes
  intro s hr hc sq'
  have hexec := fun e => exec_tgen_of_configured e hr hc
  refine ⟨fun hoff => ⟨?_, ?_⟩, fun hon => ⟨?_, ?_⟩⟩
  · rw [hexec, setEnable_true hoff]; rfl
  · rw [hexec, setEnable_of_same hoff]; rfl
  · rw [hexec, setEnable_of_same hon]; rfl
  · rw [hexec, setEnable_false hon]; rfl

/-! ### What the three leave alone -/

/-- A timing generator's operation writes `TG`, `pc` and the fault registers at most. -/
theorem effect_timing_frame {i : Instr} (s : State)
    (hi : (∃ p bg, i = .tgcfg p bg) ∨ (∃ l d, i = .tgbind l d) ∨ (∃ e, i = .tgen e)) :
    ∃ g pc flt finfo, effect i s = { s with tg := g, sq := { s.sq with pc := pc, flt := flt, finfo := finfo } } := by
  have raised : ∀ {t}, Raised s t →
      ∃ g pc flt finfo, t = { s with tg := g, sq := { s.sq with pc := pc, flt := flt, finfo := finfo } } :=
    fun ⟨f, info, h⟩ => ⟨s.tg, s.sq.pc, f.code, info, h⟩
  rcases hi with ⟨p, bg, rfl⟩ | ⟨l, d, rfl⟩ | ⟨e, rfl⟩
  · rcases effect_tgcfg_cases p bg s with h | ⟨-, -, h⟩
    · exact raised h
    · exact ⟨_, _, _, _, h⟩
  · rcases effect_tgbind_cases l d s with h | ⟨-, -, h⟩
    · exact raised h
    · exact ⟨_, _, _, _, h⟩
  · rcases effect_tgen_cases e s with h | ⟨-, h⟩
    · exact raised h
    · rw [setEnable_tg] at h
      exact ⟨_, _, _, _, h⟩

/-- Settles O33: of what `effect_timing_frame` lets them write, nothing stands in the statement. -/
theorem timingGeneratorFrame : Obligations.TimingGeneratorFrame := by
  unfold Obligations.TimingGeneratorFrame
  intro s t i hi ht
  obtain ⟨g, pc, flt, finfo, h⟩ := effect_timing_frame s hi
  rw [(exec_next ht).2, h]
  exact ⟨rfl, rfl, rfl, rfl, rfl, fun _ => rfl, rfl, rfl, rfl⟩

end Sys2Proof.Machine
end

section
/-! The timing generator's invariant (42_timing_generator.md R142, R144, R145, R151; 10_state.md R24, R25): each
operation that writes `TG` keeps it, and so does every step. -/

namespace Sys2Proof.Machine

/-! ### The bound layer -/

theorem boundLayer_with_layer0 (c : TgConf) {l : Layer} (hl : l.bound = true) :
    TgConf.boundLayer { c with layer0 := l } = some l := if_pos hl

theorem boundLayer_with_layer1 {c : TgConf} {l : Layer} (h0 : c.layer0.bound = false) (hl : l.bound = true) :
    TgConf.boundLayer { c with layer1 := l } = some l := by
  simp [TgConf.boundLayer, h0, hl]

/-! ### The operations -/

/-- Before the first `TGCFG` nothing is enabled and no layer is bound. -/
theorem TgInv.of_unconfigured {g : TimingGen} (h : TgInv g) (hc : g.conf.configured = false) :
    g.conf.en = false ∧ g.conf.boundLayer = none := by
  have hne : g.conf.configured ≠ true := by simp [hc]
  exact ⟨Bool.eq_false_iff.mpr fun he => hne (h.enabled he), not_not.mp fun hb => hne (h.bound hb)⟩

/-- An accepted `TGCFG` (R141, R142). -/
theorem TgInv.configure {s : State} (h : TgInv s.tg) {p : TimingParams} (bg : Colour)
    (hc : s.tg.conf.configured = false) (he : timingError p = none) : TgInv (configure p bg s).tg := by
  obtain ⟨hoff, hnone⟩ := h.of_unconfigured hc
  obtain ⟨hfit, hhs, haw, hvs, hah⟩ := timingError_none p he
  have hcounts := withTiming_countRegisters s.tg.conf bg hfit
  simp only [TgConf.countRegisters, TimingParams.counts, List.cons.injEq] at hcounts
  obtain ⟨ehs, -, -, eaw, evs, -, -, eah, -⟩ := hcounts
  obtain ⟨hh, hv, -⟩ := h.stopped hoff
  have hnone' : (s.tg.conf.withTiming p bg).boundLayer = none := hnone
  exact {
    counts := fun _ => ⟨Nat.pos_of_ne_zero (ehs.trans_ne hhs), Nat.pos_of_ne_zero (eaw.trans_ne haw),
      Nat.pos_of_ne_zero (evs.trans_ne hvs), Nat.pos_of_ne_zero (eah.trans_ne hah)⟩
    enabled := fun _ => rfl
    bound := fun _ => rfl
    oneLayer := h.oneLayer
    layer := fun l hl => by rw [configure_tg, hnone'] at hl; cases hl
    position := fun hen => absurd (hoff.symm.trans hen) Bool.false_ne_true
    stopped := fun _ => ⟨hh, hv, rfl, rfl, rfl⟩ }

/-- Another configuration with the same registers outside the layer slots, one fitting layer bound at most. -/
theorem TgInv.rebind {g : TimingGen} (h : TgInv g) (hc : g.conf.configured = true) {l0 l1 l : Layer}
    (hone : ¬ (l0.bound = true ∧ l1.bound = true)) (hl : LayerFits g.conf l)
    (hb : TgConf.boundLayer { g.conf with layer0 := l0, layer1 := l1 } = some l) :
    TgInv { g with conf := { g.conf with layer0 := l0, layer1 := l1 } } where
  counts := h.counts
  enabled := h.enabled
  bound := fun _ => hc
  oneLayer := hone
  layer := fun l' hl' => by
    obtain rfl : l = l' := Option.some.inj (hb.symm.trans hl')
    exact hl.congr rfl rfl
  position := h.position
  stopped := h.stopped

/-- An accepted `TGBIND` (R143, R144). -/
theorem TgInv.withLayer {g : TimingGen} (h : TgInv g) (hc : g.conf.configured = true) {i : BitVec 4} {d : LayerDesc}
    (he : bindError g.conf i d = none) : TgInv { g with conf := g.conf.withLayer i (layerOf d) } := by
  obtain ⟨-, h0, h1, hfits⟩ := bindError_none he
  obtain ⟨-, hw⟩ | ⟨-, hw⟩ := withLayer_of_bindError_none he <;> rw [hw]
  · exact h.rebind hc (by simp [h1]) hfits (boundLayer_with_layer0 g.conf rfl)
  · exact h.rebind hc (by simp [h0]) hfits (boundLayer_with_layer1 h0 rfl)

/-- A scan started at (0, 0), which lies in every frame (R145). -/
theorem TgInv.startScan {s : State} (h : TgInv s.tg) (hc : s.tg.conf.configured = true) :
    TgInv (startScan s).tg where
  counts := h.counts
  enabled := fun _ => hc
  bound := h.bound
  oneLayer := h.oneLayer
  layer := fun l hl => (h.layer l hl).congr rfl rfl
  position := fun _ => by
    obtain ⟨hhs, -, hvs, -⟩ := h.counts hc
    show 0 < s.tg.conf.htotal ∧ 0 < s.tg.conf.vtotal
    unfold TgConf.htotal TgConf.vtotal
    omega
  stopped := fun hoff => absurd hoff.symm Bool.false_ne_true

/-- A scan stopped (R145). -/
theorem TgInv.stopScan {s : State} (h : TgInv s.tg) : TgInv (stopScan s).tg where
  counts := h.counts
  enabled := fun hen => absurd hen Bool.false_ne_true
  bound := h.bound
  oneLayer := h.oneLayer
  layer := fun l hl => (h.layer l hl).congr rfl rfl
  position := fun hen => absurd hen Bool.false_ne_true
  stopped := fun _ => ⟨rfl, rfl, rfl, rfl, rfl⟩

theorem TgInv.setEnable {s : State} (h : TgInv s.tg) (e : Bool) (hc : s.tg.conf.configured = true) :
    TgInv (setEnable e s).tg := by
  by_cases hsame : s.tg.conf.en = e
  · rwa [setEnable_of_same hsame]
  · cases e with
    | true => rw [setEnable_true (Bool.eq_false_iff.mpr hsame)]; exact h.startScan hc
    | false => rw [setEnable_false (Bool.eq_true_of_not_eq_false hsame)]; exact h.stopScan

theorem TgInv.effect {s : State} (h : TgInv s.tg) (i : Instr) (hp : s.fr.phase = .idle) :
    TgInv (effect i s).tg := by
  have spi : ∀ {t}, SpiOnly s t → TgInv t.tg := fun ht => ht.tg ▸ h
  cases i with
  | tgcfg p bg =>
    rcases effect_tgcfg_cases p bg s with hr | ⟨hc, he, heff⟩
    · exact spi hr.spi
    · rw [heff]; exact h.configure bg hc he
  | tgbind k d =>
    rcases effect_tgbind_cases k d s with hr | ⟨hc, he, heff⟩
    · exact spi hr.spi
    · rw [heff]; exact h.withLayer hc he
  | tgen e =>
    rcases effect_tgen_cases e s with hr | ⟨hc, heff⟩
    · exact spi hr.spi
    · rw [heff]; exact h.setEnable e hc
  | _ => exact spi (effect_spi _ s hp (by simp) (by simp) (by simp))

/-! ### Every step -/

theorem TgInv.hostEffect {s : State} (h : TgInv s.tg) (hp : s.fr.phase = .idle) : TgInv (hostEffect s).tg := by
  rcases hostEffect_cases s with ⟨i, n, -, heff⟩ | hr
  · rw [heff]; exact h.effect i hp
  · exact hr.spi.tg ▸ h

theorem tgInv_afterReset (n : Nat) : TgInv { conf := TgConf.afterReset, scan := TgScan.afterReset n } where
  counts := fun hc => absurd hc Bool.false_ne_true
  enabled := fun hen => absurd hen Bool.false_ne_true
  bound := fun hb => absurd rfl hb
  oneLayer := fun hb => absurd hb.1 Bool.false_ne_true
  layer := fun _ hl => nomatch hl
  position := fun hen => absurd hen Bool.false_ne_true
  stopped := fun _ => ⟨rfl, rfl, rfl, rfl, rfl⟩

theorem TurnTaken.tg {s u : State} (h : TurnTaken s u) : u.tg = s.tg := by
  rw [h.eq]

/-- Settles O50: the host's operations, the scan step and a reset keep the invariant; an outside write leaves `TG`. -/
theorem timingInvariantKept : Obligations.TimingInvariantKept := by
  unfold Obligations.TimingInvariantKept
  intro s s' h hstep
  rcases step_cases hstep with
    ⟨u, hu, hready, rfl⟩ | ⟨u, pix, hu, hen, -, rfl⟩ | ⟨rest, -, rfl⟩ | ⟨n, v, rest, -, rfl⟩
  · exact TgInv.hostEffect (hu.tg ▸ h) (hostReady_iff.mp hready).1.idle
  · exact (scanEffect_inv pix hen (hu.tg ▸ h)).1
  · exact tgInv_afterReset _
  · exact h

end Sys2Proof.Machine
end

section
/-! One scan step (42_timing_generator.md R146 to R157, R161): the pins and the counters it leaves, the pixel it shows,
where it reads, and that nothing but an outside write changes the framebuffer. -/

namespace Sys2Proof.Machine

/-! ### EXPAND565 (R154, R156) -/

theorem expand5_toNat (c : BitVec 5) : (expand5 c).toNat = c.toNat * 8 + c.toNat / 4 := by
  have hc : c.toNat < 32 := c.isLt
  rw [expand5, toNat_append, toNat_extract]
  omega

theorem expand6_toNat (c : BitVec 6) : (expand6 c).toNat = c.toNat * 4 + c.toNat / 16 := by
  have hc : c.toNat < 64 := c.isLt
  rw [expand6, toNat_append, toNat_extract]
  omega

/-- Settles O36: each channel of the pixel by `expand5_toNat` and `expand6_toNat`, the three side by side. -/
theorem expand565RepeatsTopBits : Obligations.Expand565RepeatsTopBits := by
  unfold Obligations.Expand565RepeatsTopBits
  intro p r g b
  have hred : (p.extractLsb' 11 5).toNat = r := by
    have hp : p.toNat < 2 ^ 16 := p.isLt
    rw [toNat_extract, Nat.mod_eq_of_lt (by omega)]
  have hgreen : (p.extractLsb' 5 6).toNat = g := toNat_extract p 5 6
  have hblue : (p.extractLsb' 0 5).toNat = b := by rw [toNat_extract, pow_zero, Nat.div_one]
  rw [expand565, toNat_append, toNat_append, expand5_toNat, expand6_toNat, expand5_toNat, hred, hgreen, hblue]
  omega

/-! ### Pins and counters (R147, R148, R151) -/

theorem pinLevel_decide (p : Prop) [Decidable p] (pol : Bool) :
    pinLevel (decide p) pol = if p then pol else !pol := by
  by_cases hp : p <;> simp [pinLevel, hp]

theorem inActive_iff (c : TgConf) (h v : Nat) : InActive c h v ↔ c.deAct h v = true := (deAct_iff c h v).symm

/-- A scheduled turn of an enabled scanner is a scan step that shows the current pixel. -/
theorem step_scanner_turn_next {s : State} {rest : List SchedEntry} (hi : TgInv s.tg) (he : s.tg.conf.en = true)
    (hs : s.env.sched = .agent .scanner :: rest) :
    ∃ pix, currentPixel s = some pix ∧
      step s = .next (scanEffect pix { s with env := { s.env with sched := rest } }) := by
  obtain ⟨pix, hp, hx⟩ := scanStep_of_inv (s := { s with env := { s.env with sched := rest } }) hi
  exact ⟨pix, hp, (step_scanner_turn he hs).trans hx⟩

/-- Settles O34: the state is that of `scanEffect_eq`, and the two counters hold `nextPosition` exactly. -/
theorem scanStepDrivesPinsAndCounters : Obligations.ScanStepDrivesPinsAndCounters := by
  unfold Obligations.ScanStepDrivesPinsAndCounters
  intro s rest hi he hs c h v
  obtain ⟨pix, -, hstep⟩ := step_scanner_turn_next hi he hs
  have hpos : (BitVec.ofNat 18 (nextPosition c h v).1).toNat = (nextPosition c h v).1 ∧
      (BitVec.ofNat 18 (nextPosition c h v).2).toNat = (nextPosition c h v).2 :=
    Prod.mk.inj (scanEffect_inv pix he hi).2
  refine ⟨_, _, _, pix, _, _, pinLevel_decide _ _, pinLevel_decide _ _, fun ha => ?_, fun ha => ?_, fun hh => ?_,
    fun hh => ?_, hstep⟩
  · exact congrArg (pinLevel · c.depol) ((inActive_iff c h v).mp ha)
  · exact congrArg (pinLevel · c.depol) (Bool.eq_false_iff.mpr fun hd => ha ((inActive_iff c h v).mpr hd))
  · have hnext : nextPosition c h v = (h + 1, v) := if_pos hh
    exact ⟨hpos.1.trans (congrArg Prod.fst hnext), hpos.2.trans (congrArg Prod.snd hnext)⟩
  · have hnext : nextPosition c h v = (0, if v + 1 < c.vtotal then v + 1 else 0) := if_neg hh
    exact ⟨hpos.1.trans (congrArg Prod.fst hnext), hpos.2.trans (congrArg Prod.snd hnext)⟩

/-! ### The pixel (R152, R153, R155) -/

theorem scanPixel_active (s : State) {x y : Nat} (hx : x < s.tg.conf.aw.toNat) (hy : y < s.tg.conf.ah.toNat) :
    scanPixel s (s.tg.conf.hstart + x) (s.tg.conf.vstart + y) = activePixel s x y := by
  have hact : s.tg.conf.deAct (s.tg.conf.hstart + x) (s.tg.conf.vstart + y) = true :=
    (deAct_iff ..).mpr ⟨by omega, by omega, by omega, by omega⟩
  rw [scanPixel, if_pos hact, Nat.add_sub_cancel_left, Nat.add_sub_cancel_left]

/-- Inside the window the pixel is fetched from the layer's region. -/
theorem activePixel_inside {s : State} {l : Layer} {x y : Nat} {pix : Colour}
    (hl : s.tg.conf.boundLayer = some l) (hw : InWindow l x y) (hp : activePixel s x y = some pix) :
    pix = expand565 (fbRead s.fb s.env.scanDraws (l.pixelAddr (x - l.x.toNat) (y - l.y.toNat) + 1) ++
      fbRead s.fb s.env.scanDraws (l.pixelAddr (x - l.x.toNat) (y - l.y.toNat))) := by
  have hc : l.covers x y = true := (covers_iff l x y).mpr hw
  simp only [activePixel, hl, hc, if_true, memRead16] at hp
  split at hp
  · exact (Option.some.inj hp).symm
  · cases hp

/-- Outside the window, and with no layer bound, the pixel is the border's. -/
theorem activePixel_outside {s : State} {x y : Nat}
    (h : ∀ l, s.tg.conf.boundLayer = some l → ¬ InWindow l x y) :
    activePixel s x y = some (borderColour s.tg.conf) := by
  rw [activePixel]
  cases hl : s.tg.conf.boundLayer with
  | none => rfl
  | some l => exact if_neg fun hc => h l hl ((covers_iff l x y).mp hc)

theorem borderColour_opaque {c : TgConf} {l : Layer} (hl : c.boundLayer = some l)
    (ha : l.dcol.toNat / 2 ^ 24 = 0xFF) : (borderColour c).toNat = l.dcol.toNat % 2 ^ 24 := by
  have ha : l.dcol.extractLsb' 24 8 = 0xFF := (alpha_eq_iff _ _).mpr ha
  simp only [borderColour, hl, if_pos ha, toNat_extract, pow_zero, Nat.div_one]

theorem borderColour_transparent {c : TgConf} {l : Layer} (hl : c.boundLayer = some l)
    (ha : l.dcol.toNat / 2 ^ 24 ≠ 0xFF) : borderColour c = c.bgc := by
  have ha : l.dcol.extractLsb' 24 8 ≠ 0xFF := fun h => ha ((alpha_eq_iff _ _).mp h)
  simp only [borderColour, hl, if_neg ha]

theorem borderColour_unbound {c : TgConf} (h : c.boundLayer = none) : borderColour c = c.bgc := by
  rw [borderColour, h]

/-- Settles O35: the pixel of an active position is `activePixel`: fetched inside the window, the border's outside. -/
theorem scanStepShowsThePixel : Obligations.ScanStepShowsThePixel := by
  unfold Obligations.ScanStepShowsThePixel
  intro s rest x y hi he hs hh hx hv hy
  obtain ⟨pix, hp, hstep⟩ := step_scanner_turn_next hi he hs
  have hp : activePixel s x y = some pix := by
    rw [← scanPixel_active s hx hy, ← hp, currentPixel, hh, hv]
    rfl
  have border : (∀ l, s.tg.conf.boundLayer = some l → ¬ InWindow l x y) → pix = borderColour s.tg.conf := fun h =>
    Option.some.inj (hp.symm.trans (activePixel_outside h))
  refine ⟨_, hstep, by simp [scanEffect_eq], fun l hl hw => activePixel_inside hl hw hp, fun l hl hw => ?_,
    fun hl => ?_⟩
  · have hpix : pix = borderColour s.tg.conf := border fun l' hl' => Option.some.inj (hl.symm.trans hl') ▸ hw
    exact ⟨fun ha => (congrArg BitVec.toNat hpix).trans (borderColour_opaque hl ha),
      fun ha => hpix.trans (borderColour_transparent hl ha)⟩
  · have hpix : pix = borderColour s.tg.conf := border fun l' hl' => nomatch hl.symm.trans hl'
    exact hpix.trans (borderColour_unbound hl)

/-! ### The framebuffer (20_memory.md R41, R44; R153, R161) -/

/-- Neither agent stops at a read outside `FB`: the host reads none, and the bind checks keep the scanner's inside. -/
theorem agentStep_ne_fbOutsideSpace (a : Agent) {s : State} (hi : TgInv s.tg) :
    agentStep a s ≠ .fault .fbOutsideSpace := by
  intro h
  unfold agentStep at h
  split at h
  · rename_i hm
    rw [hostStep_of_ready (mover_ready hm)] at h
    cases h
  · obtain ⟨pix, -, hnext⟩ := scanStep_of_inv hi
    rw [hnext] at h
    cases h
  · unfold State.stopReason at h
    split at h
    · cases h
    · split at h <;> cases h

theorem step_ne_fbOutsideSpace {s : State} (hi : TgInv s.tg) : step s ≠ .fault .fbOutsideSpace := by
  have agent : ∀ a {u : State}, u.tg = s.tg → agentStep a u ≠ .fault .fbOutsideSpace := fun a u hu =>
    agentStep_ne_fbOutsideSpace a (hu ▸ hi)
  unfold step machineStep
  split
  · unfold freeStep
    split
    · split
      · exact agent .scanner rfl
      · exact agent .host rfl
    · exact agent .host rfl
  · exact agent _ rfl
  · exact fun h => nomatch h
  · exact fun h => nomatch h

/-- Settles O40: the invariant holds the bind checks, under which a scan step always answers a next state. -/
theorem scannerStaysInsideTheFramebuffer : Obligations.ScannerStaysInsideTheFramebuffer := by
  unfold Obligations.ScannerStaysInsideTheFramebuffer
  intro s hi
  refine ⟨step_ne_fbOutsideSpace hi, fun he rest hs => ?_⟩
  obtain ⟨pix, -, hstep⟩ := step_scanner_turn_next hi he hs
  exact ⟨_, hstep⟩

/-- Settles O47: of everything a step can do, only a scheduled outside write changes the framebuffer. -/
theorem hardwareNeverWritesTheFramebuffer : Obligations.HardwareNeverWritesTheFramebuffer := by
  unfold Obligations.HardwareNeverWritesTheFramebuffer
  intro s s' hstep hno a
  rcases step_fb_cases hstep with hfb | ⟨n, v, rest, hs, -⟩
  · rw [hfb]
  · exact absurd (by rw [hs]; rfl) (hno n v)

end Sys2Proof.Machine
end

section
/-! Frames (42_timing_generator.md R148, R151, R162, R163): after one the counters are where they were, and its active
samples, in scan order, are those of the active area. -/

namespace Sys2Proof.Machine

/-! ### A frame of scan steps -/

theorem frameSteps_eq (c : TgConf) : frameSteps c = c.htotal * c.vtotal := rfl

theorem positionAfter_frame {c : TgConf} {p : Nat × Nat} (h : p.1 < c.htotal) (v : p.2 < c.vtotal) :
    positionAfter c (frameSteps c) p = p := by
  rw [positionAfter_eq _ h v, frameSteps_eq, Nat.add_mod_right, Nat.mod_eq_of_lt (positionIndex_lt h v),
    positionOf_index h]

/-- From (0, 0) the position in a frame is the one with the number of steps done. -/
theorem positionAfter_origin {c : TgConf} (h : 0 < c.htotal) (v : 0 < c.vtotal) {k : Nat} (hk : k < frameSteps c) :
    positionAfter c k (0, 0) = positionOf c k := by
  have hindex : positionIndex c (0, 0) = 0 := by simp [positionIndex]
  rw [positionAfter_eq k h v, hindex, Nat.zero_add, ← frameSteps_eq, Nat.mod_eq_of_lt hk]

theorem counters_of_position {s t : State} (h : t.position = s.position) :
    t.tg.scan.hcnt = s.tg.scan.hcnt ∧ t.tg.scan.vcnt = s.tg.scan.vcnt := by
  obtain ⟨hh, hv⟩ := Prod.mk.inj h
  exact ⟨BitVec.eq_of_toNat_eq hh, BitVec.eq_of_toNat_eq hv⟩

/-- Settles O37: `HTOTAL * VTOTAL` advances lead a position inside the frame back to itself. -/
theorem scanIsPeriodic : Obligations.ScanIsPeriodic := by
  unfold Obligations.ScanIsPeriodic
  intro s rest hi he hs
  obtain ⟨t, pix, hrun, hconf, -, hpos, -, -⟩ := run_scanner _ s rest hi he hs
  obtain ⟨hh, hv⟩ := hi.position he
  obtain ⟨hcnt, vcnt⟩ := counters_of_position (hpos.trans (positionAfter_frame hh hv))
  exact ⟨t, hrun, hcnt, vcnt, hconf⟩

/-! ### The active samples -/

theorem sampleAt_active (c : TgConf) (p : Nat × Nat) (pix : Colour) :
    ((sampleAt c p pix).de == c.depol) = c.deAct p.1 p.2 := by
  simp only [sampleAt, pinLevel]
  cases c.deAct p.1 p.2 <;> cases c.depol <;> rfl

/-- The samples of a frame from (0, 0), the `k`-th showing `pix k`. -/
def frameSamples (c : TgConf) (pix : Nat → Colour) : List Vid :=
  (List.range (frameSteps c)).map fun k => sampleAt c (positionAfter c k (0, 0)) (pix k)

/-- The number of the active position (x, y) in scan order. -/
def activeIndex (c : TgConf) (x y : Nat) : Nat := positionIndex c (c.hstart + x, c.vstart + y)

theorem activeIndex_lt {c : TgConf} {x y : Nat} (hx : x < c.aw.toNat) (hy : y < c.ah.toNat) :
    activeIndex c x y < frameSteps c :=
  positionIndex_lt (p := (c.hstart + x, c.vstart + y)) (by simp only [TgConf.hstart, TgConf.htotal]; omega)
    (by simp only [TgConf.vstart, TgConf.vtotal]; omega)

theorem positionOf_activeIndex {c : TgConf} {x : Nat} (y : Nat) (hx : x < c.aw.toNat) :
    positionOf c (activeIndex c x y) = (c.hstart + x, c.vstart + y) :=
  positionOf_index (by simp only [TgConf.hstart, TgConf.htotal]; omega)

/-- What the active samples of a frame show, in scan order. -/
theorem active_pixels {c : TgConf} (h : 0 < c.htotal) (v : 0 < c.vtotal) (pix : Nat → Colour) :
    ((frameSamples c pix).filter (fun q => q.de == c.depol)).map Vid.pix =
      (List.range c.ah.toNat).flatMap fun y => (List.range c.aw.toNat).map fun x => pix (activeIndex c x y) := by
  have active : ∀ k ∈ List.range (frameSteps c),
      ((fun q : Vid => q.de == c.depol) ∘ fun k => sampleAt c (positionAfter c k (0, 0)) (pix k)) k =
        c.deAct (positionOf c k).1 (positionOf c k).2 := fun k hk => by
    rw [Function.comp, sampleAt_active, positionAfter_origin h v (List.mem_range.mp hk)]
  rw [frameSamples, List.filter_map, List.filter_congr active, frameSteps_eq, active_indices, List.map_map]
  simp only [List.map_flatMap, List.map_map]
  rfl

/-- What the scan step `k` turns later reads: the same registers and bytes, with later draws of the outside world. -/
def State.scansLater (k : Nat) (s : State) : State := { s with env := { s.env with scanDraws := s.env.scanDraws + k } }

/-- A frame of an enabled scanner from (0, 0): its samples, and the pixels its active ones show. -/
theorem run_frame {s : State} {rest : List SchedEntry} (hi : TgInv s.tg) (he : s.tg.conf.en = true)
    (hh : s.tg.scan.hcnt = 0) (hv : s.tg.scan.vcnt = 0)
    (hs : s.env.sched = List.replicate (frameSteps s.tg.conf) (.agent .scanner) ++ rest) :
    ∃ (t : State) (pix : Nat → Colour), Host.Core.run core (frameSteps s.tg.conf) s = .next t ∧
      t.obs.video = s.obs.video ++ frameSamples s.tg.conf pix ∧ t.tg.scan.hcnt = 0 ∧ t.tg.scan.vcnt = 0 ∧
      ((frameSamples s.tg.conf pix).filter (fun q => q.de == s.tg.conf.depol)).map Vid.pix =
        ((List.range s.tg.conf.ah.toNat).flatMap fun y =>
          (List.range s.tg.conf.aw.toNat).map fun x => pix (activeIndex s.tg.conf x y)) ∧
      ∀ x < s.tg.conf.aw.toNat, ∀ y < s.tg.conf.ah.toNat,
        activePixel (s.scansLater (activeIndex s.tg.conf x y)) x y = some (pix (activeIndex s.tg.conf x y)) := by
  obtain ⟨t, pix, hrun, -, -, hpos, hvid, hpix⟩ := run_scanner _ s rest hi he hs
  have horigin : s.position = (0, 0) := by simp [State.position, hh, hv]
  obtain ⟨hin, vin⟩ := hi.position he
  obtain ⟨hcnt, vcnt⟩ := counters_of_position (hpos.trans (positionAfter_frame hin vin))
  have h0 := Nat.zero_lt_of_lt hin
  have v0 := Nat.zero_lt_of_lt vin
  rw [horigin] at hvid hpix
  refine ⟨t, pix, hrun, hvid, hcnt.trans hh, vcnt.trans hv, active_pixels h0 v0 pix, fun x hx y hy => ?_⟩
  have hk := activeIndex_lt hx hy
  have hp := hpix _ hk
  rw [positionAfter_origin h0 v0 hk, positionOf_activeIndex y hx] at hp
  exact (scanPixel_active (s.scansLater (activeIndex s.tg.conf x y)) hx hy).symm.trans hp

/-- Settles O38: the active samples are counted row by row. -/
theorem frameHasExactlyTheActiveSamples : Obligations.FrameHasExactlyTheActiveSamples := by
  unfold Obligations.FrameHasExactlyTheActiveSamples
  intro s rest hi he hh hv hs
  obtain ⟨t, pix, hrun, hvid, -, -, hactive, -⟩ := run_frame hi he hh hv hs
  refine ⟨t, _, hrun, hvid, by simp [frameSamples], ?_⟩
  rw [← List.length_map (f := Vid.pix), hactive]
  simp [List.length_flatMap, Nat.mul_comm]

/-! ### What a frame shows (R162) -/

/-- A listed byte reads as itself at every scan step (20_memory.md R52). -/
theorem fbRead_listed {m : Memory} {a : Nat} (step : Nat) (h : m.byte? a ≠ none) :
    fbRead m step a = (m.byte? a).getD 0 := by
  obtain ⟨v, hv⟩ := Option.ne_none_iff_exists'.mp h
  simp [fbRead, hv]

/-- Pixel (x, y) of a listed region reads as the listed one, whatever the scan step. -/
theorem fbRead_pixel {m : Memory} {l : Layer} (hlist : RegionListed m l) (step : Nat) {x y : Nat}
    (hx : x < l.w.toNat) (hy : y < l.h.toNat) :
    fbRead m step (l.pixelAddr x y + 1) ++ fbRead m step (l.pixelAddr x y) = listedPixel m (l.pixelAddr x y) := by
  have hrow : y * l.w.toNat + x + 1 ≤ l.w.toNat * l.h.toNat := by
    have := Nat.mul_le_mul_right l.w.toNat (Nat.succ_le_of_lt hy)
    rw [Nat.succ_mul, Nat.mul_comm l.h.toNat] at this
    omega
  have listed : ∀ j < 2, m.byte? (l.pixelAddr x y + j) ≠ none := fun j hj => by
    rw [Layer.pixelAddr, Nat.add_assoc]
    exact hlist _ (by rw [Nat.mul_assoc]; omega)
  rw [fbRead_listed step (a := l.pixelAddr x y) (listed 0 (by decide)), fbRead_listed step (listed 1 (by decide)),
    listedPixel]

/-- Settles O39: every active position lies in the layer's window, and its number in scan order is that of its pixel. -/
theorem frameShowsTheFramebuffer : Obligations.FrameShowsTheFramebuffer := by
  unfold Obligations.FrameShowsTheFramebuffer
  intro s rest l hi he hh hv hl hlx hly hlw hlh hlist hs
  obtain ⟨t, pix, hrun, hvid, hcnt, vcnt, hactive, hpix⟩ := run_frame hi he hh hv hs
  rw [← hlw, ← hlh] at hactive hpix
  have shown : ∀ x < l.w.toNat, ∀ y < l.h.toNat,
      pix (activeIndex s.tg.conf x y) = expand565 (listedPixel s.fb (l.pixelAddr x y)) := fun x hx y hy => by
    have hwin : InWindow l x y := by simp [InWindow, hlx, hly, hx, hy]
    have hfetch :=
      activePixel_inside (s := s.scansLater (activeIndex s.tg.conf x y)) hl hwin (hpix x hx y hy)
    have hxy : l.pixelAddr (x - l.x.toNat) (y - l.y.toNat) = l.pixelAddr x y := by simp [hlx, hly]
    rw [hfetch, hxy]
    exact congrArg expand565 (fbRead_pixel hlist _ hx hy)
  refine ⟨t, _, hrun, hvid, hcnt, vcnt, hactive.trans ?_⟩
  rw [range_mul, List.map_flatMap]
  refine List.flatMap_congr fun y hy => ?_
  rw [List.map_map]
  exact List.map_congr_left fun x hx => shown x (List.mem_range.mp hx) y (List.mem_range.mp hy)

end Sys2Proof.Machine
end

section
/-! Faults, hangs, and what goes on behind them (60_exceptions.md): a broken transfer stops inside its byte, a fault
before `INIT` or `TGCFG` writes the fault registers alone, and a host with no step leaves the scanner running. -/

namespace Sys2Proof.Machine

/-! ### A transfer that breaks (R182, R183, R201) -/

/-- An operation that is one transaction, its transfer not answered `Done`, stops where the transaction stopped. -/
theorem SendsOne.exec_broken {s : State} {i : Instr} {k : Kind} {b : Byte} (h : SendsOne s i k b) (hr : HostRuns s)
    (hf : FramerIdle s.fr) (ha : s.env.nextAnswer ≠ .done) :
    ∃ rx, RxSampled s.fr.rxsr s.env.misoDraws (pulsesOf s.env.nextAnswer) rx ∧
      exec i s = .next { brokenTxn k b (pulsesOf s.env.nextAnswer) rx s with
        sq := brokenSq s.par.raw s.sq k b s.env.nextAnswer } := by
  obtain ⟨rx, hrx, hstop⟩ := transaction_stops k b s hf ha
  refine ⟨rx, hrx, ?_⟩
  rw [exec_of_runs i hr, h.effect_eq, hstop, Progress.finish]

theorem openFrame_length (k : Kind) (b : Byte) {n : Nat} (m : Level) (hn : n ≤ 8) :
    (openFrame k b n m).length = 2 + 3 * n := by
  have hbits : min n Config.bitOrder.length = n := Nat.min_eq_left hn
  simp [openFrame, bitTuples, List.length_flatMap, hbits]
  omega

/-- Settles O10: the answer reports `n` pulses, and `brokenSq` is `TransportFault` for it. -/
theorem transportFaultStopsInsideTheByte : Obligations.TransportFaultStopsInsideTheByte := by
  unfold Obligations.TransportFaultStopsInsideTheByte
  intro s i k b n hr hf hi ha
  obtain ⟨rx, hrx, hexec⟩ := hi.exec_broken hr hf (by simp [ha])
  rw [ha] at hrx hexec
  exact ⟨rx, hrx, hexec, openFrame_length k b s.fr.mosi (Nat.le_of_lt_succ n.isLt)⟩

/-- Settles O11: `brokenSq` is `TransportTimeout` for a finite `XFER_TIMEOUT`, and leaves `SQ` alone for `inf`. -/
theorem stallTimesOutOrHangs : Obligations.StallTimesOutOrHangs := by
  unfold Obligations.StallTimesOutOrHangs
  intro s i k b n hr hf hi ha
  obtain ⟨rx, hrx, hexec⟩ := hi.exec_broken hr hf (by simp [ha])
  rw [ha] at hrx hexec
  refine ⟨rx, hrx, fun ⟨ms, hms⟩ => ?_, fun hinf => ⟨?_, hr.noFault, brokenTxn_not_idle k b n rx s⟩⟩
  · have hsq : brokenSq s.par.raw s.sq k b (.stall n) = faultedSq s.sq 2 (xferWord k n b) := if_neg (by simp [hms])
    rw [hexec, hsq, pulsesOf]
  · have hsq : brokenSq s.par.raw s.sq k b (.stall n) = s.sq := if_pos hinf
    rw [hexec, hsq]
    rfl

/-! ### Faults taken before anything else changes (R185 to R187) -/

theorem exec_of_effect_raise {i : Instr} {s : State} {f : HwFault} {info : Nat} (hr : HostRuns s)
    (h : effect i s = s.raise f (BitVec.ofNat 32 info)) :
    exec i s = .next { s with sq := faultedSq s.sq f.code.toNat info } := by
  rw [exec_of_runs i hr, h, raise_eq_faultedSq]

/-- Settles O16: with `INITED` set the effect of `INIT` is the fault. -/
theorem initTwiceFaults : Obligations.InitTwiceFaults := by
  unfold Obligations.InitTwiceFaults
  exact fun _ hr hi => exec_of_effect_raise (f := .panelAlreadyInitialised) hr (if_pos hi)

/-- Settles O20: with `INITED` clear the effect of either is the fault, with its own information. -/
theorem onOffBeforeInitFault : Obligations.OnOffBeforeInitFault := by
  unfold Obligations.OnOffBeforeInitFault
  intro s hr hi
  have hon : effect .on s = s.raise .panelNotInitialised 1 := by simp [effect, displaySelect, hi]
  have hoff : effect .off s = s.raise .panelNotInitialised 2 := by simp [effect, displaySelect, hi]
  exact ⟨exec_of_effect_raise (info := 1) hr hon, exec_of_effect_raise (info := 2) hr hoff⟩

/-- Settles O31: with `CONFIGURED` clear the effect of either is the fault, before its operands are looked at. -/
theorem bindAndEnableNeedConfigure : Obligations.BindAndEnableNeedConfigure := by
  unfold Obligations.BindAndEnableNeedConfigure
  intro i d e s hr hc
  have hbind : effect (.tgbind i d) s = s.raise .tgNotConfigured (BitVec.ofNat 32 i.toNat) := by simp [effect, hc]
  have hen : effect (.tgen e) s = s.raise .tgNotConfigured (BitVec.ofNat 32 (tgenInfo e)) := by simp [effect, hc]
  exact ⟨exec_of_effect_raise hr hbind, exec_of_effect_raise hr hen⟩

/-! ### A host with no step (R193, R194, R201) -/

theorem exec_of_faulted {s : State} (h : s.sq.flt ≠ 0) (i : Instr) : exec i s = .fault .hostFaulted := by
  rw [exec_eq, whenHostRuns_of_faulted h]

theorem exec_of_hung {s : State} (h : HostHung s) (i : Instr) : exec i s = .fault .hostHung := by
  rw [exec_eq, whenHostRuns_of_hung h]

theorem hostReady_of_stopped {s : State} (h : s.sq.flt ≠ 0 ∨ HostHung s) : s.hostReady = false := by
  refine Bool.eq_false_iff.mpr fun hready => ?_
  obtain ⟨hr, -⟩ := hostReady_iff.mp hready
  rcases h with hf | ⟨-, hi⟩
  · exact hf hr.noFault
  · exact hi hr.idle

theorem stopReason_of_faulted {s : State} (h : s.sq.flt ≠ 0) : s.stopReason = .hostFaulted := by
  have hf : s.faulted = true := bne_iff_ne.mpr h
  exact if_pos hf

theorem stopReason_of_hung {s : State} (h : HostHung s) : s.stopReason = .hostHung := by
  obtain ⟨hf, hi⟩ := h
  simp [State.stopReason, State.faulted, State.idle, hf, hi]

/-- Where neither agent has a step and nothing is scheduled, the machine stops. -/
theorem step_of_none_ready {s : State} (hs : s.env.sched = []) (hh : s.hostReady = false)
    (he : s.tg.conf.en = false) : step s = .fault s.stopReason := by
  simp only [step, machineStep, hs, freeStep, hh, Bool.false_and, Bool.false_eq_true, if_false, agentStep,
    mover_none (a := .host) hh (show s.scannerReady = false from he)]

/-- Settles O41: the guard stops every operation, and no agent is left to step. -/
theorem faultedOrHungHostHasNoStep : Obligations.FaultedOrHungHostHasNoStep := by
  unfold Obligations.FaultedOrHungHostHasNoStep
  refine fun s i => ⟨fun hf => exec_of_faulted hf i, fun hu => exec_of_hung hu i, fun hf hs he => ?_,
    fun hu hs he => ?_⟩
  · rw [step_of_none_ready hs (hostReady_of_stopped (.inl hf)) he, stopReason_of_faulted hf]
  · rw [step_of_none_ready hs (hostReady_of_stopped (.inr hu)) he, stopReason_of_hung hu]

/-! ### The scanner goes on (R200) -/

theorem TurnTaken.hostReady {s u : State} (h : TurnTaken s u) : u.hostReady = s.hostReady := by
  rw [h.eq]
  rfl

theorem TurnTaken.obs {s u : State} (h : TurnTaken s u) : u.obs = s.obs := by
  rw [h.eq]

theorem scanEffect_video (pix : Colour) (s : State) :
    ∃ q, (scanEffect pix s).obs.video = s.obs.video ++ [q] := ⟨_, rfl⟩

/-- While the host has no step, a step that is no reset pulse changes the scanner's elements, the framebuffer and the
outside world's draws at most. -/
theorem step_frame_of_stopped {s t : State} (hh : s.hostReady = false) (hreset : s.env.sched.head? ≠ some .reset)
    (h : step s = .next t) :
    ∃ scan video fb env,
      t = { s with tg := { s.tg with scan := scan }, obs := { s.obs with video := video }, fb := fb, env := env } := by
  rcases step_cases h with ⟨u, hu, hready, -⟩ | ⟨u, pix, hu, -, -, rfl⟩ | ⟨rest, hs, -⟩ | ⟨n, v, rest, -, rfl⟩
  · rw [hu.hostReady, hh] at hready
    cases hready
  · rw [hu.eq, scanEffect_eq]
    exact ⟨_, _, _, _, rfl⟩
  · exact absurd (by rw [hs]; rfl) hreset
  · exact ⟨_, _, _, _, rfl⟩

/-- While the host has no step, every turn is the scanner's, scheduled or not. -/
theorem step_scanner_of_stopped {s : State} (hh : s.hostReady = false) (he : s.tg.conf.en = true)
    (hs : s.env.sched = [] ∨ ∃ a rest, s.env.sched = .agent a :: rest) :
    ∃ u, TurnTaken s u ∧ step s = scanStep u := by
  rcases hs with hs | ⟨a, rest, hs⟩
  · exact ⟨s, .inr ⟨hs, .inl rfl⟩, step_scanner_alone hs hh he⟩
  · refine ⟨s.dropSched, .inl ⟨a, by simp [hs], rfl⟩, ?_⟩
    rw [step_agent_turn hs, ← dropSched_eq hs, agentStep,
      mover_scanner (s := s.dropSched) (a := a) hh (show s.scannerReady = true from he)]

/-- Settles O42: the host's side is outside what such a step changes, and the scan step it is answers one sample. -/
theorem scannerSurvivesAHostFault : Obligations.ScannerSurvivesAHostFault := by
  unfold Obligations.ScannerSurvivesAHostFault
  intro s hinv hstop
  have hh := hostReady_of_stopped hstop
  refine ⟨fun t hreset h => ?_, fun he hs => ?_⟩
  · obtain ⟨scan, video, fb, env, rfl⟩ := step_frame_of_stopped hh hreset h
    exact ⟨rfl, rfl, rfl, rfl, rfl, rfl⟩
  · obtain ⟨u, hu, hstep⟩ := step_scanner_of_stopped hh he hs
    obtain ⟨pix, -, hscan⟩ := scanStep_of_inv (hu.tg ▸ hinv)
    obtain ⟨q, hq⟩ := scanEffect_video pix u
    exact ⟨_, q, hstep.trans hscan, by rw [hq, hu.obs]⟩

end Sys2Proof.Machine
end

section
/-! Reset (70_reset_and_hazards.md R210 to R212, R221): what a pulse leaves, what nothing else clears, the final state
of the host's run, and that `INIT` never sends the panel's own reset. -/

namespace Sys2Proof.Machine

/-! ### What nothing but a reset clears (R210; 42_timing_generator.md R140) -/

/-- What no operation undoes in the configuration registers: `CONFIGURED` with the timing and the background once it is
set, and a slot once it is bound. -/
structure ConfKept (c c' : TgConf) : Prop where
  timing : c.configured = true →
    c'.configured = true ∧ { c' with en := c.en, layer0 := c.layer0, layer1 := c.layer1 } = c
  layer0 : c.layer0.bound = true → c'.layer0 = c.layer0
  layer1 : c.layer1.bound = true → c'.layer1 = c.layer1

theorem ConfKept.refl (c : TgConf) : ConfKept c c := ⟨fun h => ⟨h, rfl⟩, fun _ => rfl, fun _ => rfl⟩

theorem confKept_of_eq {c c' : TgConf} (h : c' = c) : ConfKept c c' := h ▸ .refl c

/-- `TGCFG` fills the registers of an unconfigured timing generator only (R142). -/
theorem confKept_withTiming {c : TgConf} (p : TimingParams) (bg : Colour) (hc : c.configured = false) :
    ConfKept c (c.withTiming p bg) :=
  ⟨fun h => absurd (hc.symm.trans h) Bool.false_ne_true, fun _ => rfl, fun _ => rfl⟩

/-- `TGBIND` fills a slot only where neither is bound (R144). -/
theorem confKept_withLayer {c : TgConf} {k : BitVec 4} {d : LayerDesc} (h : bindError c k d = none) :
    ConfKept c (c.withLayer k (layerOf d)) := by
  obtain ⟨-, h0, h1, -⟩ := bindError_none h
  have unbound0 : c.layer0.bound ≠ true := by simp [h0]
  have unbound1 : c.layer1.bound ≠ true := by simp [h1]
  obtain ⟨-, hw⟩ | ⟨-, hw⟩ := withLayer_of_bindError_none h <;> rw [hw] <;>
    exact ⟨fun hc => ⟨hc, rfl⟩, fun hb => absurd hb unbound0, fun hb => absurd hb unbound1⟩

theorem effect_confKept (i : Instr) (s : State) (hp : s.fr.phase = .idle) :
    ConfKept s.tg.conf (effect i s).tg.conf := by
  cases i with
  | tgcfg p bg =>
    rcases effect_tgcfg_cases p bg s with hr | ⟨hc, -, heff⟩
    · exact confKept_of_eq hr.spi.conf
    · rw [heff]; exact confKept_withTiming p bg hc
  | tgbind k d =>
    rcases effect_tgbind_cases k d s with hr | ⟨-, hnone, heff⟩
    · exact confKept_of_eq hr.spi.conf
    · rw [heff]; exact confKept_withLayer hnone
  | tgen e =>
    rcases effect_tgen_cases e s with hr | ⟨-, heff⟩
    · exact confKept_of_eq hr.spi.conf
    · rw [heff, State.advance_tg, setEnable_conf]
      exact ⟨fun hc => ⟨hc, rfl⟩, fun _ => rfl, fun _ => rfl⟩
  | _ => exact confKept_of_eq (effect_spi _ s hp (by simp) (by simp) (by simp)).conf

/-- `INIT` faults once `INITED` is set, and no other operation writes it. -/
theorem effect_keeps_inited (i : Instr) {s : State} (hp : s.fr.phase = .idle) (hi : s.sq.inited = true) :
    (effect i s).sq.inited = true := by
  by_cases hinit : i = .init
  · subst hinit
    rcases effect_init_cases s hp with ⟨-, hr⟩ | ⟨-, -, hset, -⟩ | ⟨hno, -⟩
    · exact hr.inited.trans hi
    · exact hset
    · exact absurd (hno.symm.trans hi) Bool.false_ne_true
  · exact (effect_inited i s hinit).trans hi

/-- `INITED` stays set, and the configuration registers are kept. -/
structure StatusKept (s t : State) : Prop where
  inited : s.sq.inited = true → t.sq.inited = true
  conf : ConfKept s.tg.conf t.tg.conf

theorem hostEffect_statusKept {s : State} (hp : s.fr.phase = .idle) : StatusKept s (hostEffect s) := by
  rcases hostEffect_cases s with ⟨i, n, -, heff⟩ | hr
  · rw [heff]
    exact ⟨effect_keeps_inited i hp, effect_confKept i s hp⟩
  · exact ⟨hr.inited.trans, confKept_of_eq hr.spi.conf⟩

theorem step_statusKept {s s' : State} (hreset : s.env.sched.head? ≠ some .reset) (h : step s = .next s') :
    StatusKept s s' := by
  rcases step_cases h with
    ⟨u, hu, hready, rfl⟩ | ⟨u, pix, hu, -, -, rfl⟩ | ⟨rest, hs, -⟩ | ⟨n, v, rest, -, rfl⟩
  · have hkept := hostEffect_statusKept (hostReady_iff.mp hready).1.idle
    rw [hu.eq] at hkept ⊢
    exact ⟨hkept.inited, hkept.conf⟩
  · rw [hu.eq]
    exact ⟨id, .refl _⟩
  · exact absurd (by rw [hs]; rfl) hreset
  · exact ⟨id, .refl _⟩

/-- Settles O43: a host with `FLT` set has no step that could change it, and each operation checks the status it would
set before it writes. -/
theorem onlyResetClears : Obligations.OnlyResetClears := by
  unfold Obligations.OnlyResetClears
  intro s s' h hreset
  obtain ⟨hinited, hconf⟩ := step_statusKept hreset h
  refine ⟨fun hf => ?_, hinited, hconf.timing, hconf.layer0, hconf.layer1⟩
  obtain ⟨scan, video, fb, env, rfl⟩ := step_frame_of_stopped (hostReady_of_stopped (.inl hf)) hreset h
  exact ⟨rfl, rfl⟩

/-! ### The panel's own reset (R210, R212; 41_sequencer_ops.md R112) -/

/-- A register a stage of an admissible program selects is an extra one, or one of the stage's row of R113's table. -/
theorem register_of_stageOps (p : Params) {k : Nat} (h1 : 1 ≤ k) (h12 : k < 13) {sel : Byte} {payload : List Byte}
    (h : InitOp.reg sel payload ∈ stageOps p.raw.program k) :
    isExtra p.raw.sel k (.reg sel payload) = true ∨ ∃ name ∈ stageSels k, p.raw.sel.byte name = sel := by
  cases hextra : isExtra p.raw.sel k (.reg sel payload) with
  | true => exact .inl rfl
  | false =>
    have hlisted : InitOp.reg sel payload ∈ listedOps p.raw.sel k (stageOps p.raw.program k) :=
      List.mem_filter.mpr ⟨h, by rw [hextra]; rfl⟩
    exact .inr (List.mem_map.mp (((paramFacts p).program.listed k h1 h12).mem_iff.mp (mem_regSels hlisted)))

theorem softReset_not_in_stageOps (p : Params) {k : Nat} (hk : k ∈ List.range' 1 12) (payload : List Byte) :
    InitOp.reg p.raw.sel.softReset payload ∉ stageOps p.raw.program k := by
  intro h
  have hb := List.mem_range'_1.mp hk
  rcases register_of_stageOps p hb.1 hb.2 h with hextra | ⟨name, hname, heq⟩
  · obtain ⟨sel, _, hop, -, hreset, -⟩ := isExtra_cases hextra
    exact hreset (InitOp.reg.inj hop).1.symm
  · have hno : ∀ k ∈ List.range' 1 12, Sel.softReset ∉ stageSels k := by decide
    obtain rfl : name = .softReset := selector_inj p heq
    exact hno k hk hname

/-- A command among what an entry appends is the entry's selector. -/
theorem reg_of_cmd_mem_opTxns {r : RawParams} {op : InitOp} {sel : Byte} (h : TxnEntry.txn .cmd sel ∈ opTxns r op) :
    ∃ payload, op = .reg sel payload := by
  cases op with
  | reg x payload =>
    obtain rfl : sel = x := by simpa [opTxns] using h
    exact ⟨payload, rfl⟩
  | settle w => cases w <;> simp [opTxns] at h

/-- Settles O57: neither a stage's row of R113's table nor the extra entries hold `SEL_RESET`. -/
theorem initSendsNoPanelReset : Obligations.InitSendsNoPanelReset := by
  unfold Obligations.InitSendsNoPanelReset
  intro p h
  rw [programTxns_stages] at h
  obtain ⟨k, hk, hstage⟩ := List.mem_flatMap.mp h
  obtain ⟨op, hop, hcmd⟩ := List.mem_flatMap.mp hstage
  obtain ⟨payload, rfl⟩ := reg_of_cmd_mem_opTxns hcmd
  exact softReset_not_in_stageOps p hk payload hop

/-! ### The final state (R221) -/

theorem stopReason_of_runs {s : State} (h : HostRuns s) : s.stopReason = .streamEnded := by
  have hf : s.faulted = false := faulted_eq_false.mpr h.noFault
  have hi : s.idle = true := idle_eq_true.mpr h.idle
  simp [State.stopReason, hf, hi]

/-- Settles O7: a host between operations has a step exactly while `pc` is inside the stream. -/
theorem finalStateHasNoStep : Obligations.FinalStateHasNoStep := by
  unfold Obligations.FinalStateHasNoStep
  intro s hr hpc hs he
  rcases Nat.lt_or_eq_of_le hpc with hlt | hend
  · have hready : s.hostReady = true := hostReady_iff.mpr ⟨hr, hlt⟩
    rw [step_host_alone hs hready he, hostStep_of_ready hready]
    exact ⟨fun h => (nomatch h), fun h => absurd h.1 (Nat.ne_of_lt hlt)⟩
  · have hno : s.hostReady = false :=
      Bool.eq_false_iff.mpr fun h => Nat.ne_of_lt (hostReady_iff.mp h).2 hend
    rw [step_of_none_ready hs hno he, stopReason_of_runs hr]
    exact ⟨fun _ => ⟨hend, hr.noFault, hr.idle⟩, fun _ => rfl⟩

/-! ### The values a reset leaves (R211) -/

/-- A reset pulse is a step of its own, whatever the state. -/
theorem step_reset {s : State} {rest : List SchedEntry} (h : s.env.sched = .reset :: rest) :
    step s = .next (resetPulse s.dropSched) := by
  simp only [step, machineStep, h]

/-- Settles O54: the values are those of `resetPulse`. -/
theorem resetValues : Obligations.ResetValues := by
  unfold Obligations.ResetValues
  exact fun _ _ h =>
    ⟨_, step_reset h, rfl, rfl, rfl, rfl, rfl, rfl, rfl, rfl, rfl, rfl, rfl, rfl, rfl, rfl, rfl, rfl, rfl, rfl, rfl⟩

theorem register_reset {k : Nat} (h : 1 ≤ k ∧ k ≤ 20 ∨ 32 ≤ k ∧ k < 48) : State.reset.register k = some 0 := by
  rcases h with ⟨hlow, hhigh⟩ | ⟨hlow, hhigh⟩
  · interval_cases k <;> rfl
  · interval_cases k <;> rfl

/-- Settles O55: the values are those of `State.reset`, the registers one index after the other. -/
theorem resetStateValues : Obligations.ResetStateValues := by
  unfold Obligations.ResetStateValues
  exact ⟨rfl, rfl, rfl, rfl, rfl, rfl, rfl, rfl, fun _ h => register_reset h, rfl, rfl, rfl⟩

theorem panelInv_reset : PanelInv State.reset := ⟨fun _ => rfl, fun h => Bool.noConfusion h, fun _ _ => rfl⟩

/-- Settles O53: what a reset leaves meets the framer's, the wire's and the timing generator's invariant, and the stream
and the framebuffer's list are empty. -/
theorem invariantsHoldAtReset : Obligations.InvariantsHoldAtReset := by
  unfold Obligations.InvariantsHoldAtReset
  have hframer : FramerInv State.reset := framerInv_keptBySpi.reset _ _ _ _
  exact ⟨tgInv_afterReset 0, .of_parts hframer panelInv_reset (Nat.zero_le _), wireMatches_keptBySpi.reset _ _ _ _,
    Memory.wf_nil⟩

end Sys2Proof.Machine
end

section
/-! Weak fairness (70_reset_and_hazards.md R220): with nothing scheduled, the host moves once the scanner has had its
free choices, and the scanner moves at the latest when the host's operations are used up. -/

namespace Sys2Proof.Machine

/-! ### The host eventually steps -/

/-- Nothing of the host's side differs, nor the configuration the scanner reads. -/
structure HostSideSame (s t : State) : Prop where
  fr : t.fr = s.fr
  sq : t.sq = s.sq
  gh : t.gh = s.gh
  ops : t.ops = s.ops
  conf : t.tg.conf = s.tg.conf
  txn : t.obs.txn = s.obs.txn
  wire : t.obs.wire = s.obs.wire

theorem HostSideSame.refl (s : State) : HostSideSame s s := ⟨rfl, rfl, rfl, rfl, rfl, rfl, rfl⟩

theorem HostSideSame.trans {s t u : State} (h : HostSideSame s t) (k : HostSideSame t u) : HostSideSame s u :=
  ⟨k.fr.trans h.fr, k.sq.trans h.sq, k.gh.trans h.gh, k.ops.trans h.ops, k.conf.trans h.conf, k.txn.trans h.txn,
    k.wire.trans h.wire⟩

theorem HostSideSame.hostReady {s t : State} (h : HostSideSame s t) : t.hostReady = s.hostReady := by
  simp only [State.hostReady, State.canRun, State.faulted, State.idle, h.fr, h.sq, h.ops]

/-- A host that has a step takes it after finitely many scan steps. -/
theorem run_to_host_step {s : State} (hi : TgInv s.tg) (hs : s.env.sched = []) (he : s.tg.conf.en = true)
    (hh : s.hostReady = true) :
    ∃ (n : Nat) (t : State), Host.Core.run core n s = .next t ∧ HostSideSame s t ∧ t.env.sched = [] ∧
      step t = hostStep t.hostChosen := by
  induction hk : Config.patience s.env.turnDraws - s.env.scansSince generalizing s with
  | zero => exact ⟨0, s, rfl, .refl s, hs, step_host_chosen hs hh he (Nat.le_of_sub_eq_zero hk)⟩
  | succ k ih =>
    obtain ⟨pix, -, hscan⟩ := scanStep_of_inv (s := s.scannerChosen) hi
    have hstep : step s = .next (scanEffect pix s.scannerChosen) :=
      (step_scanner_chosen hs hh he (by omega)).trans hscan
    have hsame : HostSideSame s (scanEffect pix s.scannerChosen) := ⟨rfl, rfl, rfl, rfl, rfl, rfl, rfl⟩
    have hless : Config.patience s.env.turnDraws - (s.env.scansSince + 1) = k := by omega
    obtain ⟨n, t, hrun, ht, hst, hhost⟩ :=
      ih (scanEffect_inv (s := s.scannerChosen) pix he hi).1 hs he (hsame.hostReady.trans hh) hless
    exact ⟨n + 1, t, (run_succ hstep n).trans hrun, hsame.trans ht, hst, hhost⟩

/-! ### The scanner eventually steps -/

theorem words_pos (i : Instr) : 0 < i.words := by
  cases i <;> exact Nat.succ_pos _

/-- A host step that leaves the host running has moved `pc` (10_state.md R16). -/
theorem hostEffect_pc_lt {s : State} (hr : HostRuns s) (hr' : HostRuns (hostEffect s)) :
    s.sq.pc < (hostEffect s).sq.pc := by
  rcases hostEffect_cases s with ⟨i, n, -, heff⟩ | ⟨f, info, heff⟩
  · rw [heff] at hr' ⊢
    rcases effect_pc_cases i hr with ⟨-, hpc⟩ | ⟨hstop, -⟩
    · rw [hpc]; exact Nat.lt_add_of_pos_right (words_pos i)
    · exact absurd hr' hstop
  · rw [heff] at hr'
    exact absurd hr'.noFault f.code_ne_zero

/-- A run from `s` leads to one more sample, or to a state with the scanner off. -/
def ReachesSample (s : State) : Prop :=
  ∃ (n : Nat) (t : State), Host.Core.run core n s = .next t ∧
    ((∃ q, t.obs.video = s.obs.video ++ [q]) ∨ t.tg.conf.en = false)

/-- A step that is the scanner's takes the sample. -/
theorem reachesSample_of_scanStep {s u : State} (hi : TgInv s.tg) (hu : TurnTaken s u) (h : step s = scanStep u) :
    ReachesSample s := by
  obtain ⟨pix, -, hscan⟩ := scanStep_of_inv (hu.tg ▸ hi)
  obtain ⟨q, hq⟩ := scanEffect_video pix u
  exact ⟨1, _, run_succ (h.trans hscan) 0, .inl ⟨q, by rw [hq, hu.obs]⟩⟩

theorem ReachesSample.of_step {s t : State} (h : step s = .next t) (hv : t.obs.video = s.obs.video)
    (ht : ReachesSample t) : ReachesSample s := by
  obtain ⟨n, u, hrun, hu⟩ := ht
  exact ⟨n + 1, u, (run_succ h n).trans hrun, hv ▸ hu⟩

/-- By the words the host has left: each of its steps uses some up, or is its last. -/
theorem reachesSample_of_enabled (k : Nat) {s : State} (hi : TgInv s.tg) (hs : s.env.sched = [])
    (he : s.tg.conf.en = true) (hk : s.hostReady = true → s.ops.length - s.sq.pc ≤ k) : ReachesSample s := by
  induction k generalizing s with
  | zero =>
    have hno : s.hostReady = false := Bool.eq_false_iff.mpr fun hh => by
      have hpc := (hostReady_iff.mp hh).2
      have hleft := hk hh
      omega
    exact reachesSample_of_scanStep hi (.inr ⟨hs, .inl rfl⟩) (step_scanner_alone hs hno he)
  | succ k ih =>
    cases hh : s.hostReady with
    | false => exact reachesSample_of_scanStep hi (.inr ⟨hs, .inl rfl⟩) (step_scanner_alone hs hh he)
    | true =>
      by_cases hp : s.env.scansSince < Config.patience s.env.turnDraws
      · exact reachesSample_of_scanStep hi (.inr ⟨hs, .inr (.inl rfl)⟩) (step_scanner_chosen hs hh he hp)
      · have hready : s.hostChosen.hostReady = true := hh
        have hrun := (hostReady_iff.mp hready).1
        have hstep : step s = .next (hostEffect s.hostChosen) :=
          (step_host_chosen hs hh he (Nat.not_lt.mp hp)).trans (hostStep_of_ready hready)
        have honly := hostEffect_hostOnly s.hostChosen hrun.idle
        cases hen : (hostEffect s.hostChosen).tg.conf.en with
        | false => exact ⟨1, _, run_succ hstep 0, .inr hen⟩
        | true =>
          refine .of_step hstep honly.video
            (ih (TgInv.hostEffect (s := s.hostChosen) hi hrun.idle) (honly.sched.trans hs) hen fun hh' => ?_)
          have hpc : s.sq.pc < (hostEffect s.hostChosen).sq.pc := hostEffect_pc_lt hrun (hostReady_iff.mp hh').1
          have hops : (hostEffect s.hostChosen).ops = s.ops := honly.ops
          have hleft := hk hh
          rw [hops]
          omega

/-- Settles O59: the scanner's free choices before the host's are finitely many, and so are the host's operations. -/
theorem eachAgentEventuallySteps : Obligations.EachAgentEventuallySteps := by
  unfold Obligations.EachAgentEventuallySteps
  intro s hi hs he
  refine ⟨fun hr hpc => ?_, reachesSample_of_enabled _ hi hs he fun _ => Nat.le_refl _⟩
  obtain ⟨n, t, hrun, hsame, hst, hhost⟩ := run_to_host_step hi hs he (hostReady_iff.mpr ⟨hr, hpc⟩)
  exact ⟨n, t, hrun, hsame.fr, hsame.sq, hsame.gh, hsame.ops, hsame.conf, hsame.txn, hsame.wire, hst, hhost⟩

end Sys2Proof.Machine
end
